-- ==== Sys2Proof/Word.lean ====
section
/-! DEFINITION. The two word types of the core: the 16-bit descriptor word (30_encoding.md R80, R83) and the byte of
the bus, of the staging buffers and of a glyph row (20_memory.md R50). -/

namespace Sys2Proof

/-- A 16-bit word: the only unit of encoding (R87), and the width of a coordinate, a colour and a scale (R8, R9). -/
abbrev Word := BitVec 16

/-- One byte: a bus byte, a byte of a staging buffer, one row of a glyph (R50). -/
abbrev Byte := BitVec 8

end Sys2Proof
end

