-- ==== Sys2Proof/Config.lean ====
section
/-! DEFINITION. What one implementation fixes: the parameters of 00_scope.md R7, latched at reset and never changed
(10_state.md R21), and the free values of the model. -/

namespace Sys2Proof

/-- `MODE` (R3): the staging mode, the core's only option. -/
inductive Mode where
  /-- BLOCKING: one buffer (R120). -/
  | blocking
  /-- ASYNC: two buffers (R120). -/
  | async
  deriving DecidableEq, Repr

/-- The configuration parameters of R7, under the rule's own names. `NBUF` is computed from `MODE`. -/
structure Config where
  /-- `MODE` -/
  mode : Mode
  /-- `C`, the capacity of each staging buffer in bytes -/
  capacity : Nat
  /-- `PANEL_W` -/
  panelW : Nat
  /-- `PANEL_H` -/
  panelH : Nat
  /-- `CMD_HRANGE` -/
  cmdHRange : Byte
  /-- `CMD_VRANGE` -/
  cmdVRange : Byte
  /-- `CMD_MEMWRITE` -/
  cmdMemWrite : Byte
  /-- `GLYPH_LAST` -/
  glyphLast : Nat
  /-- `GLYPH_MSB_LEFT` -/
  glyphMsbLeft : Bool
  /-- `BMEM_WORDS` -/
  bmemWords : Nat
  /-- `TIMEOUT_ENABLED` -/
  timeoutEnabled : Bool
  deriving DecidableEq, Repr

namespace Config

/-- `NBUF` (R7): 1 in BLOCKING mode, 2 in ASYNC mode. -/
def nbuf (c : Config) : Nat :=
  match c.mode with
  | .blocking => 1
  | .async => 2

/-- The ranges of R7. "No C below 3 is a legal configuration, and a model must refuse such a configuration" (R134);
U18 of 93_implementation_defined.md says the same of the panel size. -/
abbrev Legal (c : Config) : Prop :=
  3 ≤ c.capacity ∧ c.capacity ≤ 65535 ∧
  1 ≤ c.panelW ∧ c.panelW ≤ 65535 ∧ 1 ≤ c.panelH ∧ c.panelH ≤ 65535 ∧
  32 ≤ c.glyphLast ∧ c.glyphLast ≤ 255 ∧ c.bmemWords ≤ 2 ^ 32

/-- `GLYPH_W` (R7, R156) -/
def glyphW : Nat := 8
/-- `GLYPH_H` (R7, R156) -/
def glyphH : Nat := 13
/-- `GLYPH_ADVANCE` (R7) -/
def glyphAdvance : Nat := 9
/-- `GLYPH_FIRST` (R7, R156) -/
def glyphFirst : Nat := 32

/-- The configuration that `Machine.State.reset` latches: the test configuration T0 of 95_test_vectors.md with
BLOCKING mode and `C = 30`. DESIGN CHOICE (log entry 1): the spec makes every one of these a model argument, so a
statement is made for every configuration and rests on none of these values. -/
def testT0 : Config where
  mode := .blocking
  capacity := 30
  panelW := 320
  panelH := 480
  cmdHRange := 0x2A
  cmdVRange := 0x2B
  cmdMemWrite := 0x2C
  glyphLast := 126
  glyphMsbLeft := true
  bmemWords := 0x200
  timeoutEnabled := false

/-- Free value (log entry 2): what `op_code` holds once no operation runs. R23: the latch "is undefined while
`busy = 0`". The argument is the number of the draw. -/
opaque freeOpCode : Nat → Byte

/-- Free value (log entry 2): what `op_words` holds once no operation runs (R23). -/
opaque freeOpWords : Nat → List Word

/-- Free value (log entry 17): what a read of a word of the bitmap memory returns once the host has changed that word
during the operation. R72: it "may return any value". The argument is the number of the draw. -/
opaque freeWord : Nat → Word

/-- Free value (log entry 17): the same for a row of a glyph (R72). -/
opaque freeRow : Nat → Byte

end Config

end Sys2Proof
end

