-- ==== Sys2Proof/Syntax.lean ====
section
/-! DEFINITION. The eleven operations of the opcode map (30_encoding.md R85), one constructor per row of
spec/opcode_table.json, with the operands of R86 in the table's order. -/

namespace Sys2Proof

/-- An operation with its assembled operands (R84). A `char` operand is its 8-bit code, a string its list of codes
(the count word is the list's length), the bitmap base the 32-bit word address `{addr_hi, addr_lo}`. -/
inductive Instr where
  /-- 0x01, FPIX, R150 -/
  | drawPixel (x y c : Word)
  /-- 0x02, FRECT, R152 -/
  | fillRect (x1 y1 x2 y2 c : Word)
  /-- 0x03, FGLYPH, R160 -/
  | drawGlyph (x y : Word) (ch : Byte) (fg bg s : Word)
  /-- 0x04, FFGLYPH, R159 -/
  | drawFastGlyph (x y : Word) (ch : Byte) (fg bg : Word)
  /-- 0x05, FSTR, R164 -/
  | drawString (x y fg bg s : Word) (chs : List Byte)
  /-- 0x06, FFSTR, R165 -/
  | drawFastString (x y fg bg : Word) (chs : List Byte)
  /-- 0x07, FBMP, R172 -/
  | drawBitmap (x y s : Word) (base : BitVec 32)
  /-- 0x10, FCOL, R102 -/
  | convert (c : Word)
  /-- 0x11, FWIN, R113 -/
  | setWindow (x1 y1 x2 y2 : Word)
  /-- 0x12, FCOL, R132 -/
  | pushPixel (c : Word)
  /-- 0x13, FNONE, R133 -/
  | finish
  deriving DecidableEq, Repr

end Sys2Proof
end

