-- ==== Sys2Proof/WellFormed.lean ====
section
/-! DEFINITION. Which terms of `Instr` an encoding exists for. Every operand's range is in its type except the number
of characters of a string, which the 16-bit count word bounds (30_encoding.md R83: "any, 0..65535"). -/

namespace Sys2Proof

/-- The count word holds `n` in 16 bits (R83, R90). -/
def stringFits (chs : List Byte) : Bool := chs.length ≤ 65535

/-- The operation has a descriptor. -/
def Instr.wellFormed (i : Instr) : Bool :=
  match i with
  | .drawPixel _ _ _ => true
  | .fillRect _ _ _ _ _ => true
  | .drawGlyph _ _ _ _ _ _ => true
  | .drawFastGlyph _ _ _ _ _ => true
  | .drawString _ _ _ _ _ chs => stringFits chs
  | .drawFastString _ _ _ _ chs => stringFits chs
  | .drawBitmap _ _ _ _ => true
  | .convert _ => true
  | .setWindow _ _ _ _ => true
  | .pushPixel _ => true
  | .finish => true

end Sys2Proof
end

