-- ==== Sys2Proof/Decode.lean ====
section
/-! DEFINITION. Decoding of descriptors, total on every word sequence (30_encoding.md R89), in the check order of R91
and rejecting by name; then the encoder, written from the same tables (R82, R85, R86). The unit is the 16-bit word
(R87): the descriptor port is a word port with no byte order (20_memory.md R59). -/

namespace Sys2Proof

/-- `hi8(v) = v[15:8]` (00_scope.md R10). -/
def hi8 (v : Word) : Byte := v.extractLsb' 8 8

/-- `lo8(v) = v[7:0]` (00_scope.md R10). -/
def lo8 (v : Word) : Byte := v.extractLsb' 0 8

/-- The names of the opcode map (R85). -/
inductive Op where
  | drawPixel | fillRect | drawGlyph | drawFastGlyph | drawString | drawFastString | drawBitmap
  | convert | setWindow | pushPixel | finish
  deriving DecidableEq, Repr

/-- Why a word sequence is no descriptor: the failed check of R91, one name each. -/
inductive DecodeError where
  /-- check 1: the sequence is empty -/
  | emptySequence
  /-- check 2: header bits [15:8] are not 0 -/
  | reservedHeaderBits
  /-- check 3: OPCODE is none of R85 -/
  | reservedOpcode
  /-- check 4: the count word of a string is missing -/
  | noCountWord
  /-- check 5: the length is not `L` -/
  | wrongLength
  /-- check 6: a `char` word has a bit of [15:8] set -/
  | reservedCharBits
  deriving DecidableEq, Repr

/-- OPCODE of an operation (R85). -/
def Op.code (op : Op) : Byte :=
  match op with
  | .drawPixel => 0x01
  | .fillRect => 0x02
  | .drawGlyph => 0x03
  | .drawFastGlyph => 0x04
  | .drawString => 0x05
  | .drawFastString => 0x06
  | .drawBitmap => 0x07
  | .convert => 0x10
  | .setWindow => 0x11
  | .pushPixel => 0x12
  | .finish => 0x13

/-- The operation an OPCODE selects; every value not in R85 is reserved (R88). -/
def opOf (code : Byte) : Option Op :=
  match code.toNat with
  | 0x01 => some .drawPixel
  | 0x02 => some .fillRect
  | 0x03 => some .drawGlyph
  | 0x04 => some .drawFastGlyph
  | 0x05 => some .drawString
  | 0x06 => some .drawFastString
  | 0x07 => some .drawBitmap
  | 0x10 => some .convert
  | 0x11 => some .setWindow
  | 0x12 => some .pushPixel
  | 0x13 => some .finish
  | _ => none

/-- The descriptor length `L` (R85, R90); `none` when a string's count word is missing. -/
def descriptorLength (op : Op) (ws : List Word) : Option Nat :=
  match op with
  | .drawPixel => some 4
  | .fillRect => some 6
  | .drawGlyph => some 7
  | .drawFastGlyph => some 6
  | .drawString => (ws[6]?).map fun n => 7 + n.toNat
  | .drawFastString => (ws[5]?).map fun n => 6 + n.toNat
  | .drawBitmap => some 6
  | .convert => some 2
  | .setWindow => some 5
  | .pushPixel => some 2
  | .finish => some 1

/-- The words of type `char` (R83, R86). -/
def charWords (op : Op) (ws : List Word) : List Word :=
  match op with
  | .drawGlyph | .drawFastGlyph => [ws.getD 3 0]
  | .drawString => ws.drop 7
  | .drawFastString => ws.drop 6
  | .drawPixel | .fillRect | .drawBitmap | .convert | .setWindow | .pushPixel | .finish => []

/-- Operand assembly (R84, R86). -/
def assemble (op : Op) (ws : List Word) : Instr :=
  let w := fun k => ws.getD k 0
  match op with
  | .drawPixel => .drawPixel (w 1) (w 2) (w 3)
  | .fillRect => .fillRect (w 1) (w 2) (w 3) (w 4) (w 5)
  | .drawGlyph => .drawGlyph (w 1) (w 2) (lo8 (w 3)) (w 4) (w 5) (w 6)
  | .drawFastGlyph => .drawFastGlyph (w 1) (w 2) (lo8 (w 3)) (w 4) (w 5)
  | .drawString => .drawString (w 1) (w 2) (w 3) (w 4) (w 5) ((ws.drop 7).map lo8)
  | .drawFastString => .drawFastString (w 1) (w 2) (w 3) (w 4) ((ws.drop 6).map lo8)
  | .drawBitmap => .drawBitmap (w 1) (w 2) (w 3) (w 4 ++ w 5)
  | .convert => .convert (w 1)
  | .setWindow => .setWindow (w 1) (w 2) (w 3) (w 4)
  | .pushPixel => .pushPixel (w 1)
  | .finish => .finish

/-- The decode checks, in the order of R91. -/
def decode (ws : List Word) : Except DecodeError Instr :=
  match ws with
  | [] => .error .emptySequence
  | h :: _ =>
    if hi8 h ≠ 0 then .error .reservedHeaderBits
    else match opOf (lo8 h) with
      | none => .error .reservedOpcode
      | some op =>
        match descriptorLength op ws with
        | none => .error .noCountWord
        | some len =>
          if ws.length ≠ len then .error .wrongLength
          else if (charWords op ws).any (fun c => hi8 c ≠ 0) then .error .reservedCharBits
          else .ok (assemble op ws)

/-- The header word (R82): OPCODE in [7:0], the reserved bits 0. -/
def header (op : Op) : Word := op.code.setWidth 16

/-- A `char` word (R83): the code in [7:0], the reserved bits 0. -/
def charWord (ch : Byte) : Word := ch.setWidth 16

/-- The operation's name in the opcode map. -/
def Instr.op (i : Instr) : Op :=
  match i with
  | .drawPixel _ _ _ => .drawPixel
  | .fillRect _ _ _ _ _ => .fillRect
  | .drawGlyph _ _ _ _ _ _ => .drawGlyph
  | .drawFastGlyph _ _ _ _ _ => .drawFastGlyph
  | .drawString _ _ _ _ _ _ => .drawString
  | .drawFastString _ _ _ _ _ => .drawFastString
  | .drawBitmap _ _ _ _ => .drawBitmap
  | .convert _ => .convert
  | .setWindow _ _ _ _ => .setWindow
  | .pushPixel _ => .pushPixel
  | .finish => .finish

/-- The operand words of R86, in the order of the format tables. -/
def operandWords (i : Instr) : List Word :=
  match i with
  | .drawPixel x y c => [x, y, c]
  | .fillRect x1 y1 x2 y2 c => [x1, y1, x2, y2, c]
  | .drawGlyph x y ch fg bg s => [x, y, charWord ch, fg, bg, s]
  | .drawFastGlyph x y ch fg bg => [x, y, charWord ch, fg, bg]
  | .drawString x y fg bg s chs => [x, y, fg, bg, s, BitVec.ofNat 16 chs.length] ++ chs.map charWord
  | .drawFastString x y fg bg chs => [x, y, fg, bg, BitVec.ofNat 16 chs.length] ++ chs.map charWord
  | .drawBitmap x y s base => [x, y, s, base.extractLsb' 16 16, base.extractLsb' 0 16]
  | .convert c => [c]
  | .setWindow x1 y1 x2 y2 => [x1, y1, x2, y2]
  | .pushPixel c => [c]
  | .finish => []

/-- The descriptor of an operation (R80): the header, then the operand words. -/
def encode (i : Instr) : List Word := header i.op :: operandWords i

/-- `n` words of `w`, the least significant bits first. -/
def wordsOf (w : Nat) : Nat → List Word
  | 0 => []
  | n + 1 => BitVec.ofNat 16 w :: wordsOf (w / 65536) n

/-- The descriptor an opcode-table row's `nbits` bits `w` stand for: its words, followed by as many operand words of
zero as the descriptor still lacks of its length `L` (R90). -/
def tableWords (nbits w : Nat) : List Word :=
  let given := wordsOf w ((nbits + 15) / 16)
  match given with
  | [] => []
  | h :: _ =>
    match (opOf (lo8 h)).bind fun op => descriptorLength op (given ++ List.replicate 7 0) with
    | none => given
    | some len => given ++ List.replicate (len - given.length) 0

/-- The operation the decoder reads from those words. -/
def decodeTableWord (nbits w : Nat) : Option Instr := (decode (tableWords nbits w)).toOption

end Sys2Proof
end

