-- ==== Sys2Proof/Machine/State.lean ====
section
/-! DEFINITION. The state of the machine as plain data: the core's architectural state (10_state.md R22 to R35), the
external read-only resources it reads (20_memory.md R52, R53), the bus trace (R55), and what the other agents of R20
are going to do, as lists the step reads. -/

namespace Sys2Proof.Machine

/-- Sparse memory with `w`-bit cells: (address, value) pairs, addresses strictly rising (log entries 3 and 4). -/
abbrev Cells (w : Nat) := List (Nat × BitVec w)

/-- Byte memory. -/
abbrev Memory := List Host.Cell

/-- A DeviceColor (R101): three bytes. -/
structure DeviceColor where
  r : Byte
  g : Byte
  b : Byte
  deriving DecidableEq, Repr

/-- The window register (R31): the four bounds. -/
structure Window where
  x1 : Word
  y1 : Word
  x2 : Word
  y2 : Word
  deriving DecidableEq, Repr

/-- A cell of an external resource: what one read of the core reads (R52, R53). -/
inductive Source where
  /-- a word of the bitmap memory -/
  | word (a : Nat)
  /-- row `j` of the glyph `code` -/
  | row (code : Byte) (j : Nat)
  deriving DecidableEq, Repr

/-- Where the PixelColor of a pushed pixel comes from. -/
inductive Ink where
  /-- an operand -/
  | color (c : Word)
  /-- a word of the bitmap memory (R172) -/
  | word (a : Nat)
  /-- `fg` or `bg`, by source bit `(i, j)` of the glyph `code` (R161, R162) -/
  | bit (code : Byte) (i j : Nat) (fg bg : Word)
  deriving DecidableEq, Repr

/-- A window and what is pushed into it. -/
structure StreamOf (α : Type) where
  win : Window
  pixels : List α
  deriving DecidableEq, Repr

/-- A stream: the window that opens it and the DeviceColors pushed into it. -/
abbrev Stream := StreamOf DeviceColor

/-- A stream as the engine runs it: each pixel's colour is looked up when the pixel is pushed. -/
abbrev Plan := StreamOf Ink

/-- The bus events of R55. A block carries the mode it was issued in (`SYNC` is `.blocking`, `ASYNC` is `.async`). -/
inductive Event where
  | cmd (b : Byte)
  | data (b : Byte)
  | scopeAcquire
  | scopeRelease
  | block (mode : Mode) (bytes : List Byte)
  | done
  deriving DecidableEq, Repr

/-- The status codes of R200 that are ever written; 6 to 15 are reserved and have no constructor. -/
inductive Status where
  | ok
  | invalidWindow
  | unsupportedGlyph
  | busTimeout
  | illegalOperation
  | memoryFault
  deriving DecidableEq, Repr

/-- The index of a staging buffer (R25, R27): one bit. -/
inductive BufIx where
  | b0
  | b1
  deriving DecidableEq, Repr

/-- One engine step: a statement of the operations' pseudocode (R24, log entry 5). -/
inductive EStep where
  /-- `if faulted = 1 then raise Status(BusTimeout)` (R214) -/
  | faultCheck
  /-- `if bad then raise Status(code)`: an operation's own check before its first `set_window` (R204 step 3) -/
  | raiseIf (bad : Bool) (code : Status)
  /-- `if stream_open = 0 then raise Status(IllegalOperation)` (R132) -/
  | requireStream
  /-- `if stream_open = 1 then finish()` (R110, R133) -/
  | closeStream
  /-- `emit e` for an event other than a block (R12) -/
  | emit (e : Event)
  /-- `win <- w` (R110) -/
  | writeWin (w : Window)
  /-- `stream_open <- 1` (R110) -/
  | openStream
  /-- the colour of the pixel, read and converted, and the three buffer writes of `push_pixel`, one 3-byte access (R121,
  R62) -/
  | store (p : Ink)
  /-- the header of a bitmap is read; the rest of DRAW_BITMAP follows from it (R172) -/
  | readHeader (x y sc : Word) (base : BitVec 32)
  /-- `cursor[a] <- cursor[a] + 3` (R121) -/
  | advance
  /-- `if cursor[a] + 3 > C then flush()` (R121) -/
  | flushIfFull
  /-- `if cursor[active] > 0 then flush()` (R125) -/
  | flushIfAny
  /-- `wait until in_flight = 0` (R13) -/
  | waitIdle
  /-- the atomic issue step of `flush` (R123, R124) -/
  | issue
  /-- `cursor[a] <- 0` (R123, R124) -/
  | clearCursor
  /-- `active <- 1 - a` (R124) -/
  | flipActive
  /-- `stream_open <- 0` (R125) -/
  | shutStream
  /-- `result <- v` (R102) -/
  | writeResult (v : BitVec 24)
  /-- `status <- st ; busy <- 0` -/
  | finishOp (st : Status)
  deriving DecidableEq, Repr

/-- A move of an agent other than the engine (R20). The moves stand in the order in which the agents take them. -/
inductive Move where
  /-- no other agent moves before the next engine step (or the host's submit) -/
  | stay
  /-- the transport takes TransferDone (R127); it waits here until it is enabled -/
  | done
  /-- the timeout agent takes the timeout event (R213); it waits here until it is enabled -/
  | timeout
  /-- the host reads register `n` (R37) -/
  | read (n : Nat)
  /-- the host writes a word of the bitmap memory (R239, log entry 17) -/
  | loadWord (a : Nat) (w : Word)
  /-- the host writes row `j` of a glyph (R239, log entry 17) -/
  | loadRow (code : Byte) (j : Fin 13) (v : Byte)
  deriving DecidableEq, Repr

/-- What the transport does once `moves` is used up (log entry 6). -/
inductive Tail where
  /-- it never takes TransferDone again (R212): with `TIMEOUT_ENABLED` the timeout is then the only step left at a wait,
  and is taken (R131, R213) -/
  | silent
  /-- it takes TransferDone whenever no other agent can step: the lazy schedule of 95_test_vectors.md -/
  | lazy
  deriving DecidableEq, Repr

/-- The state. Fields below `trace` are the other agents' side and the model's own. -/
structure State where
  /-- the configuration latched at reset (R21, R230) -/
  cfg : Config
  /-- the bitmap memory's contents: external, read-only to the core (R52, R43); an unlisted word is 0 -/
  bmem : Cells 16
  /-- the glyph resource's contents, row `j` of `code` at `13 * code + j`: external, read-only to the core (R53, R43); an
  unlisted row is 0 -/
  glyphs : Memory
  /-- `op_code` (R23) -/
  opCode : Byte
  /-- `op_words` (R23) -/
  opWords : List Word
  /-- the engine's continuation (R24) -/
  cont : List EStep
  /-- `buf[0]` (R25); an unlisted byte has no value (R44) -/
  buf0 : Memory
  /-- `buf[1]` (R25), used in ASYNC mode only -/
  buf1 : Memory
  /-- `cursor[0]` (R26) -/
  cursor0 : Nat
  /-- `cursor[1]` (R26), used in ASYNC mode only -/
  cursor1 : Nat
  /-- `active` (R27) -/
  active : BufIx
  /-- `in_flight` (R28) -/
  inFlight : Bool
  /-- `xfer` (R29) -/
  xfer : Option (BufIx × Nat)
  /-- `stream_open` (R30) -/
  streamOpen : Bool
  /-- `win` (R31) -/
  win : Window
  /-- `faulted` (R32) -/
  faulted : Bool
  /-- `busy` (R33) -/
  busy : Bool
  /-- `status` (R34) -/
  status : Status
  /-- `result` (R35): `{R, G, B}` -/
  result : BitVec 24
  /-- the bus trace (R55), oldest event first -/
  trace : List Event
  /-- the descriptors the host has yet to submit, in order (R20, R81) -/
  host : List (List Word)
  /-- the next moves of the other agents (log entry 6) -/
  moves : List Move
  /-- what the transport does after them (log entry 6) -/
  tail : Tail
  /-- the resource cells that the host has changed during the operation under way, without repeats (R72, log entry 17) -/
  changed : List Source
  /-- the model's own record of the host's register reads: (register number, value) (R37, log entry 7) -/
  hostReads : List (Nat × BitVec 32)
  /-- the model's own counter of free draws (log entries 2 and 17) -/
  draws : Nat
  deriving DecidableEq, Repr

/-- Why a step answers no next state. -/
inductive Fault where
  /-- `step`, at a state in which the engine is stuck (R212): busy, held at a wait that no agent will release. Safe: the
  spec gives the engine no step, forever. -/
  | engineStuck
  /-- `step`, when the host has nothing to submit, the core is idle, no block is outstanding (or the core is faulted and
  the transport delivers no further `Done`), and no agent has an enabled step: the run has ended (R248). Safe. -/
  | runEnded
  /-- `step`, when all of that holds but for a block outstanding in a core that is not faulted: only the transport could
  step (R127), and this one does not. The run has not ended (R248, log entry 14). Safe. -/
  | transportSilent
  /-- every meaning, when `busy = 1`: the host has no submit step (R33, R81). Safe. -/
  | portBusy
  /-- a buffer write with `cursor + 3 > C` (R201): the bytes lie outside the buffer. No state that meets the model's
  invariant raises it. Safe. -/
  | stagingOverflow
  /-- the issue of a block with a byte that nothing has written (R44). No state that meets the model's invariant raises
  it. Safe. -/
  | unwrittenStagingByte
  deriving DecidableEq, Repr

/-- Why the machine gives an instruction no meaning. -/
inductive Refusal where
  /-- `exec`, for an instruction that has no meaning yet. Safe. -/
  | notModelled (mnemonic : String)
  /-- `step` and every meaning, under a configuration outside the ranges of R7 (R134: "a model must refuse such a
  configuration"). Safe. -/
  | illegalConfiguration
  deriving DecidableEq, Repr

namespace State

/-- Reset (R230): every piece of state at its value of R42, with the configuration `c` latched. The resources and the
other agents' side are what the host has set up at boot (R232): nothing loaded, nothing to submit, a transport that
keeps its contract (log entries 4 and 6). The latch is undefined (R23); its reset value 0 is a DESIGN CHOICE (log
entry 2). -/
def resetWith (c : Config) : State where
  cfg := c
  bmem := []
  glyphs := []
  opCode := 0
  opWords := []
  cont := []
  buf0 := []
  buf1 := []
  cursor0 := 0
  cursor1 := 0
  active := .b0
  inFlight := false
  xfer := none
  streamOpen := false
  win := ⟨0, 0, 0, 0⟩
  faulted := false
  busy := false
  status := .ok
  result := 0
  trace := []
  host := []
  moves := []
  tail := .lazy
  changed := []
  hostReads := []
  draws := 0

/-- The machine right after reset, in the configuration of log entry 1. -/
def reset : State := resetWith Config.testT0

end State

end Sys2Proof.Machine
end

