-- ==== Sys2Proof/Machine/Operands.lean ====
section
/-! DEFINITION. Memory cells, the colour conversion, and what an operation computes from its operands: windows,
footprints, glyph bits, bitmap words, pixel lists (20_memory.md R52, R53; 40_color_converter.md R101;
60_exceptions.md R206; 43_rasterizers.md R153, R157, R161, R162, R172). All geometry is in `Nat`, with no wrap (R11). -/

namespace Sys2Proof.Machine

/-- The value listed at an address. -/
def Cells.find? {w : Nat} : Cells w → Nat → Option (BitVec w)
  | [], _ => none
  | (k, v) :: m, a => if k = a then some v else Cells.find? m a

/-- Lists `v` at `a`, in place of what was listed there. -/
def Cells.put {w : Nat} : Cells w → Nat → BitVec w → Cells w
  | [], a, v => [(a, v)]
  | (k, u) :: m, a, v =>
    if a < k then (a, v) :: (k, u) :: m
    else if a = k then (a, v) :: m
    else (k, u) :: Cells.put m a v

/-- Lists nothing at `a`. -/
def Cells.drop {w : Nat} : Cells w → Nat → Cells w
  | [], _ => []
  | (k, u) :: m, a => if k = a then m else (k, u) :: Cells.drop m a

/-- The canonical form: addresses strictly rising. -/
abbrev Memory.wf {w : Nat} (m : Cells w) : Prop := List.Pairwise (fun p q => p.1 < q.1) m

/-- The canonical form of a memory whose unlisted cells read as 0 (log entry 4). -/
abbrev Memory.wfZero {w : Nat} (m : Cells w) : Prop := Memory.wf m ∧ ∀ p ∈ m, p.2 ≠ 0

/-- Reads a staging buffer: an unlisted byte has no value (log entry 3, R44). -/
def Memory.read? (m : Memory) (a : Nat) : Option Byte := Cells.find? m a

/-- Writes a byte of a staging buffer. -/
def Memory.write (m : Memory) (a : Nat) (v : Byte) : Memory := Cells.put m a v

/-- Reads an external resource: an unlisted cell is 0 (log entry 4). -/
def Cells.get {w : Nat} (m : Cells w) (a : Nat) : BitVec w := (Cells.find? m a).getD 0

/-- Loads a cell of an external resource; 0 is not listed. Only the host does this (R232, R239). -/
def Cells.load {w : Nat} (m : Cells w) (a : Nat) (v : BitVec w) : Cells w :=
  if v = 0 then Cells.drop m a else Cells.put m a v

/-- `buf[k .. k+n-1]`, or `none` when one of the bytes has no value. -/
def Memory.readBlock (m : Memory) (k : Nat) : Nat → Option (List Byte)
  | 0 => some []
  | n + 1 =>
    match Memory.read? m k, Memory.readBlock m (k + 1) n with
    | some b, some bs => some (b :: bs)
    | _, _ => none

/-- The three bytes of a DeviceColor in wire order (R58). -/
def DeviceColor.bytes (d : DeviceColor) : List Byte := [d.r, d.g, d.b]

/-- The three buffer writes of `push_pixel` (R121). -/
def Memory.writePixel (m : Memory) (k : Nat) (d : DeviceColor) : Memory :=
  Memory.write (Memory.write (Memory.write m k d.r) (k + 1) d.g) (k + 2) d.b

/-- `convert` (R101): each field to the top of its byte, the low bits 0. -/
def convertColor (c : Word) : DeviceColor where
  r := c.extractLsb' 11 5 ++ (0 : BitVec 3)
  g := c.extractLsb' 5 6 ++ (0 : BitVec 2)
  b := c.extractLsb' 0 5 ++ (0 : BitVec 3)

/-- `{R, G, B}` (R35). -/
def DeviceColor.packed (d : DeviceColor) : BitVec 24 := d.r ++ d.g ++ d.b

/-- `supported(code)` (R156). -/
def supported (c : Config) (code : Byte) : Bool :=
  Config.glyphFirst ≤ code.toNat && code.toNat ≤ c.glyphLast

/-- The key of row `j` of the glyph `code` (log entry 20). -/
def glyphKey (code : Byte) (j : Nat) : Nat := Config.glyphH * code.toNat + j

/-- `GlyphRow(code, j)` (R53). -/
def glyphRow (glyphs : Memory) (code : Byte) (j : Nat) : Byte := Cells.get glyphs (glyphKey code j)

/-- Column `i` of a glyph's row (R157): 0 when the code is not supported (R158). -/
def rowBit (c : Config) (code row : Byte) (i : Nat) : Bool :=
  if !supported c code then false
  else if c.glyphMsbLeft then row.getLsbD (7 - i)
  else row.getLsbD i

/-- `glyph_bit(code, i, j)` (R157). -/
def glyphBit (c : Config) (glyphs : Memory) (code : Byte) (i j : Nat) : Bool := rowBit c code (glyphRow glyphs code j) i

/-- The colour of a source bit (R161, R162). -/
def glyphColor (c : Config) (glyphs : Memory) (code : Byte) (fg bg : Word) (i j : Nat) : Word :=
  if glyphBit c glyphs code i j then fg else bg

/-- The status local `st` after a glyph (R161, R162): UnsupportedGlyph once a code is not supported. -/
def glyphStatus (c : Config) (codes : List Byte) : Status :=
  if codes.all (supported c) then .ok else .unsupportedGlyph

/-- `check_footprint` (R206): true when the far corner `(fx2, fy2)` is outside the panel. -/
def offPanel (c : Config) (fx2 fy2 : Nat) : Bool := c.panelW ≤ fx2 || c.panelH ≤ fy2

/-- A bound as it is put on the bus (R11). -/
def bound (n : Nat) : Word := BitVec.ofNat 16 n

/-- The normalised window of `set_window` (R110, R112). -/
def normWindow (x1 y1 x2 y2 : Nat) : Window :=
  ⟨bound (min x1 x2), bound (min y1 y2), bound (max x1 x2), bound (max y1 y2)⟩

/-- `fill_rectangle(x1, y1, x2, y2, _)` (R153), each pixel an `a`: rows outer, columns inner. -/
def fillOf {α : Type} (x1 y1 x2 y2 : Nat) (a : α) : StreamOf α where
  win := normWindow x1 y1 x2 y2
  pixels :=
    (List.range (max y1 y2 - min y1 y2 + 1)).flatMap fun _ => (List.range (max x1 x2 - min x1 x2 + 1)).map fun _ => a

/-- Something for each source bit of a glyph, row-major (R161, R162). -/
def glyphCells {α : Type} (f : Nat → Nat → α) : List α :=
  (List.range Config.glyphH).flatMap fun j => (List.range Config.glyphW).map fun i => f i j

/-- `draw_fast_glyph(x, y, ..)` (R162), with `f i j` for source bit `(i, j)`. -/
def fastGlyphOf {α : Type} (x y : Nat) (f : Nat → Nat → α) : StreamOf α :=
  ⟨normWindow x y (x + 7) (y + 12), glyphCells f⟩

/-- `draw_glyph(x, y, .., s, ..)` (R161): one `s × s` fill for each source bit, row-major. -/
def glyphOf {α : Type} (x y s : Nat) (f : Nat → Nat → α) : List (StreamOf α) :=
  glyphCells fun i j => fillOf (x + i * s) (y + j * s) (x + i * s + s - 1) (y + j * s + s - 1) (f i j)

/-- The glyphs of DRAW_STRING (R164), from character number `k` on. -/
def stringOf {α : Type} (x y s : Nat) (f : Byte → Nat → Nat → α) : Nat → List Byte → List (StreamOf α)
  | _, [] => []
  | k, ch :: chs => glyphOf (x + Config.glyphAdvance * s * k) y s (f ch) ++ stringOf x y s f (k + 1) chs

/-- The glyphs of DRAW_FAST_STRING (R165), from character number `k` on. -/
def fastStringOf {α : Type} (x y : Nat) (f : Byte → Nat → Nat → α) : Nat → List Byte → List (StreamOf α)
  | _, [] => []
  | k, ch :: chs => fastGlyphOf (x + Config.glyphAdvance * k) y (f ch) :: fastStringOf x y f (k + 1) chs

/-- The stream of DRAW_BITMAP (R172), with `f a` for the word at address `a`: each source row `s` times and, within a row,
each source pixel `s` times; the end row as the source gives it (R174). -/
def bitmapOf {α : Type} (x y base wd ht s : Nat) (f : Nat → α) : StreamOf α where
  win := normWindow x y (x + wd * s - 1) (y + ht * s)
  pixels :=
    (List.range ht).flatMap fun r => (List.range s).flatMap fun _ => (List.range wd).flatMap fun c =>
      (List.range s).map fun _ => f (base + 2 + r * wd + c)

/-- The pixel of source bit `(i, j)`. -/
def glyphPixel (cfg : Config) (glyphs : Memory) (fg bg : Word) (code : Byte) (i j : Nat) : DeviceColor :=
  convertColor (glyphColor cfg glyphs code fg bg i j)

/-! What the drawing procedures put on the bus while the resources are stable (R72). -/

/-- `fill_rectangle(x1, y1, x2, y2, c)` (R153). -/
def fillStream (x1 y1 x2 y2 : Nat) (c : Word) : Stream := fillOf x1 y1 x2 y2 (convertColor c)

/-- `draw_fast_glyph(x, y, code, fg, bg, st)` (R162). -/
def fastGlyphStream (cfg : Config) (glyphs : Memory) (x y : Nat) (code : Byte) (fg bg : Word) : Stream :=
  fastGlyphOf x y (glyphPixel cfg glyphs fg bg code)

/-- `draw_glyph(x, y, code, fg, bg, s, st)` (R161). -/
def glyphStreams (cfg : Config) (glyphs : Memory) (x y : Nat) (code : Byte) (fg bg : Word) (s : Nat) : List Stream :=
  glyphOf x y s (glyphPixel cfg glyphs fg bg code)

/-- The glyphs of DRAW_STRING (R164). -/
def stringStreams (cfg : Config) (glyphs : Memory) (x y : Nat) (fg bg : Word) (s : Nat) : Nat → List Byte → List Stream :=
  stringOf x y s (glyphPixel cfg glyphs fg bg)

/-- The glyphs of DRAW_FAST_STRING (R165). -/
def fastStringStreams (cfg : Config) (glyphs : Memory) (x y : Nat) (fg bg : Word) : Nat → List Byte → List Stream :=
  fastStringOf x y (glyphPixel cfg glyphs fg bg)

/-- `MemRead(a, 2)` (R52). -/
def memRead (bmem : Cells 16) (a : Nat) : Word := Cells.get bmem a

/-- The stream of DRAW_BITMAP (R172). -/
def bitmapStream (bmem : Cells 16) (x y base wd ht s : Nat) : Stream :=
  bitmapOf x y base wd ht s fun a => convertColor (memRead bmem a)

/-- The PixelColor of a pixel while the resources are stable. -/
def Ink.look (c : Config) (bmem : Cells 16) (glyphs : Memory) (p : Ink) : Word :=
  match p with
  | .color w => w
  | .word a => memRead bmem a
  | .bit code i j fg bg => glyphColor c glyphs code fg bg i j

/-- What a plan puts on the bus while the resources are stable. -/
def StreamOf.look (c : Config) (bmem : Cells 16) (glyphs : Memory) (p : Plan) : Stream :=
  ⟨p.win, p.pixels.map fun k => convertColor (k.look c bmem glyphs)⟩

/-- The ink of source bit `(i, j)`. -/
def glyphInk (fg bg : Word) (code : Byte) (i j : Nat) : Ink := .bit code i j fg bg

/-- The 11 bytes and the scope event of R111. -/
def windowEvents (c : Config) (w : Window) : List Event :=
  [.cmd c.cmdHRange, .data (hi8 w.x1), .data (lo8 w.x1), .data (hi8 w.x2), .data (lo8 w.x2),
   .cmd c.cmdVRange, .data (hi8 w.y1), .data (lo8 w.y1), .data (hi8 w.y2), .data (lo8 w.y2),
   .cmd c.cmdMemWrite, .scopeAcquire]

/-- `set_window` (R110), its bounds already normalised. `win` is written before the scope is acquired. -/
def windowSteps (c : Config) (w : Window) : List EStep :=
  [.closeStream,
   .emit (.cmd c.cmdHRange),
   .emit (.data (hi8 w.x1)), .emit (.data (lo8 w.x1)), .emit (.data (hi8 w.x2)), .emit (.data (lo8 w.x2)),
   .emit (.cmd c.cmdVRange),
   .emit (.data (hi8 w.y1)), .emit (.data (lo8 w.y1)), .emit (.data (hi8 w.y2)), .emit (.data (lo8 w.y2)),
   .emit (.cmd c.cmdMemWrite),
   .writeWin w, .emit .scopeAcquire, .openStream]

/-- `push_pixel` (R121). -/
def pushSteps (p : Ink) : List EStep := [.store p, .advance, .flushIfFull]

/-- `flush` (R123, R124). -/
def flushSteps (m : Mode) : List EStep :=
  match m with
  | .blocking => [.issue, .waitIdle, .clearCursor]
  | .async => [.waitIdle, .issue, .clearCursor, .flipActive]

/-- `finish` (R125). -/
def finishSteps : List EStep := [.flushIfAny, .waitIdle, .emit .scopeRelease, .shutStream]

/-- A whole stream: `set_window`, the pushes, `finish`. -/
def streamSteps (c : Config) (st : Plan) : List EStep :=
  windowSteps c st.win ++ st.pixels.flatMap pushSteps ++ finishSteps

/-- The streams of a drawing operation, in order, and its normal end. -/
def drawSteps (c : Config) (sts : List Plan) (st : Status) : List EStep :=
  sts.flatMap (streamSteps c) ++ [.finishOp st]

/-- `if bad then raise Status(code)`, then the rest of the operation. -/
def checked (bad : Bool) (code : Status) (rest : List EStep) : List EStep :=
  .raiseIf bad code :: if bad then [] else rest

/-- DRAW_BITMAP from the check of its size on (R172), the header's words being `wd` and `ht`. -/
def bitmapSteps (c : Config) (x y sc : Word) (base : BitVec 32) (wd ht : Word) : List EStep :=
  if wd.toNat = 0 ∨ ht.toNat = 0 then [.finishOp .ok]
  else
    checked (offPanel c (x.toNat + wd.toNat * sc.toNat - 1) (y.toNat + ht.toNat * sc.toNat - 1)) .invalidWindow
      (checked (c.bmemWords < base.toNat + 2 + wd.toNat * ht.toNat) .memoryFault
        (drawSteps c [bitmapOf x.toNat y.toNat base.toNat wd.toNat ht.toNat sc.toNat .word] .ok))

end Sys2Proof.Machine
end

