-- ==== Sys2Proof/Machine/Flags.lean ====
section
/-! DEFINITION. The status codes and the register view of the core (60_exceptions.md R200; 10_state.md R36, R37): what
the host reads. The core has no condition codes (R38). -/

namespace Sys2Proof.Machine

/-- The numbers of R200. -/
def Status.code (st : Status) : BitVec 4 :=
  match st with
  | .ok => 0
  | .invalidWindow => 1
  | .unsupportedGlyph => 2
  | .busTimeout => 3
  | .illegalOperation => 4
  | .memoryFault => 5

/-- CONFIG.MODE (R36). -/
def modeBit (m : Mode) : Bool :=
  match m with
  | .blocking => false
  | .async => true

/-- ENGINE.ACTIVE (R36). -/
def BufIx.bit (i : BufIx) : Bool :=
  match i with
  | .b0 => false
  | .b1 => true

/-- Register 0, STATUS. -/
def State.regStatus (s : State) : BitVec 32 := s.status.code.setWidth 32

/-- Register 1, RESULT. -/
def State.regResult (s : State) : BitVec 32 := s.result.setWidth 32

/-- Register 2, CONFIG: CAPACITY [15:0], MODE [16], TIMEOUT [17]. -/
def State.regConfig (s : State) : BitVec 32 :=
  (BitVec.ofBool s.cfg.timeoutEnabled ++ BitVec.ofBool (modeBit s.cfg.mode) ++ BitVec.ofNat 16 s.cfg.capacity).setWidth 32

/-- Register 3, ENGINE: BUSY [0], IN_FLIGHT [1], ACTIVE [2], STREAM_OPEN [3], FAULTED [4]. -/
def State.regEngine (s : State) : BitVec 32 :=
  (BitVec.ofBool s.faulted ++ BitVec.ofBool s.streamOpen ++ BitVec.ofBool s.active.bit
    ++ BitVec.ofBool s.inFlight ++ BitVec.ofBool s.busy).setWidth 32

/-- Register 4, CURSOR0. -/
def State.regCursor0 (s : State) : BitVec 32 := (BitVec.ofNat 16 s.cursor0).setWidth 32

/-- Register 5, CURSOR1: reads 0 in BLOCKING mode. -/
def State.regCursor1 (s : State) : BitVec 32 :=
  match s.cfg.mode with
  | .blocking => 0
  | .async => (BitVec.ofNat 16 s.cursor1).setWidth 32

/-- Register 6, WIN_X: X1 [15:0], X2 [31:16]. -/
def State.regWinX (s : State) : BitVec 32 := s.win.x2 ++ s.win.x1

/-- Register 7, WIN_Y: Y1 [15:0], Y2 [31:16]. -/
def State.regWinY (s : State) : BitVec 32 := s.win.y2 ++ s.win.y1

/-- Register 8, PANEL: WIDTH [15:0], HEIGHT [31:16]. -/
def State.regPanel (s : State) : BitVec 32 := BitVec.ofNat 16 s.cfg.panelH ++ BitVec.ofNat 16 s.cfg.panelW

/-- The register view (R36, R37): the value the host reads; a number above 8 reads 0. -/
def State.readReg (s : State) (n : Nat) : BitVec 32 :=
  match n with
  | 0 => s.regStatus
  | 1 => s.regResult
  | 2 => s.regConfig
  | 3 => s.regEngine
  | 4 => s.regCursor0
  | 5 => s.regCursor1
  | 6 => s.regWinX
  | 7 => s.regWinY
  | 8 => s.regPanel
  | _ => 0

end Sys2Proof.Machine
end

