-- ==== Sys2Proof/Machine/Ops.lean ====
section
/-! DEFINITION. The operations every meaning shares: the staging registers, the one way an operation ends (00_scope.md
R14), the abort (60_exceptions.md R207), the engine step, the steps of the other agents (10_state.md R20), and the run
of one operation from its acceptance to its end (30_encoding.md R81). -/

namespace Sys2Proof.Machine

/-- `1 - a` (R124). -/
def BufIx.other (i : BufIx) : BufIx :=
  match i with
  | .b0 => .b1
  | .b1 => .b0

namespace State

/-- `buf[i]` (R25). -/
def buf (s : State) (i : BufIx) : Memory :=
  match i with
  | .b0 => s.buf0
  | .b1 => s.buf1

/-- `cursor[i]` (R26). -/
def cursor (s : State) (i : BufIx) : Nat :=
  match i with
  | .b0 => s.cursor0
  | .b1 => s.cursor1

/-- `buf[i] <- m` -/
def setBuf (s : State) (i : BufIx) (m : Memory) : State :=
  match i with
  | .b0 => { s with buf0 := m }
  | .b1 => { s with buf1 := m }

/-- `cursor[i] <- n` -/
def setCursor (s : State) (i : BufIx) (n : Nat) : State :=
  match i with
  | .b0 => { s with cursor0 := n }
  | .b1 => { s with cursor1 := n }

/-- The buffer a `flush` hands over: `buf[0]` in BLOCKING mode (R123), `buf[active]` in ASYNC mode (R124). -/
def flushIx (s : State) : BufIx :=
  match s.cfg.mode with
  | .blocking => .b0
  | .async => s.active

/-- `emit e` (R12, R55): appends to the trace. -/
def emit (s : State) (e : Event) : State := { s with trace := s.trace ++ [e] }

/-- What a read of the bitmap memory returns (R52): any value, once the host has changed the word during the operation
(R72). -/
def readWord (s : State) (a : Nat) : Word :=
  if .word a ∈ s.changed then Config.freeWord s.draws else memRead s.bmem a

/-- What a read of the glyph resource returns (R53): any value, once the host has changed the row during the operation
(R72). -/
def readRow (s : State) (code : Byte) (j : Nat) : Byte :=
  if .row code j ∈ s.changed then Config.freeRow s.draws else glyphRow s.glyphs code j

/-- The counter of free draws after a read of `src`. -/
def drawsAfter (s : State) (src : Source) : Nat := if src ∈ s.changed then s.draws + 1 else s.draws

/-- The PixelColor of a pixel as it is pushed. -/
def ink (s : State) (p : Ink) : Word :=
  match p with
  | .color c => c
  | .word a => s.readWord a
  | .bit code i j fg bg => if rowBit s.cfg code (s.readRow code j) i then fg else bg

/-- The counter of free draws after that. A glyph's row is read for a supported code only (R158). -/
def inkDraws (s : State) (p : Ink) : Nat :=
  match p with
  | .color _ => s.draws
  | .word a => s.drawsAfter (.word a)
  | .bit code _ j _ _ => if supported s.cfg code then s.drawsAfter (.row code j) else s.draws

/-- The host changes a cell of a resource: during an operation the cell is no longer stable, up to the operation's end
(R72, log entry 17). -/
def change (s : State) (src : Source) : State :=
  { s with changed := if s.busy then s.changed.insert src else s.changed }

/-- The host writes a word of the bitmap memory (R239). -/
def hostWord (s : State) (a : Nat) (w : Word) : State := { s.change (.word a) with bmem := Cells.load s.bmem a w }

/-- The host writes a row of a glyph (R239). -/
def hostRow (s : State) (code : Byte) (j : Fin 13) (v : Byte) : State :=
  { s.change (.row code j) with glyphs := Cells.load s.glyphs (glyphKey code j) v }

/-- The end of an operation: `status <- st ; busy <- 0`. The latch is undefined from here on (R23): a free value. -/
def endOp (s : State) (st : Status) : State :=
  { s with
    status := st, busy := false, cont := [], changed := []
    opCode := Config.freeOpCode s.draws, opWords := Config.freeOpWords s.draws, draws := s.draws + 1 }

/-- `raise Status(code)` (R14): the one way an operation ends with an error. It saves nothing but the code (R202), and
no later step of the operation runs. -/
def raise (s : State) (code : Status) : State := s.endOp code

/-- The abort steps (R207). -/
def abort (s : State) : State :=
  { (if s.streamOpen then { s.emit .scopeRelease with streamOpen := false } else s) with faulted := true }

/-- The timeout event (R213): abort, then BusTimeout. -/
def timeoutEvent (s : State) : State := s.abort.raise .busTimeout

/-- TransferDone (R127). -/
def transferDone (s : State) : State := { s.emit .done with inFlight := false, xfer := none }

/-- The host reads register `n` (R37): nothing changes but the model's record of what the host saw. -/
def hostRead (s : State) (n : Nat) : State := { s with hostReads := s.hostReads ++ [(n, s.readReg n)] }

/-- The issue step of `flush` (R123, R124): block, `in_flight` and `xfer` in one step (R238); the payload is the
snapshot of R67. -/
def issueBlock (s : State) (bytes : List Byte) : State :=
  { s.emit (.block s.cfg.mode bytes) with inFlight := true, xfer := some (s.flushIx, s.cursor s.flushIx) }

/-- The engine is at a `wait until in_flight = 0` that does not let it pass (R13). -/
def held (s : State) : Bool :=
  s.busy && s.inFlight &&
    match s.cont with
    | .waitIdle :: _ => true
    | _ => false

/-- Neither the engine nor the host's submit has a step: the engine is held, or it is idle and the host has no
descriptor (R248). -/
def coreBlocked (s : State) : Bool := if s.busy then s.held else s.host.isEmpty

/-- Drops one leading `stay`: the step it stands for is being taken. -/
def dropStay (s : State) : State :=
  match s.moves with
  | .stay :: ms => { s with moves := ms }
  | _ => s

/-- The step of an agent other than the engine and the host's submit, when it is next in line and enabled: TransferDone
exactly when `in_flight = 1` (R127, R128), the timeout exactly when the engine is held and `TIMEOUT_ENABLED` (R213), a
register read (R37) and a write of a resource (R239) always. Once the listed moves are used up, a step is taken when it is
the only one enabled: the lazy transport's TransferDone, or beside a silent transport the timeout. -/
def envMove (s : State) : Option State :=
  match s.moves with
  | .done :: ms => if s.inFlight then some (transferDone { s with moves := ms }) else none
  | .timeout :: ms =>
    if s.cfg.timeoutEnabled then
      if s.held then some (timeoutEvent { s with moves := ms }) else none
    else some { s with moves := ms }
  | .read n :: ms => some (hostRead { s with moves := ms } n)
  | .loadWord a w :: ms => some (hostWord { s with moves := ms } a w)
  | .loadRow code j v :: ms => some (hostRow { s with moves := ms } code j v)
  | .stay :: ms => if s.coreBlocked then some { s with moves := ms } else none
  | [] =>
    match s.tail with
    | .lazy => if s.coreBlocked && s.inFlight then some s.transferDone else none
    | .silent => if s.cfg.timeoutEnabled && s.held then some s.timeoutEvent else none

end State

/-- What one step of one agent of a busy machine does. -/
inductive Tick where
  | moved (s : State)
  | blocked
  | fault (r : Fault)
  deriving DecidableEq, Repr

/-- The three writes of `push_pixel` (R121); past the capacity there is no byte to write (R201). -/
def storePixel (s : State) (d : DeviceColor) : Tick :=
  if s.cursor s.active + 3 ≤ s.cfg.capacity then
    .moved (s.setBuf s.active (Memory.writePixel (s.buf s.active) (s.cursor s.active) d))
  else .fault .stagingOverflow

/-- The issue step: it needs every byte of the block (R44). -/
def issueStep (s : State) : Tick :=
  match Memory.readBlock (s.buf s.flushIx) 0 (s.cursor s.flushIx) with
  | some bytes => .moved (s.issueBlock bytes)
  | none => .fault .unwrittenStagingByte

/-- The header of a bitmap is read, width then height, and the rest of DRAW_BITMAP goes in line (R172). -/
def State.readHeader (s : State) (x y sc : Word) (base : BitVec 32) : State :=
  let s1 := { s with draws := s.drawsAfter (.word base.toNat) }
  { s1 with
    draws := s1.drawsAfter (.word (base.toNat + 1))
    cont := bitmapSteps s.cfg x y sc base (s.readWord base.toNat) (s1.readWord (base.toNat + 1)) ++ s.cont }

/-- One engine step `e`, at a state whose continuation is what follows `e`. A call runs its body in line (R15). -/
def engineDo (e : EStep) (s : State) : Tick :=
  match e with
  | .faultCheck => .moved (if s.faulted then s.raise .busTimeout else s)
  | .raiseIf bad code => .moved (if bad then s.raise code else s)
  | .requireStream => .moved (if s.streamOpen then s else s.raise .illegalOperation)
  | .closeStream => .moved (if s.streamOpen then { s with cont := finishSteps ++ s.cont } else s)
  | .emit ev => .moved (s.emit ev)
  | .writeWin w => .moved { s with win := w }
  | .openStream => .moved { s with streamOpen := true }
  | .store p => storePixel { s with draws := s.inkDraws p } (convertColor (s.ink p))
  | .readHeader x y sc base => .moved (s.readHeader x y sc base)
  | .advance => .moved (s.setCursor s.active (s.cursor s.active + 3))
  | .flushIfFull =>
    .moved (if s.cfg.capacity < s.cursor s.active + 3 then { s with cont := flushSteps s.cfg.mode ++ s.cont } else s)
  | .flushIfAny =>
    .moved (if 0 < s.cursor s.active then { s with cont := flushSteps s.cfg.mode ++ s.cont } else s)
  | .waitIdle => if s.inFlight then .blocked else .moved s
  | .issue => issueStep s
  | .clearCursor => .moved (s.setCursor s.flushIx 0)
  | .flipActive => .moved { s with active := s.active.other }
  | .shutStream => .moved { s with streamOpen := false }
  | .writeResult v => .moved { s with result := v }
  | .finishOp st => .moved (s.endOp st)

/-- The engine's step: the first of its remaining steps. -/
def engineStep (s : State) : Tick :=
  match s.cont with
  | [] => .blocked
  | e :: k => engineDo e { s with cont := k }

/-- One step of a busy machine: the agent next in line if it is enabled, else the engine (R20, R209). -/
def tick (s : State) : Tick :=
  match s.envMove with
  | some t => .moved t
  | none => engineStep s.dropStay

/-- A bound on the engine steps an element of a continuation stands for. -/
def EStep.cost (e : EStep) : Nat :=
  match e with
  | .flushIfFull | .flushIfAny => 5
  | .closeStream => 9
  | .readHeader _ _ _ _ => 2 ^ 67
  | .faultCheck | .raiseIf _ _ | .requireStream | .emit _ | .writeWin _ | .openStream | .store _ | .advance
  | .waitIdle | .issue | .clearCursor | .flipActive | .shutStream | .writeResult _ | .finishOp _ => 1

/-- The bound for a continuation. -/
def contCost : List EStep → Nat
  | [] => 0
  | e :: k => e.cost + contCost k

/-- A number that every step of a busy machine lowers. -/
def State.measure (s : State) : Nat :=
  2 * contCost s.cont + s.moves.length + s.inFlight.toNat

/-- Steps of the busy machine, until the operation has ended or no agent has a step: then the engine is stuck, and the
state stays as it is, `busy = 1` (R212). -/
def runFor : Nat → State → Host.Outcome State Fault Refusal
  | 0, s => .next s
  | n + 1, s =>
    if s.busy then
      match tick s with
      | .moved t => runFor n t
      | .blocked => .next s
      | .fault r => .fault r
    else .next s

/-- The run of the operation under way. `measure` bounds its steps. -/
def runOp (s : State) : Host.Outcome State Fault Refusal := runFor (s.measure + 1) s

/-- The latch takes a descriptor's opcode and operand words (R81, R23). -/
def State.latch (s : State) (ws : List Word) : State :=
  match ws with
  | [] => s
  | h :: rest => { s with opCode := lo8 h, opWords := rest }

/-- The state in which an accepted operation starts (R81, R92): `busy <- 1`, the latch is written, the operation's steps
are to come. -/
def State.accept (s : State) (i : Instr) (steps : List EStep) : State :=
  { s.latch (encode i) with busy := true, cont := steps }

/-- Acceptance of a decoded operation: the operation's rule runs to its end. A configuration outside R7 is refused (R134),
and a busy core takes no descriptor (R33). -/
def operate (i : Instr) (steps : List EStep) (s : State) : Host.Outcome State Fault Refusal :=
  if s.cfg.Legal then
    if s.busy then .fault .portBusy
    else runOp (s.accept i steps)
  else .refused .illegalConfiguration

/-- Acceptance of a descriptor that decodes to no operation (R81, R91): it ends with IllegalOperation. -/
def rejectDescriptor (ws : List Word) (s : State) : State :=
  ({ s.latch ws with busy := true }).raise .illegalOperation

/-- Reset taken in any state (R230, R231): the configuration is latched, everything of the core's is at its reset
value, the trace is empty. The resources and the other agents' side are outside the core and stay. -/
def State.takeReset (c : Config) (s : State) : State :=
  { State.resetWith c with
    bmem := s.bmem, glyphs := s.glyphs, host := s.host, moves := s.moves, tail := s.tail,
    hostReads := s.hostReads, draws := s.draws }

/-- The host loads words of the bitmap memory at boot (R232 item 3). -/
def State.loadBitmap (s : State) (a : Nat) : List Word → State
  | [] => s
  | w :: ws => State.loadBitmap { s with bmem := Cells.load s.bmem a w } (a + 1) ws

/-- The host loads the rows of a glyph at boot (R232 item 3), from row `j` on. -/
def State.loadGlyph (s : State) (code : Byte) (j : Nat) : List Byte → State
  | [] => s
  | r :: rs =>
    State.loadGlyph { s with glyphs := Cells.load s.glyphs (glyphKey code j) r } code (j + 1) rs

end Sys2Proof.Machine
end

