-- ==== Sys2Proof/Machine/Color.lean ====
section
/-! DEFINITION. The Color Converter's operation (40_color_converter.md). -/

namespace Sys2Proof.Machine

/-- CONVERT (R102). No fault check: it completes even while `faulted = 1` (R214). -/
def execConvert (c : Word) (s : State) : Host.Outcome State Fault Refusal :=
  operate (.convert c) [.writeResult (convertColor c).packed, .finishOp .ok] s

end Sys2Proof.Machine
end

