-- ==== Sys2Proof/Machine/Raster.lean ====
section
/-! DEFINITION. The rasterizers' operations (43_rasterizers.md). Each runs the fault check (R214), its own checks in
the order of its pseudocode (R208), then its streams. -/

namespace Sys2Proof.Machine

/-- DRAW_PIXEL (R150), with the window of R151. -/
def execDrawPixel (x y c : Word) (s : State) : Host.Outcome State Fault Refusal :=
  operate (.drawPixel x y c)
    (.faultCheck ::
      checked (offPanel s.cfg x.toNat y.toNat) .invalidWindow
        (drawSteps s.cfg [⟨normWindow x.toNat y.toNat (x.toNat + 1) (y.toNat + 1), [.color c]⟩] .ok)) s

/-- FILL_RECT (R152). -/
def execFillRect (x1 y1 x2 y2 c : Word) (s : State) : Host.Outcome State Fault Refusal :=
  operate (.fillRect x1 y1 x2 y2 c)
    (.faultCheck ::
      checked (offPanel s.cfg (max x1.toNat x2.toNat) (max y1.toNat y2.toNat)) .invalidWindow
        (drawSteps s.cfg [fillOf x1.toNat y1.toNat x2.toNat y2.toNat (.color c)] .ok)) s

/-- DRAW_FAST_GLYPH (R159). -/
def execDrawFastGlyph (x y : Word) (ch : Byte) (fg bg : Word) (s : State) : Host.Outcome State Fault Refusal :=
  operate (.drawFastGlyph x y ch fg bg)
    (.faultCheck ::
      checked (offPanel s.cfg (x.toNat + 7) (y.toNat + 12)) .invalidWindow
        (drawSteps s.cfg [fastGlyphOf x.toNat y.toNat (glyphInk fg bg ch)] (glyphStatus s.cfg [ch]))) s

/-- DRAW_GLYPH (R160). -/
def execDrawGlyph (x y : Word) (ch : Byte) (fg bg sc : Word) (s : State) : Host.Outcome State Fault Refusal :=
  operate (.drawGlyph x y ch fg bg sc)
    (.faultCheck ::
      checked (sc.toNat == 0) .invalidWindow
        (checked (offPanel s.cfg (x.toNat + 8 * sc.toNat - 1) (y.toNat + 13 * sc.toNat - 1)) .invalidWindow
          (drawSteps s.cfg (glyphOf x.toNat y.toNat sc.toNat (glyphInk fg bg ch))
            (glyphStatus s.cfg [ch])))) s

/-- DRAW_STRING (R164). An empty string ends OK after the scale check (R208). -/
def execDrawString (x y fg bg sc : Word) (chs : List Byte) (s : State) : Host.Outcome State Fault Refusal :=
  operate (.drawString x y fg bg sc chs)
    (.faultCheck ::
      checked (sc.toNat == 0) .invalidWindow
        (if chs.length = 0 then [.finishOp .ok]
        else
          checked (offPanel s.cfg (x.toNat + 9 * sc.toNat * (chs.length - 1) + 8 * sc.toNat - 1)
              (y.toNat + 13 * sc.toNat - 1)) .invalidWindow
            (drawSteps s.cfg (stringOf x.toNat y.toNat sc.toNat (glyphInk fg bg) 0 chs)
              (glyphStatus s.cfg chs)))) s

/-- DRAW_FAST_STRING (R165). -/
def execDrawFastString (x y fg bg : Word) (chs : List Byte) (s : State) : Host.Outcome State Fault Refusal :=
  operate (.drawFastString x y fg bg chs)
    (.faultCheck ::
      if chs.length = 0 then [.finishOp .ok]
      else
        checked (offPanel s.cfg (x.toNat + 9 * (chs.length - 1) + 7) (y.toNat + 12)) .invalidWindow
          (drawSteps s.cfg (fastStringOf x.toNat y.toNat (glyphInk fg bg) 0 chs)
            (glyphStatus s.cfg chs))) s

/-- DRAW_BITMAP (R172), with the checks in the order of R171 and R172 (D44). The header is read by a step of its own. -/
def execDrawBitmap (x y sc : Word) (base : BitVec 32) (s : State) : Host.Outcome State Fault Refusal :=
  operate (.drawBitmap x y sc base)
    (.faultCheck ::
      checked (sc.toNat == 0) .invalidWindow
        (checked (s.cfg.bmemWords ≤ base.toNat + 1) .memoryFault [.readHeader x y sc base])) s

end Sys2Proof.Machine
end

