-- ==== Sys2Proof/Machine/Staging.lean ====
section
/-! DEFINITION. The Staging Buffer Manager's operations (42_staging_manager.md). -/

namespace Sys2Proof.Machine

/-- PUSH_PIXEL (R132). -/
def execPushPixel (c : Word) (s : State) : Host.Outcome State Fault Refusal :=
  operate (.pushPixel c)
    (.faultCheck :: .requireStream :: (pushSteps (.color c) ++ [.finishOp .ok])) s

/-- FINISH (R133). -/
def execFinish (s : State) : Host.Outcome State Fault Refusal :=
  operate .finish [.faultCheck, .closeStream, .finishOp .ok] s

end Sys2Proof.Machine
end

