-- ==== Sys2Proof/Machine/WindowSequencer.lean ====
section
/-! DEFINITION. The Window Addressing sequencer's operation (41_window_sequencer.md). -/

namespace Sys2Proof.Machine

/-- SET_WINDOW (R113). -/
def execSetWindow (x1 y1 x2 y2 : Word) (s : State) : Host.Outcome State Fault Refusal :=
  operate (.setWindow x1 y1 x2 y2)
    (.faultCheck ::
      checked (offPanel s.cfg (max x1.toNat x2.toNat) (max y1.toNat y2.toNat)) .invalidWindow
        (windowSteps s.cfg (normWindow x1.toNat y1.toNat x2.toNat y2.toNat) ++ [.finishOp .ok])) s

end Sys2Proof.Machine
end

