-- ==== Sys2Proof/Machine/Dispatch.lean ====
section
/-! DEFINITION. The meaning of each operation, one arm per constructor of `Instr` (30_encoding.md R92). -/

namespace Sys2Proof.Machine

def exec (i : Instr) (s : State) : Host.Outcome State Fault Refusal :=
  match i with
  | .drawPixel x y c => Sys2Proof.Machine.execDrawPixel x y c s
  | .fillRect x1 y1 x2 y2 c => Sys2Proof.Machine.execFillRect x1 y1 x2 y2 c s
  | .drawGlyph x y ch fg bg sc => Sys2Proof.Machine.execDrawGlyph x y ch fg bg sc s
  | .drawFastGlyph x y ch fg bg => Sys2Proof.Machine.execDrawFastGlyph x y ch fg bg s
  | .drawString x y fg bg sc chs => Sys2Proof.Machine.execDrawString x y fg bg sc chs s
  | .drawFastString x y fg bg chs => Sys2Proof.Machine.execDrawFastString x y fg bg chs s
  | .drawBitmap x y sc base => Sys2Proof.Machine.execDrawBitmap x y sc base s
  | .convert c => Sys2Proof.Machine.execConvert c s
  | .setWindow x1 y1 x2 y2 => Sys2Proof.Machine.execSetWindow x1 y1 x2 y2 s
  | .pushPixel c => Sys2Proof.Machine.execPushPixel c s
  | .finish => Sys2Proof.Machine.execFinish s

end Sys2Proof.Machine
end

