-- ==== Sys2Proof/Machine/Step.lean ====
section
/-! DEFINITION. One step of the machine (10_state.md R20; 70_reset_and_hazards.md R248). -/

namespace Sys2Proof.Machine

/-- The host's submit step (R81): the descriptor is decoded, and its operation runs. -/
def submit (ws : List Word) (s : State) : Host.Outcome State Fault Refusal :=
  match decode ws with
  | .ok i => exec i s
  | .error _ => .next (rejectDescriptor ws s)

/-- A busy machine at rest goes on with the operation under way when some agent has a step; else the engine is stuck
(R212). -/
def resume (s : State) : Host.Outcome State Fault Refusal :=
  match tick s with
  | .moved t => runOp t
  | .blocked => .fault .engineStuck
  | .fault r => .fault r

/-- An idle machine: the agent next in line takes its step if it is enabled; else the host submits its next descriptor;
else a listed move that nothing can enable any more is passed over; else no agent has a step, and the run has ended,
unless the transport still owes a `Done` (R248). -/
def idleStep (s : State) : Host.Outcome State Fault Refusal :=
  match s.envMove with
  | some t => .next t
  | none =>
    match s.host with
    | [] =>
      match s.moves with
      | _ :: ms => .next { s with moves := ms }
      | [] => if s.inFlight && !s.faulted then .fault .transportSilent else .fault .runEnded
    | ws :: rest => submit ws { s.dropStay with host := rest }

def step (s : State) : Host.Outcome State Fault Refusal :=
  if s.cfg.Legal then
    if s.busy then resume s else idleStep s
  else .refused .illegalConfiguration

/-- `s` with the descriptor of those bits next in the host's queue, the core idle, and the host next to move (log
entry 8). -/
def State.withFetchWord (s : State) (nbits w : Nat) : State :=
  { s with
    busy := false, cont := [], changed := [], moves := .stay :: s.moves, host := tableWords nbits w :: s.host }

end Sys2Proof.Machine
end

