-- ==== Sys2Proof/Machine/Receiver.lean ====
section
/-! DEFINITION. The reference receiver (20_memory.md R60): how the display controller reads the bus trace. It is no part
of the core; claims about panel contents are stated with it. What R60 gives no meaning is recorded and never undone
(log entry 15). -/

namespace Sys2Proof.Machine

/-- What the next data byte is for. -/
inductive Expect where
  /-- no command has been given -/
  | nothing
  /-- the bytes of the horizontal range so far -/
  | columns (bytes : List Byte)
  /-- the bytes of the vertical range so far -/
  | rows (bytes : List Byte)
  /-- pixel data: the bytes of the current group so far (the byte phase) -/
  | pixels (bytes : List Byte)
  deriving DecidableEq, Repr

/-- The receiver's state (R60). The panel map `P` is a list, the last pixel written first. -/
structure Receiver where
  x1 : Nat
  y1 : Nat
  x2 : Nat
  y2 : Nat
  cx : Nat
  cy : Nat
  expect : Expect
  panel : List ((Nat × Nat) × DeviceColor)
  /-- a case happened to which R60 gives no meaning -/
  meaningless : Bool
  deriving DecidableEq, Repr

/-- A receiver that has seen nothing. R60 gives it no initial window and no write position; that both are 0 here, so that a
memory-write command before any range command starts at `(0, 0)` in a window of one cell, is the model's choice (log
entry 15). -/
def Receiver.start : Receiver := ⟨0, 0, 0, 0, 0, 0, .nothing, [], false⟩

/-- `{d0, d1}` (R60). -/
def pairOf (d0 d1 : Byte) : Nat := (d0 ++ d1 : Word).toNat

/-- One pixel: written at `(cx, cy)`, then the position advances. Past the window's last row, or in a window whose end is
beyond the panel, R60 gives no meaning. -/
def Receiver.pixel (c : Config) (r : Receiver) (d : DeviceColor) : Receiver :=
  if r.cy ≤ r.y2 ∧ r.x2 < c.panelW ∧ r.y2 < c.panelH then
    let r' := { r with panel := ((r.cx, r.cy), d) :: r.panel }
    if r.x2 < r.cx + 1 then { r' with cx := r.x1, cy := r.cy + 1 } else { r' with cx := r.cx + 1 }
  else { r with meaningless := true }

/-- One data byte, of a `Data` event or of a block. R60 does not say what a data byte is that comes after a completed range and
before a memory-write command: it is recorded as without meaning, as before any command; nor what the bytes of a range are in
a block: they are read as those of `Data` events. Both are the model's choice (log entry 15). -/
def Receiver.byte (c : Config) (r : Receiver) (b : Byte) : Receiver :=
  match r.expect with
  | .nothing => { r with meaningless := true }
  | .columns [d0, d1, d2] => { r with x1 := pairOf d0 d1, x2 := pairOf d2 b, expect := .nothing }
  | .columns ds => { r with expect := .columns (ds ++ [b]) }
  | .rows [d0, d1, d2] => { r with y1 := pairOf d0 d1, y2 := pairOf d2 b, expect := .nothing }
  | .rows ds => { r with expect := .rows (ds ++ [b]) }
  | .pixels [red, green] => { r.pixel c ⟨red, green, b⟩ with expect := .pixels [] }
  | .pixels ds => { r with expect := .pixels (ds ++ [b]) }

/-- One bus event (R60). A command byte that is none of the three has no meaning. R60 does not say what becomes of a range, or
of a group of pixel bytes, that a command cuts short: its bytes are dropped, the window and the panel stay as they were, and
nothing is recorded. That is the model's choice (log entry 15), and so is that a command without a meaning leaves what the next
data byte is for as it was. -/
def Receiver.event (c : Config) (r : Receiver) (e : Event) : Receiver :=
  match e with
  | .cmd b =>
    if b = c.cmdHRange then { r with expect := .columns [] }
    else if b = c.cmdVRange then { r with expect := .rows [] }
    else if b = c.cmdMemWrite then { r with cx := r.x1, cy := r.y1, expect := .pixels [] }
    else { r with meaningless := true }
  | .data b => r.byte c b
  | .block _ bytes => bytes.foldl (Receiver.byte c) r
  | .scopeAcquire => r
  | .scopeRelease => r
  | .done => r

/-- What the receiver has made of some bus events. -/
def Receiver.run (c : Config) (r : Receiver) (es : List Event) : Receiver := es.foldl (Receiver.event c) r

/-- `P(x, y)`. -/
def Receiver.at (r : Receiver) (x y : Nat) : Option DeviceColor := (r.panel.find? fun p => p.1 = (x, y)).map (·.2)

end Sys2Proof.Machine
end

