-- ==== Sys2Proof/Safety.lean ====
section
/-! DEFINITION. The terms the claims are made in: the bus events an operation stands for, the invariant of the machine
(10_state.md R26, R27, R39 to R41, R44; 20_memory.md R55 to R57), the premises about the other agents, and what is
observed of a run (70_reset_and_hazards.md R248). -/

namespace Sys2Proof.Machine

/-! ## Bus events of a stream -/

/-- The events of one `push_pixel` on top of the staged bytes, with the completion of a block it issues, and the bytes
staged after it (R121, R122). -/
def pushEvents (c : Config) (staged : List Byte) (d : DeviceColor) : List Event × List Byte :=
  let bytes := staged ++ d.bytes
  if c.capacity < bytes.length + 3 then ([.block c.mode bytes, .done], []) else ([], bytes)

/-- The events of a sequence of pushes, and the bytes staged after it. -/
def pushAllEvents (c : Config) : List Byte → List DeviceColor → List Event × List Byte
  | staged, [] => ([], staged)
  | staged, d :: ds =>
    ((pushEvents c staged d).1 ++ (pushAllEvents c (pushEvents c staged d).2 ds).1,
      (pushAllEvents c (pushEvents c staged d).2 ds).2)

/-- The events of `finish` (R125): the remainder's block, if any, then the release of the scope. -/
def finishEvents (c : Config) (staged : List Byte) : List Event :=
  (if staged = [] then [] else [.block c.mode staged, .done]) ++ [.scopeRelease]

/-- The events of a whole stream (R110, R126). -/
def streamEvents (c : Config) (st : Stream) : List Event :=
  windowEvents c st.win ++ (pushAllEvents c [] st.pixels).1 ++ finishEvents c (pushAllEvents c [] st.pixels).2

/-- Is this event a block? -/
def Event.isBlock (e : Event) : Bool :=
  match e with
  | .block _ _ => true
  | .cmd _ | .data _ | .scopeAcquire | .scopeRelease | .done => false

/-- The payload of a block event. -/
def Event.payload (e : Event) : List Byte :=
  match e with
  | .block _ bytes => bytes
  | .cmd _ | .data _ | .scopeAcquire | .scopeRelease | .done => []

/-- The number of blocks among some events. -/
def blockCount (es : List Event) : Nat := es.countP Event.isBlock

/-- The payloads of the blocks among some events, in order. -/
def payloads (es : List Event) : List (List Byte) := (es.filter Event.isBlock).map Event.payload

/-- `active` after some flushes: each flush flips it in ASYNC mode (R124), none does in BLOCKING mode (R120). -/
def activeAfter (m : Mode) (flushes : Nat) (a : BufIx) : BufIx :=
  match m with
  | .blocking => a
  | .async => if flushes % 2 = 0 then a else a.other

/-- Is this move a write of a resource? -/
def Move.isLoad (m : Move) : Bool :=
  match m with
  | .loadWord _ _ | .loadRow _ _ _ => true
  | .stay | .done | .timeout | .read _ => false

/-! ## The state, the other agents' moves apart -/

namespace State

/-- The bytes staged in the active buffer: `buf[active][0 .. cursor[active]-1]`. -/
def staged (s : State) : List Byte := (Memory.readBlock (s.buf s.active) 0 (s.cursor s.active)).getD []

/-- The trace with the completion of the outstanding block, if there is one. -/
def settled (s : State) : List Event := s.trace ++ (bif s.inFlight then [.done] else [])

/-- The state with the outstanding block completed, and with nothing said of the other agents' moves. Two states with
the same `calm` differ only by what TransferDone, register reads and the schedule may change (R127, R37). -/
def calm (s : State) : State :=
  { s with trace := s.settled, inFlight := false, xfer := none, moves := [], tail := .lazy, hostReads := [] }

/-- The events of the implicit `finish` of `set_window` (R110), or of FINISH (R133). -/
def closeEvents (s : State) : List Event := if s.streamOpen then finishEvents s.cfg s.staged else []

/-! ## Premises about the other agents -/

/-- The host keeps its duty (R72, R239): it changes no resource while operations run. -/
def Steady (s : State) : Prop := ∀ m ∈ s.moves, m.isLoad = false

/-- The transport keeps its contract (R211) and no timeout ends a wait: every block is completed at the latest when
nothing else can step, and the timeout agent does not exist or does not move (R213); and the host keeps its duty. -/
def Quiet (s : State) : Prop :=
  s.tail = .lazy ∧ (s.cfg.timeoutEnabled = true → Move.timeout ∉ s.moves) ∧ s.Steady

/-! ## The invariant -/

end State

/-- Where a well-formed bus trace can stand (R56, R57, R241). -/
inductive BusPhase where
  /-- outside any scope: single command and data bytes -/
  | framed
  /-- inside a scope, no block outstanding -/
  | scoped
  /-- inside a scope, a block outstanding -/
  | carrying
  /-- the scope was released by an abort with a block outstanding (R207) -/
  | orphan
  deriving DecidableEq, Repr

/-- The grammar of the bus trace: `Cmd` and `Data` only outside a scope, blocks only inside one, scopes never nested,
one `Done` after each block and before the next (R56, R57, R211, R241). -/
def BusPhase.next (p : BusPhase) (e : Event) : Option BusPhase :=
  match p, e with
  | .framed, .cmd _ => some .framed
  | .framed, .data _ => some .framed
  | .framed, .scopeAcquire => some .scoped
  | .scoped, .block _ _ => some .carrying
  | .scoped, .scopeRelease => some .framed
  | .carrying, .done => some .scoped
  | .carrying, .scopeRelease => some .orphan
  | .orphan, .done => some .framed
  | _, _ => none

/-- The phase a trace ends in. -/
def BusPhase.scan : BusPhase → List Event → Option BusPhase
  | p, [] => some p
  | p, e :: es => (p.next e).bind fun q => BusPhase.scan q es

/-- The phase that goes with the scope being held or not and a block being outstanding or not. -/
def BusPhase.of (scope inFlight : Bool) : BusPhase :=
  match scope, inFlight with
  | false, false => .framed
  | true, false => .scoped
  | true, true => .carrying
  | false, true => .orphan

/-- The size of a block event's payload: 3 to `C` bytes, a multiple of 3 (R62), in the core's mode (R55). -/
def Event.blockOk (c : Config) (e : Event) : Bool :=
  match e with
  | .block m bytes => m = c.mode && 3 ≤ bytes.length && bytes.length ≤ c.capacity && bytes.length % 3 = 0
  | .cmd _ | .data _ | .scopeAcquire | .scopeRelease | .done => true

namespace State

/-- Every byte of `buf[i]` below `n` has been written (R44). -/
abbrev Written (s : State) (i : BufIx) (n : Nat) : Prop := ∀ k, k < n → (Memory.read? (s.buf i) k).isSome = true

/-- What holds of every state: the configuration is legal, memories are in canonical form, the staging state is in the
ranges of R25, R26 and R27, `xfer` goes with `in_flight` (R29), the trace keeps the grammar and ends where `scope`
says, and every block on it has a legal size. -/
structure Base (s : State) (scope : Bool) : Prop where
  legal : s.cfg.Legal
  bmemWf : Memory.wfZero s.bmem
  glyphsWf : Memory.wfZero s.glyphs
  buf0Wf : Memory.wf s.buf0
  buf1Wf : Memory.wf s.buf1
  buf0In : ∀ p ∈ s.buf0, p.1 < s.cfg.capacity
  buf1In : ∀ p ∈ s.buf1, p.1 < s.cfg.capacity
  cursorLe : s.cursor s.active ≤ s.cfg.capacity
  cursorMod : s.cursor s.active % 3 = 0
  blockingActive : s.cfg.mode = .blocking → s.active = .b0 ∧ s.buf1 = []
  xferIff : s.xfer.isSome = s.inFlight
  bus : BusPhase.scan .framed s.trace = some (BusPhase.of scope s.inFlight)
  blocks : ∀ e ∈ s.trace, e.blockOk s.cfg = true

/-- A block is outstanding only from the buffer that is not active (ASYNC mode), with a length R62 allows; none is in
BLOCKING mode (R39). -/
def FlightAway (s : State) : Prop :=
  s.inFlight = true → s.cfg.mode = .async ∧
    ∃ len, s.xfer = some (s.active.other, len) ∧ 3 ≤ len ∧ len ≤ s.cfg.capacity ∧ len % 3 = 0

/-- No stream is open and nothing is staged or outstanding. -/
def Closed (s : State) : Prop :=
  s.faulted = false ∧ s.streamOpen = false ∧ s.inFlight = false ∧ s.cursor0 = 0 ∧ s.cursor1 = 0

/-- A stream is open and the next pixel fits in the active buffer, which is not the one in flight (R41). -/
def Opened (s : State) : Prop :=
  s.faulted = false ∧ s.streamOpen = true ∧ s.cursor s.active + 3 ≤ s.cfg.capacity ∧
    s.cursor s.active.other = 0 ∧ s.Written s.active (s.cursor s.active) ∧ s.FlightAway

/-- A stream is open and the active buffer holds at least one pixel. -/
def Filled (s : State) : Prop :=
  s.faulted = false ∧ s.streamOpen = true ∧ 3 ≤ s.cursor s.active ∧
    s.cursor s.active.other = 0 ∧ s.Written s.active (s.cursor s.active)

/-- After an abort (R207): no stream is open, and a block may still be outstanding, in BLOCKING mode too (R39). -/
def Faulted (s : State) : Prop :=
  s.faulted = true ∧ s.streamOpen = false ∧ s.cursor s.active.other = 0 ∧
    s.Written s.active (s.cursor s.active) ∧
    (s.inFlight = true → ∃ len,
      s.xfer = some ((match s.cfg.mode with | .blocking => BufIx.b0 | .async => s.active.other), len) ∧
        3 ≤ len ∧ len ≤ s.cfg.capacity ∧ len % 3 = 0)

/-- What holds between operations. -/
def Rest (s : State) : Prop := s.Base s.streamOpen ∧ (s.Closed ∨ s.Opened ∨ s.Faulted)

end State

/-- Where the engine stands within an operation. The argument of the flush phases says whether the flush was called by
`push_pixel` (`true`) or by `finish` (`false`). -/
inductive Phase where
  | start | live | closed | acquired | opened | stored | advanced
  | waiting (push : Bool) | issuing (push : Bool) | clearing (push : Bool) | flipping (push : Bool)
  | completing (push : Bool) | emptying (push : Bool)
  | drain | drained | released | ended
  deriving DecidableEq, Repr

/-- Where a flush returns to. -/
def Phase.back (push : Bool) : Phase := if push then .opened else .drain

/-- Where the engine stands after a step, the operation not having ended by it and no call having been made; what the
reading of a header puts in line runs to the operation's end. -/
def Phase.next (m : Mode) (p : Phase) (e : EStep) : Option Phase :=
  match p with
  | .start =>
    match e with
    | .faultCheck => some .live
    | .writeResult _ => some .start
    | .finishOp _ => some .ended
    | _ => none
  | .live =>
    match e with
    | .raiseIf bad _ => some (bif bad then .ended else .live)
    | .requireStream => some .opened
    | .closeStream => some .closed
    | .readHeader _ _ _ _ => some .ended
    | .finishOp _ => some .ended
    | _ => none
  | .closed =>
    match e with
    | .closeStream | .emit (.cmd _) | .emit (.data _) | .writeWin _ => some .closed
    | .emit .scopeAcquire => some .acquired
    | .finishOp _ => some .ended
    | _ => none
  | .acquired =>
    match e with
    | .openStream => some .opened
    | _ => none
  | .opened =>
    match e with
    | .store _ => some .stored
    | .flushIfAny => some .drain
    | .finishOp _ => some .ended
    | _ => none
  | .stored =>
    match e with
    | .advance => some .advanced
    | _ => none
  | .advanced =>
    match e with
    | .flushIfFull => some .opened
    | _ => none
  | .waiting b =>
    match e with
    | .waitIdle => if m = .async then some (.issuing b) else none
    | _ => none
  | .issuing b =>
    match e with
    | .issue => if m = .async then some (.clearing b) else some (.completing b)
    | _ => none
  | .clearing b =>
    match e with
    | .clearCursor => some (.flipping b)
    | _ => none
  | .flipping b =>
    match e with
    | .flipActive => some (Phase.back b)
    | _ => none
  | .completing b =>
    match e with
    | .waitIdle => some (.emptying b)
    | _ => none
  | .emptying b =>
    match e with
    | .clearCursor => some (Phase.back b)
    | _ => none
  | .drain =>
    match e with
    | .waitIdle => some .drained
    | _ => none
  | .drained =>
    match e with
    | .emit .scopeRelease => some .released
    | _ => none
  | .released =>
    match e with
    | .shutStream => some .closed
    | _ => none
  | .ended => none

/-- Where the engine stands after some steps. -/
def Phase.after (m : Mode) : Phase → List EStep → Option Phase
  | p, [] => some p
  | p, e :: k => (p.next m e).bind fun q => Phase.after m q k

/-- What holds while the engine stands at a phase. -/
def Phase.Holds (p : Phase) (s : State) : Prop :=
  match p with
  | .start => s.Rest
  | .live => s.Base s.streamOpen ∧ (s.Closed ∨ s.Opened)
  | .closed => s.Base false ∧ s.Closed
  | .acquired => s.Base true ∧ s.Closed
  | .opened => s.Base true ∧ s.Opened
  | .stored => s.Base true ∧ s.Opened ∧ s.Written s.active (s.cursor s.active + 3)
  | .advanced => s.Base true ∧ s.Filled ∧ s.FlightAway
  | .waiting _ => s.Base true ∧ s.Filled ∧ s.FlightAway ∧ s.cfg.mode = .async
  | .issuing _ => s.Base true ∧ s.Filled ∧ s.inFlight = false
  | .clearing _ => s.Base true ∧ s.Filled ∧ s.cfg.mode = .async ∧
      (s.inFlight = true → s.xfer = some (s.active, s.cursor s.active))
  | .flipping _ => s.Base true ∧ s.faulted = false ∧ s.streamOpen = true ∧ s.cfg.mode = .async ∧
      s.cursor0 = 0 ∧ s.cursor1 = 0 ∧
      (s.inFlight = true → ∃ len, s.xfer = some (s.active, len) ∧ 3 ≤ len ∧ len ≤ s.cfg.capacity ∧ len % 3 = 0)
  | .completing _ => s.Base true ∧ s.Filled ∧ s.cfg.mode = .blocking ∧
      (s.inFlight = true → s.xfer = some (.b0, s.cursor0))
  | .emptying _ => s.Base true ∧ s.Filled ∧ s.cfg.mode = .blocking ∧ s.inFlight = false
  | .drain => s.Base true ∧ s.faulted = false ∧ s.streamOpen = true ∧ s.cursor0 = 0 ∧ s.cursor1 = 0 ∧ s.FlightAway
  | .drained => s.Base true ∧ s.faulted = false ∧ s.streamOpen = true ∧ s.cursor0 = 0 ∧ s.cursor1 = 0 ∧
      s.inFlight = false
  | .released => s.Base false ∧ s.faulted = false ∧ s.streamOpen = true ∧ s.cursor0 = 0 ∧ s.cursor1 = 0 ∧
      s.inFlight = false
  | .ended => False

namespace State

/-- The invariant, of idle states and of every state an operation passes through. An idle core has no operation during which
a resource could have changed. -/
def Inv (s : State) : Prop :=
  if s.busy then ∃ p : Phase, p.Holds s ∧ Phase.after s.cfg.mode p s.cont = some .ended
  else s.Rest ∧ s.cont = [] ∧ s.changed = []

/-- The core accepts a descriptor: the invariant holds and it is idle. -/
def Idle (s : State) : Prop := s.Inv ∧ s.busy = false

/-- The core is idle and not faulted, and the other agents let every operation end. -/
def Ready (s : State) : Prop := s.Idle ∧ s.faulted = false ∧ s.Quiet

end State

/-- The window after some streams. -/
def lastWin (w : Window) (sts : List Stream) : Window := (sts.getLast?.map StreamOf.win).getD w

namespace State

/-- `t` is the normal end, with status `st`, of an operation that drew the streams `sts` from the idle state `s`: the
open stream, if any, was closed first (R110); what is on the bus is theirs, in order (R126); the window is the last
stream's (R115); each block flipped `active` in ASYNC mode (R124); no stream is open and nothing is staged or
outstanding (R125); `result`, the configuration, the resources, the host's queue and every buffer byte from address `m`
on are as before. The latch is not mentioned: it is undefined (R23). -/
structure Drawn (s t : State) (sts : List Stream) (st : Status) (m : Nat) : Prop where
  status : t.status = st
  trace : t.trace = s.settled ++ s.closeEvents ++ sts.flatMap (streamEvents s.cfg)
  win : t.win = lastWin s.win sts
  active : t.active =
    activeAfter s.cfg.mode (blockCount (s.closeEvents ++ sts.flatMap (streamEvents s.cfg))) s.active
  busy : t.busy = false
  cont : t.cont = []
  faulted : t.faulted = false
  streamOpen : t.streamOpen = false
  inFlight : t.inFlight = false
  xfer : t.xfer = none
  cursor0 : t.cursor0 = 0
  cursor1 : t.cursor1 = 0
  result : t.result = s.result
  cfg : t.cfg = s.cfg
  bmem : t.bmem = s.bmem
  glyphs : t.glyphs = s.glyphs
  host : t.host = s.host
  bufs : ∀ i a, m ≤ a → Memory.read? (t.buf i) a = Memory.read? (s.buf i) a

/-- What an operation that is not CONVERT, and is not stopped by a timeout, leaves as it was: `result` (R35), `faulted`
(R32), the configuration (R21), the resources (R43) and the host's queue; and it has ended. -/
structure Kept (s t : State) : Prop where
  result : t.result = s.result
  faulted : t.faulted = s.faulted
  cfg : t.cfg = s.cfg
  bmem : t.bmem = s.bmem
  glyphs : t.glyphs = s.glyphs
  host : t.host = s.host
  tail : t.tail = s.tail
  busy : t.busy = false
  cont : t.cont = []

/-- No buffer byte has changed. -/
def BufsKept (s t : State) : Prop := ∀ i a, Memory.read? (t.buf i) a = Memory.read? (s.buf i) a

/-- A precise end with status `st` (R205): nothing has changed but the status and the latch, which is undefined (R23),
and what TransferDone and register reads may change meanwhile. -/
def EndsPrecisely (s t : State) (st : Status) : Prop :=
  t.status = st ∧
    { t.calm with status := s.status, opCode := s.opCode, opWords := s.opWords, draws := s.draws } = s.calm

/-! ## Observation -/

end State

/-- Some operations, one after the other. -/
def execAll : List Instr → State → Host.Outcome State Fault Refusal
  | [], s => .next s
  | i :: is, s =>
    match exec i s with
    | .next t => execAll is t
    | .fault r => .fault r
    | .refused r => .refused r

/-- Which status codes an operation may end with (R203). -/
def mayEndWith (i : Instr) (st : Status) : Bool :=
  match st with
  | .ok => true
  | .invalidWindow => i.op ∉ [.convert, .pushPixel, .finish]
  | .unsupportedGlyph => i.op ∈ [.drawGlyph, .drawFastGlyph, .drawString, .drawFastString]
  | .busTimeout => i.op ≠ .convert
  | .illegalOperation => i.op = .pushPixel
  | .memoryFault => i.op = .drawBitmap

/-- The three command bytes can be told apart: a premise of the claims about the reference receiver (R60). -/
def CommandsDistinct (c : Config) : Prop :=
  c.cmdHRange ≠ c.cmdVRange ∧ c.cmdHRange ≠ c.cmdMemWrite ∧ c.cmdVRange ≠ c.cmdMemWrite

/-- What is observed of a machine at rest (R248): the bus trace, the register view, and whether the engine is stuck. -/
structure Observation where
  trace : List Event
  registers : List (BitVec 32)
  stuck : Bool
  deriving DecidableEq, Repr

/-- The engine is stuck (R212): held, with no other agent that will move. -/
def State.stuck (s : State) : Bool := s.held && decide (s.envMove = none)

/-- The run has ended (R248): nothing to submit, an idle core, no block outstanding or else a faulted core and a transport
that delivers no further `Done`, and no move to come. -/
def State.ended (s : State) : Bool :=
  s.host.isEmpty && !s.busy && (!s.inFlight || s.faulted && s.tail = .silent) && s.moves.isEmpty

/-- The observation of R248. -/
def State.observe (s : State) : Observation :=
  ⟨s.trace, (List.range 9).map s.readReg, s.stuck⟩

end Sys2Proof.Machine
end

