-- ==== Sys2Proof/Certificates/Slice0/Obligations.lean ====
section
/-! DEFINITION. The statements for the provers. `Idle`, `Steady`, `Ready`, `Drawn`, `Kept`, `EndsPrecisely`, `settled`,
`calm` and `closeEvents` are defined in Safety.lean. -/

open Sys2Proof Sys2Proof.Machine

/-! ## Encoding and decoding -/

/-- 30_encoding.md R82 to R86: a descriptor of each format, its words written out from the tables, decodes to the
operation it stands for. -/
def Obligations.SampleWords : Prop :=
  decode [0x0001, 5, 7, 0x07E0] = .ok (.drawPixel 5 7 0x07E0) ∧
  decode [0x0002, 0, 0, 9, 9, 0xF800] = .ok (.fillRect 0 0 9 9 0xF800) ∧
  decode [0x0003, 1, 2, 65, 0xFFFF, 0x0000, 3] = .ok (.drawGlyph 1 2 65 0xFFFF 0 3) ∧
  decode [0x0004, 1, 2, 65, 0xFFFF, 0x0000] = .ok (.drawFastGlyph 1 2 65 0xFFFF 0) ∧
  decode [0x0005, 10, 20, 0xFFFF, 0x0000, 2, 2, 72, 105] = .ok (.drawString 10 20 0xFFFF 0 2 [72, 105]) ∧
  decode [0x0006, 10, 20, 0xFFFF, 0x0000, 1, 255] = .ok (.drawFastString 10 20 0xFFFF 0 [255]) ∧
  decode [0x0007, 5, 6, 1, 0x0001, 0x0100] = .ok (.drawBitmap 5 6 1 0x00010100) ∧
  decode [0x0010, 0x1234] = .ok (.convert 0x1234) ∧
  decode [0x0011, 9, 0, 1, 8] = .ok (.setWindow 9 0 1 8) ∧
  decode [0x0012, 0xF800] = .ok (.pushPixel 0xF800) ∧
  decode [0x0013] = .ok .finish

/-- 30_encoding.md R80 to R86, R90: every operation with a descriptor is read back from it, with every operand. -/
def Obligations.DecodeEncode : Prop :=
  ∀ i : Instr, i.wellFormed = true → decode (encode i) = .ok i

/-- 30_encoding.md R82 to R84, R88, R89: a word sequence that decodes is the descriptor of what it decodes to, so no bit
of it goes unread, and that operation is well formed. -/
def Obligations.EncodeDecode : Prop :=
  ∀ (ws : List Word) (i : Instr), decode ws = .ok i → encode i = ws ∧ i.wellFormed = true

/-- 30_encoding.md R91, with R85, R88 and R90: the decode checks, in their order, for every word sequence. -/
def Obligations.DecodeChecks : Prop :=
  decode [] = .error .emptySequence ∧
  ∀ (h : Word) (rest : List Word),
    let ws := h :: rest
    let opcode := (lo8 h).toNat
    let fixed : Nat := if opcode = 0x01 then 4 else if opcode = 0x03 then 7 else if opcode = 0x10 then 2
      else if opcode = 0x11 then 5 else if opcode = 0x12 then 2 else if opcode = 0x13 then 1 else 6
    let count : Nat := if opcode = 0x05 then 6 else 5
    let isString : Bool := opcode = 0x05 ∨ opcode = 0x06
    let len : Nat := if isString then count + 1 + (ws.getD count 0).toNat else fixed
    let chars : List Word := if isString then ws.drop (count + 1)
      else if opcode = 0x03 ∨ opcode = 0x04 then [ws.getD 3 0] else []
    (hi8 h ≠ 0 → decode ws = .error .reservedHeaderBits) ∧
    (hi8 h = 0 → opcode ∉ [0x01, 0x02, 0x03, 0x04, 0x05, 0x06, 0x07, 0x10, 0x11, 0x12, 0x13] →
      decode ws = .error .reservedOpcode) ∧
    (hi8 h = 0 → opcode ∈ [0x01, 0x02, 0x03, 0x04, 0x05, 0x06, 0x07, 0x10, 0x11, 0x12, 0x13] →
      (isString = true → ws.length ≤ count → decode ws = .error .noCountWord) ∧
      ((isString = true → count < ws.length) →
        (ws.length ≠ len → decode ws = .error .wrongLength) ∧
        (ws.length = len → (∃ c ∈ chars, hi8 c ≠ 0) → decode ws = .error .reservedCharBits) ∧
        (ws.length = len → (∀ c ∈ chars, hi8 c = 0) → ∃ i, decode ws = .ok i ∧ i.op.code = lo8 h)))

/-- 30_encoding.md R88, R89, R91; 60_exceptions.md R208 item 1: a malformed descriptor ends with IllegalOperation, also
while `faulted = 1`, and changes nothing else but the latch, which is undefined afterwards; no bus event. That this is one
step, and that `host` is the host's queue, is the model's choice (log entries 5 and 6). -/
def Obligations.MalformedDescriptor : Prop :=
  ∀ (s : State) (ws : List Word) (rest : List (List Word)) (e : DecodeError),
    s.Idle → s.envMove = none → s.host = ws :: rest → decode ws = .error e →
    ∃ t, step s = .next t ∧ t.status = .illegalOperation ∧ t.host = rest ∧
      { t with status := s.status, opCode := s.opCode, opWords := s.opWords, draws := s.draws, host := s.host, moves := s.moves } = s

/-- 30_encoding.md R81, R92: when the host's next descriptor decodes and no other agent is to move first, a step of the
idle machine is the operation's meaning, the descriptor taken from the queue. The queue `host`, and that a step runs the whole
operation, are the model's choice (log entries 6 and 9). -/
def Obligations.StepRunsDecoded : Prop :=
  ∀ (s : State) (ws : List Word) (rest : List (List Word)) (i : Instr),
    s.cfg.Legal → s.busy = false → s.envMove = none → s.host = ws :: rest → decode ws = .ok i →
    step s = exec i { s.dropStay with host := rest }

/-- 10_state.md R23; 30_encoding.md R81: while an operation is under way the latch holds it. Acceptance writes its opcode and
its operand words into the latch, every operation runs from its acceptance on, no single step of any agent changes the latch
unless it ends the operation, and an operation that rests at a wait still has it. (That `exec` runs the single steps to the
operation's end is the model's choice, log entry 9.) -/
def Obligations.LatchHoldsOperation : Prop :=
  (∀ (i : Instr) (s : State) (steps : List EStep),
    (s.accept i steps).busy = true ∧ (s.accept i steps).opCode = i.op.code ∧
      (s.accept i steps).opWords = operandWords i) ∧
  (∀ (i : Instr) (s : State), s.cfg.Legal → s.busy = false → ∃ steps, exec i s = runOp (s.accept i steps)) ∧
  (∀ s t : State, s.busy = true → tick s = .moved t → t.busy = true → t.opCode = s.opCode ∧ t.opWords = s.opWords) ∧
  ∀ (i : Instr) (s t : State), exec i s = .next t → t.busy = true → t.opCode = i.op.code ∧ t.opWords = operandWords i

/-! ## The register view and reset -/

/-- 10_state.md R36: the nine registers, field by field; every bit not listed reads 0; the codes of STATUS.CODE; the values
after reset. -/
def Obligations.RegisterView : Prop :=
  [Status.ok, .invalidWindow, .unsupportedGlyph, .busTimeout, .illegalOperation, .memoryFault].map Status.code =
    [0, 1, 2, 3, 4, 5] ∧
  (∀ (c : Config) (n : Nat), c.Legal → n ≠ 2 → n ≠ 8 → (State.resetWith c).readReg n = 0) ∧
  ∀ s : State, s.cfg.Legal → s.cursor0 ≤ s.cfg.capacity → s.cursor1 ≤ s.cfg.capacity →
    (s.readReg 0).toNat = s.status.code.toNat ∧
    (s.readReg 1).toNat = s.result.toNat ∧
    (s.readReg 2).toNat = s.cfg.capacity + 2 ^ 16 * (if s.cfg.mode = .async then 1 else 0)
      + 2 ^ 17 * (if s.cfg.timeoutEnabled = true then 1 else 0) ∧
    (s.readReg 3).toNat = (if s.busy = true then 1 else 0) + 2 * (if s.inFlight = true then 1 else 0)
      + 4 * (if s.active = .b1 then 1 else 0) + 8 * (if s.streamOpen = true then 1 else 0)
      + 16 * (if s.faulted = true then 1 else 0) ∧
    (s.readReg 4).toNat = s.cursor0 ∧
    (s.readReg 5).toNat = (if s.cfg.mode = .async then s.cursor1 else 0) ∧
    (s.readReg 6).toNat = s.win.x1.toNat + 2 ^ 16 * s.win.x2.toNat ∧
    (s.readReg 7).toNat = s.win.y1.toNat + 2 ^ 16 * s.win.y2.toNat ∧
    (s.readReg 8).toNat = s.cfg.panelW + 2 ^ 16 * s.cfg.panelH

/-- 10_state.md R37: a read of a register may be taken at any time, returns the current value (0 above number 8), and
changes nothing (but the model's own record of the value). -/
def Obligations.HostRead : Prop :=
  (∀ (s : State) (n : Nat), 8 < n → s.readReg n = 0) ∧
  ∀ (s : State) (n : Nat) (ms : List Move), s.moves = .read n :: ms →
    s.envMove = some { s with moves := ms, hostReads := s.hostReads ++ [(n, s.readReg n)] } ∧
    (s.busy = true → tick s = .moved { s with moves := ms, hostReads := s.hostReads ++ [(n, s.readReg n)] }) ∧
    (s.busy = false → s.cfg.Legal →
      step s = .next { s with moves := ms, hostReads := s.hostReads ++ [(n, s.readReg n)] })

/-- 10_state.md R42, R44: what reset leaves, in every configuration. That a buffer byte which nothing has written reads as no
value is the model's choice, which R44 allows and R42, which leaves it unspecified, does not force (log entry 3). The latch
is not mentioned: R42 gives it no value. -/
def Obligations.ResetValues : Prop :=
  ∀ c : Config,
    let s := State.resetWith c
    (∀ i k, Memory.read? (s.buf i) k = none) ∧ (∀ i, s.cursor i = 0) ∧ s.active = .b0 ∧ s.inFlight = false ∧
    s.xfer = none ∧ s.streamOpen = false ∧ s.win = ⟨0, 0, 0, 0⟩ ∧ s.faulted = false ∧ s.busy = false ∧
    s.status.code = 0 ∧ s.result = 0 ∧ s.trace = []

/-- 10_state.md section 8; 70_reset_and_hazards.md R230: after reset, in every legal configuration, the core is idle, not
faulted, and in the invariant. The rest of `Ready` (no timeout and no write of the host to come, a transport that completes
every block) holds after reset by the model's choice alone (log entry 6). So it is for the model's `reset`, whose
configuration is the model's choice too (log entry 1). -/
def Obligations.ResetInvariant : Prop :=
  (∀ c : Config, c.Legal → (State.resetWith c).Ready) ∧ State.reset.Ready

/-- 70_reset_and_hazards.md R230, R231; 10_state.md R32: a reset taken in any state, also with a block in flight or
faulted, latches the configuration and leaves an idle core with the values of R42 and an empty trace. A `Done` of the old
run is not delivered. That the resources and the host's queue stay is the model's choice (log entry 12). -/
def Obligations.ResetMidRun : Prop :=
  ∀ (c : Config) (s : State),
    let t := State.takeReset c s
    t.cfg = c ∧ (∀ i, t.cursor i = 0) ∧ t.active = .b0 ∧ t.inFlight = false ∧ t.xfer = none ∧ t.streamOpen = false ∧
    t.win = ⟨0, 0, 0, 0⟩ ∧ t.faulted = false ∧ t.busy = false ∧ t.cont = [] ∧ t.status = .ok ∧ t.result = 0 ∧
    t.trace = [] ∧ t.bmem = s.bmem ∧ t.glyphs = s.glyphs ∧ t.host = s.host ∧
    (∀ ms, s.moves = .done :: ms → t.envMove = none) ∧
    (c.Legal → Memory.wfZero s.bmem → Memory.wfZero s.glyphs → t.Idle)

/-! ## Color Converter -/

/-- 40_color_converter.md R101, R103: each field at the top of its byte, the low bits 0; and `convert` is injective. -/
def Obligations.ConvertFunction : Prop :=
  (∀ c : Word, (convertColor c).r.toNat = c.toNat / 2048 * 8 ∧ (convertColor c).g.toNat = c.toNat / 32 % 64 * 4 ∧
    (convertColor c).b.toNat = c.toNat % 32 * 8) ∧
  ∀ c c' : Word, convertColor c = convertColor c' → c = c'

/-- 40_color_converter.md R102: CONVERT completes in every idle state, also while a stream is open or `faulted = 1`, and
whatever the transport, the timeout agent and the host's reads do: `result` is `{R, G, B}`, the status OK, and nothing else changes. -/
def Obligations.ConvertCompletes : Prop :=
  ∀ (s : State) (c : Word), s.Idle → s.Steady →
    ∃ t, exec (.convert c) s = .next t ∧ t.status = .ok ∧
      t.result.toNat = 65536 * (c.toNat / 2048 * 8) + 256 * (c.toNat / 32 % 64 * 4) + c.toNat % 32 * 8 ∧
      { t.calm with status := s.status, result := s.result, opCode := s.opCode, opWords := s.opWords, draws := s.draws } = s.calm

/-! ## Window Addressing -/

/-- 41_window_sequencer.md R110, R111, R113: SET_WINDOW within the panel closes an open stream, puts the twelve events
of R111 on the bus with the normalised bounds, and leaves `win` and an open stream with nothing staged. -/
def Obligations.SetWindowCompletes : Prop :=
  ∀ (s : State) (x1 y1 x2 y2 : Word), s.Ready →
    max x1.toNat x2.toNat < s.cfg.panelW → max y1.toNat y2.toNat < s.cfg.panelH →
    let ax1 : Word := if x1.toNat ≤ x2.toNat then x1 else x2
    let ax2 : Word := if x1.toNat ≤ x2.toNat then x2 else x1
    let ay1 : Word := if y1.toNat ≤ y2.toNat then y1 else y2
    let ay2 : Word := if y1.toNat ≤ y2.toNat then y2 else y1
    ∃ t, exec (.setWindow x1 y1 x2 y2) s = .next t ∧ t.Ready ∧ t.status = .ok ∧
      t.trace = s.settled ++ s.closeEvents ++
        [.cmd s.cfg.cmdHRange, .data (ax1.extractLsb' 8 8), .data (ax1.extractLsb' 0 8),
          .data (ax2.extractLsb' 8 8), .data (ax2.extractLsb' 0 8),
         .cmd s.cfg.cmdVRange, .data (ay1.extractLsb' 8 8), .data (ay1.extractLsb' 0 8),
          .data (ay2.extractLsb' 8 8), .data (ay2.extractLsb' 0 8),
         .cmd s.cfg.cmdMemWrite, .scopeAcquire] ∧
      t.win = ⟨ax1, ay1, ax2, ay2⟩ ∧ t.streamOpen = true ∧ t.staged = [] ∧ t.cursor0 = 0 ∧ t.cursor1 = 0 ∧
      t.inFlight = false ∧ t.xfer = none ∧
      t.active = activeAfter s.cfg.mode (blockCount s.closeEvents) s.active ∧ s.Kept t ∧ s.BufsKept t

/-- 41_window_sequencer.md R112: for all bounds, the window of `set_window` holds each axis's two bounds in order, swapped
when they are out of order, each axis on its own; the events of R111 are those of the window alone. SET_WINDOW never
rejects bounds for their order: it leaves that window, and the operands in any order give the same events. -/
def Obligations.WindowNormalised : Prop :=
  (∀ x1 y1 x2 y2 : Word,
    let w := normWindow x1.toNat y1.toNat x2.toNat y2.toNat
    w.x1.toNat ≤ w.x2.toNat ∧ w.y1.toNat ≤ w.y2.toNat ∧
    ((w.x1 = x1 ∧ w.x2 = x2) ∨ (w.x1 = x2 ∧ w.x2 = x1)) ∧ ((w.y1 = y1 ∧ w.y2 = y2) ∨ (w.y1 = y2 ∧ w.y2 = y1)) ∧
    normWindow x2.toNat y1.toNat x1.toNat y2.toNat = w ∧ normWindow x1.toNat y2.toNat x2.toNat y1.toNat = w) ∧
  ∀ (s : State) (x1 y1 x2 y2 : Word), s.Ready →
    max x1.toNat x2.toNat < s.cfg.panelW → max y1.toNat y2.toNat < s.cfg.panelH →
    ∃ t, exec (.setWindow x1 y1 x2 y2) s = .next t ∧ t.win = normWindow x1.toNat y1.toNat x2.toNat y2.toNat ∧
      ∀ i ∈ [Instr.setWindow x2 y1 x1 y2, .setWindow x1 y2 x2 y1, .setWindow x2 y2 x1 y1],
        ∃ u, exec i s = .next u ∧ u.status = t.status ∧ u.trace = t.trace ∧ u.win = t.win ∧ u.active = t.active ∧
          u.streamOpen = t.streamOpen

/-! ## Staging Buffer Manager -/

/-- 42_staging_manager.md R121, R132; 20_memory.md R51, R58: PUSH_PIXEL in an open stream writes R, G and B at the cursor
of the active buffer and no other byte, and hands the staged bytes over exactly when another pixel would not fit. -/
def Obligations.PushPixelCompletes : Prop :=
  ∀ (s : State) (c : Word), s.Ready → s.streamOpen = true →
    let d := convertColor c
    let at0 := s.cursor s.active
    let bytes := s.staged ++ [d.r, d.g, d.b]
    let full : Prop := s.cfg.capacity < at0 + 3 + 3
    ∃ t, exec (.pushPixel c) s = .next t ∧ t.Ready ∧ t.status = .ok ∧ t.streamOpen = true ∧ t.win = s.win ∧ s.Kept t ∧
      (¬ full → t.settled = s.settled ∧ t.staged = bytes ∧ t.active = s.active ∧
        t.cursor s.active = at0 + 3 ∧ t.cursor s.active.other = s.cursor s.active.other) ∧
      (full → t.settled = s.settled ++ [.block s.cfg.mode bytes, .done] ∧ t.staged = [] ∧
        t.active = activeAfter s.cfg.mode 1 s.active ∧ t.cursor0 = 0 ∧ t.cursor1 = 0) ∧
      ∀ i a, Memory.read? (t.buf i) a =
        if i = s.active ∧ a = at0 then some d.r
        else if i = s.active ∧ a = at0 + 1 then some d.g
        else if i = s.active ∧ a = at0 + 2 then some d.b
        else Memory.read? (s.buf i) a

/-- 42_staging_manager.md R122: `push_pixel`, in whatever operation, calls `flush` exactly when its write has brought the
cursor to `3k`, `k = floor(C/3)`, which is when another pixel would pass `C`. PUSH_PIXEL then hands over `3k` bytes, and
else nothing. No step of the machine writes a byte of a buffer beyond `3k`. -/
def Obligations.FlushTrigger : Prop :=
  (∀ (s : State) (k : List EStep), s.Inv → s.busy = true → s.envMove = none → s.cont = .flushIfFull :: k →
    (s.cursor s.active = 3 * (s.cfg.capacity / 3) ↔ s.cfg.capacity < s.cursor s.active + 3) ∧
    (s.cursor s.active = 3 * (s.cfg.capacity / 3) →
      tick s = .moved { s.dropStay with cont := flushSteps s.cfg.mode ++ k }) ∧
    (s.cursor s.active ≠ 3 * (s.cfg.capacity / 3) → tick s = .moved { s.dropStay with cont := k })) ∧
  (∀ (s : State) (c : Word), s.Ready → s.streamOpen = true →
    let k := s.cfg.capacity / 3
    ∃ t, exec (.pushPixel c) s = .next t ∧
      (s.cursor s.active + 3 ≠ 3 * k → t.settled = s.settled) ∧
      (s.cursor s.active + 3 = 3 * k → ∃ bytes, t.settled = s.settled ++ [.block s.cfg.mode bytes, .done] ∧
        bytes.length = 3 * k)) ∧
  ∀ s t : State, s.Inv → step s = .next t → ∀ i a, 3 * (s.cfg.capacity / 3) ≤ a →
    Memory.read? (t.buf i) a = Memory.read? (s.buf i) a

/-- 42_staging_manager.md R125, R133; 20_memory.md R70: FINISH hands over what is staged, waits, and releases the scope;
with no stream open it does nothing. Afterwards nothing is staged or outstanding. -/
def Obligations.FinishCompletes : Prop :=
  ∀ s : State, s.Ready →
    ∃ t, exec .finish s = .next t ∧ t.Ready ∧ t.status = .ok ∧
      (s.streamOpen = false → t.trace = s.settled ∧ t.active = s.active) ∧
      (s.streamOpen = true → s.staged = [] → t.trace = s.settled ++ [.scopeRelease] ∧ t.active = s.active) ∧
      (s.streamOpen = true → s.staged ≠ [] →
        t.trace = s.settled ++ [.block s.cfg.mode s.staged, .done, .scopeRelease] ∧
        t.active = activeAfter s.cfg.mode 1 s.active) ∧
      t.streamOpen = false ∧ t.inFlight = false ∧ t.xfer = none ∧ t.cursor0 = 0 ∧ t.cursor1 = 0 ∧ t.win = s.win ∧
      s.Kept t ∧ s.BufsKept t

/-- 42_staging_manager.md R126, with R58: a stream of `N` pixels emits `ceil(N/k)` blocks, `k = floor(C/3)`: the first
`floor(N/k)` of `3k` bytes, then one of the remainder; together they carry the pixels' bytes R, G, B in push order; the
payloads are the same in both modes. So do SET_WINDOW, `N` PUSH_PIXELs and FINISH on the machine. -/
def Obligations.StreamLaw : Prop :=
  (∀ (c : Config) (st : Stream), 3 ≤ c.capacity →
    let k := c.capacity / 3
    let n := st.pixels.length
    let ps := payloads (streamEvents c st)
    ps.length = (n + k - 1) / k ∧
    (∀ j, j < n / k → ∃ p, ps[j]? = some p ∧ p.length = 3 * k) ∧
    (0 < n % k → ∃ p, ps[n / k]? = some p ∧ p.length = 3 * (n % k)) ∧
    ps.flatten = st.pixels.flatMap (fun d => [d.r, d.g, d.b]) ∧
    ∀ m, payloads (streamEvents { c with mode := m } st) = ps) ∧
  ∀ (s : State) (x1 y1 x2 y2 : Word) (cs : List Word), s.Ready →
    max x1.toNat x2.toNat < s.cfg.panelW → max y1.toNat y2.toNat < s.cfg.panelH →
    ∃ t es, execAll (.setWindow x1 y1 x2 y2 :: (cs.map .pushPixel ++ [.finish])) s = .next t ∧
      t.trace = s.settled ++ s.closeEvents ++ es ∧
      payloads es = payloads (streamEvents s.cfg
        ⟨normWindow x1.toNat y1.toNat x2.toNat y2.toNat, cs.map convertColor⟩)

/-- 20_memory.md R69; 41_window_sequencer.md R114; 42_staging_manager.md R126: SET_WINDOW, any number of PUSH_PIXELs and
FINISH, submitted one after the other, put on the bus exactly what the whole stream stands for, and leave the state a
drawing operation leaves. -/
def Obligations.LowLevelStream : Prop :=
  ∀ (s : State) (x1 y1 x2 y2 : Word) (cs : List Word), s.Ready →
    max x1.toNat x2.toNat < s.cfg.panelW → max y1.toNat y2.toNat < s.cfg.panelH →
    ∃ t, execAll (.setWindow x1 y1 x2 y2 :: (cs.map .pushPixel ++ [.finish])) s = .next t ∧ t.Ready ∧
      s.Drawn t [⟨normWindow x1.toNat y1.toNat x2.toNat y2.toNat, cs.map convertColor⟩] .ok
        (min (3 * cs.length) s.cfg.capacity)

/-! ## Rasterizers -/

/-- 43_rasterizers.md R150, R151: DRAW_PIXEL on the panel: the window `(x, y, x+1, y+1)`, one block of the pixel's three
bytes, its `Done`, the release. -/
def Obligations.DrawPixelCompletes : Prop :=
  ∀ (s : State) (x y c : Word), s.Ready → x.toNat < s.cfg.panelW → y.toNat < s.cfg.panelH →
    let d := convertColor c
    let w : Window := ⟨x, y, x + 1, y + 1⟩
    ∃ t, exec (.drawPixel x y c) s = .next t ∧ t.Ready ∧ s.Drawn t [⟨w, [d]⟩] .ok 3 ∧
      t.trace = s.settled ++ s.closeEvents ++ windowEvents s.cfg w ++
        [.block s.cfg.mode [d.r, d.g, d.b], .done, .scopeRelease]

/-- 43_rasterizers.md R152, R153: FILL_RECT on the panel: one stream, the normalised bounds as its window, `convert(c)`
once for each of its cells. -/
def Obligations.FillRectCompletes : Prop :=
  ∀ (s : State) (x1 y1 x2 y2 c : Word), s.Ready →
    max x1.toNat x2.toNat < s.cfg.panelW → max y1.toNat y2.toNat < s.cfg.panelH →
    let n := (max x1.toNat x2.toNat - min x1.toNat x2.toNat + 1) * (max y1.toNat y2.toNat - min y1.toNat y2.toNat + 1)
    ∃ t, exec (.fillRect x1 y1 x2 y2 c) s = .next t ∧ t.Ready ∧
      s.Drawn t [⟨normWindow x1.toNat y1.toNat x2.toNat y2.toNat, List.replicate n (convertColor c)⟩] .ok
        (min (3 * n) s.cfg.capacity)

/-- 43_rasterizers.md R157 to R159, R162: DRAW_FAST_GLYPH on the panel: one stream, window `(x, y, x+7, y+12)`, its
pixel number `8j + i` the colour of source bit `(i, j)`; UnsupportedGlyph at the end for a code outside the range. -/
def Obligations.DrawFastGlyphCompletes : Prop :=
  ∀ (s : State) (x y : Word) (ch : Byte) (fg bg : Word), s.Ready →
    x.toNat + 7 < s.cfg.panelW → y.toNat + 12 < s.cfg.panelH →
    let bit := fun i j => 32 ≤ ch.toNat ∧ ch.toNat ≤ s.cfg.glyphLast ∧
      (glyphRow s.glyphs ch j).getLsbD (if s.cfg.glyphMsbLeft then 7 - i else i) = true
    let st : Status := if 32 ≤ ch.toNat ∧ ch.toNat ≤ s.cfg.glyphLast then .ok else .unsupportedGlyph
    ∃ t ds, exec (.drawFastGlyph x y ch fg bg) s = .next t ∧ t.Ready ∧ ds.length = 104 ∧
      (∀ i j, i < 8 → j < 13 → (bit i j → ds[8 * j + i]? = some (convertColor fg)) ∧
        (¬ bit i j → ds[8 * j + i]? = some (convertColor bg))) ∧
      s.Drawn t [⟨⟨x, y, x + 7, y + 12⟩, ds⟩] st (min 312 s.cfg.capacity)

/-- 43_rasterizers.md R157, R158, R160, R161: DRAW_GLYPH at scale `s >= 1` on the panel: 104 streams, number `8j + i` the
fill of the `s x s` block of source bit `(i, j)` in its colour. -/
def Obligations.DrawGlyphCompletes : Prop :=
  ∀ (s : State) (x y : Word) (ch : Byte) (fg bg sc : Word), s.Ready → sc ≠ 0 →
    x.toNat + 8 * sc.toNat - 1 < s.cfg.panelW → y.toNat + 13 * sc.toNat - 1 < s.cfg.panelH →
    let bit := fun i j => 32 ≤ ch.toNat ∧ ch.toNat ≤ s.cfg.glyphLast ∧
      (glyphRow s.glyphs ch j).getLsbD (if s.cfg.glyphMsbLeft then 7 - i else i) = true
    let st : Status := if 32 ≤ ch.toNat ∧ ch.toNat ≤ s.cfg.glyphLast then .ok else .unsupportedGlyph
    let block := fun i j => normWindow (x.toNat + i * sc.toNat) (y.toNat + j * sc.toNat)
      (x.toNat + i * sc.toNat + sc.toNat - 1) (y.toNat + j * sc.toNat + sc.toNat - 1)
    ∃ t sts, exec (.drawGlyph x y ch fg bg sc) s = .next t ∧ t.Ready ∧ sts.length = 104 ∧
      (∀ i j, i < 8 → j < 13 →
        (bit i j → sts[8 * j + i]? = some ⟨block i j, List.replicate (sc.toNat * sc.toNat) (convertColor fg)⟩) ∧
        (¬ bit i j → sts[8 * j + i]? = some ⟨block i j, List.replicate (sc.toNat * sc.toNat) (convertColor bg)⟩)) ∧
      s.Drawn t sts st (min (3 * (sc.toNat * sc.toNat)) s.cfg.capacity)

/-- 43_rasterizers.md R164: DRAW_STRING at scale `s >= 1` of `n >= 1` characters on the panel: the streams of
`draw_glyph` for each character, each cell `9s` to the right of the one before; UnsupportedGlyph at the end when one of
the codes is. -/
def Obligations.DrawStringCompletes : Prop :=
  ∀ (s : State) (x y fg bg sc : Word) (chs : List Byte), s.Ready → sc ≠ 0 → chs ≠ [] →
    x.toNat + 9 * sc.toNat * (chs.length - 1) + 8 * sc.toNat - 1 < s.cfg.panelW →
    y.toNat + 13 * sc.toNat - 1 < s.cfg.panelH →
    let st : Status := if ∀ ch ∈ chs, 32 ≤ ch.toNat ∧ ch.toNat ≤ s.cfg.glyphLast then .ok else .unsupportedGlyph
    ∃ t, exec (.drawString x y fg bg sc chs) s = .next t ∧ t.Ready ∧
      s.Drawn t ((List.range chs.length).flatMap fun k =>
        glyphStreams s.cfg s.glyphs (x.toNat + 9 * sc.toNat * k) y.toNat (chs.getD k 0) fg bg sc.toNat) st
        (min (3 * (sc.toNat * sc.toNat)) s.cfg.capacity)

/-- 43_rasterizers.md R165: DRAW_FAST_STRING of `n >= 1` characters on the panel: one stream of `draw_fast_glyph` for
each character, each cell 9 to the right of the one before. -/
def Obligations.DrawFastStringCompletes : Prop :=
  ∀ (s : State) (x y fg bg : Word) (chs : List Byte), s.Ready → chs ≠ [] →
    x.toNat + 9 * (chs.length - 1) + 7 < s.cfg.panelW → y.toNat + 12 < s.cfg.panelH →
    let st : Status := if ∀ ch ∈ chs, 32 ≤ ch.toNat ∧ ch.toNat ≤ s.cfg.glyphLast then .ok else .unsupportedGlyph
    ∃ t, exec (.drawFastString x y fg bg chs) s = .next t ∧ t.Ready ∧
      s.Drawn t ((List.range chs.length).map fun k =>
        fastGlyphStream s.cfg s.glyphs (x.toNat + 9 * k) y.toNat (chs.getD k 0) fg bg) st (min 312 s.cfg.capacity)

/-- 43_rasterizers.md R170 to R174: DRAW_BITMAP of a `w x h` bitmap at scale `s >= 1`, in the bitmap memory and on the
panel: one stream, window `(x, y, x + w*s - 1, y + h*s)`, whose pixel number `R * (w*s) + X` is `convert` of the source
pixel at row `R / s`, column `X / s`. -/
def Obligations.DrawBitmapCompletes : Prop :=
  ∀ (s : State) (x y sc : Word) (base : BitVec 32), s.Ready → sc ≠ 0 → base.toNat + 1 < s.cfg.bmemWords →
    let w := (Cells.get s.bmem base.toNat).toNat
    let h := (Cells.get s.bmem (base.toNat + 1)).toNat
    let z := sc.toNat
    w ≠ 0 → h ≠ 0 → x.toNat + w * z - 1 < s.cfg.panelW → y.toNat + h * z - 1 < s.cfg.panelH →
    base.toNat + 2 + w * h ≤ s.cfg.bmemWords →
    ∃ t ds, exec (.drawBitmap x y sc base) s = .next t ∧ t.Ready ∧ ds.length = w * z * (h * z) ∧
      (∀ row col, row < h * z → col < w * z → ds[row * (w * z) + col]? =
        some (convertColor (Cells.get s.bmem (base.toNat + 2 + row / z * w + col / z)))) ∧
      s.Drawn t [⟨normWindow x.toNat y.toNat (x.toNat + w * z - 1) (y.toNat + h * z), ds⟩] .ok
        (min (3 * (w * z * (h * z))) s.cfg.capacity)

/-- 43_rasterizers.md R164, R165, R172; 60_exceptions.md R208 item 6: a string of no characters, and a bitmap of width or
height 0, end OK and do nothing, wherever they are placed. -/
def Obligations.EmptySources : Prop :=
  ∀ s : State, s.Idle → s.Steady → s.faulted = false →
    (∀ x y fg bg sc : Word, sc ≠ 0 → ∃ t, exec (.drawString x y fg bg sc []) s = .next t ∧ s.EndsPrecisely t .ok) ∧
    (∀ x y fg bg : Word, ∃ t, exec (.drawFastString x y fg bg []) s = .next t ∧ s.EndsPrecisely t .ok) ∧
    (∀ (x y sc : Word) (base : BitVec 32), sc ≠ 0 → base.toNat + 1 < s.cfg.bmemWords →
      (Cells.get s.bmem base.toNat = 0 ∨ Cells.get s.bmem (base.toNat + 1) = 0) →
      ∃ t, exec (.drawBitmap x y sc base) s = .next t ∧ s.EndsPrecisely t .ok)

/-- 43_rasterizers.md R154: a fill's stream (of FILL_RECT, or of a block of DRAW_GLYPH) has exactly `N` pixels, `N` the
number of cells of its normalised bounds, all of them `convert(c)`; its blocks carry exactly `3N` bytes and are
`ceil(N / floor(C/3))`. FILL_RECT puts just that on the bus. -/
def Obligations.FillCount : Prop :=
  (∀ (cfg : Config) (x1 y1 x2 y2 : Nat) (c : Word), 3 ≤ cfg.capacity →
    let n := (max x1 x2 - min x1 x2 + 1) * (max y1 y2 - min y1 y2 + 1)
    let k := cfg.capacity / 3
    let ps := payloads (streamEvents cfg (fillStream x1 y1 x2 y2 c))
    (fillStream x1 y1 x2 y2 c).pixels = List.replicate n (convertColor c) ∧ ps.flatten.length = 3 * n ∧
    ps.length = (n + k - 1) / k) ∧
  ∀ (s : State) (x1 y1 x2 y2 c : Word), s.Ready →
    max x1.toNat x2.toNat < s.cfg.panelW → max y1.toNat y2.toNat < s.cfg.panelH →
    let n := (max x1.toNat x2.toNat - min x1.toNat x2.toNat + 1) * (max y1.toNat y2.toNat - min y1.toNat y2.toNat + 1)
    let k := s.cfg.capacity / 3
    let d := convertColor c
    ∃ t es, exec (.fillRect x1 y1 x2 y2 c) s = .next t ∧ t.trace = s.settled ++ s.closeEvents ++ es ∧
      (payloads es).flatten = (List.replicate n [d.r, d.g, d.b]).flatten ∧ ((payloads es).flatten).length = 3 * n ∧
      blockCount es = (n + k - 1) / k

/-- 43_rasterizers.md R163, R164, R165: how many windows and how many pixels the glyph and string operations send. -/
def Obligations.GlyphCounts : Prop :=
  ∀ (s : State) (x y fg bg : Word), s.Ready →
    (∀ ch : Byte, x.toNat + 7 < s.cfg.panelW → y.toNat + 12 < s.cfg.panelH →
      ∃ t es, exec (.drawFastGlyph x y ch fg bg) s = .next t ∧ t.trace = s.settled ++ s.closeEvents ++ es ∧
        es.count .scopeAcquire = 1 ∧ ((payloads es).flatten).length = 3 * 104) ∧
    (∀ (ch : Byte) (sc : Word), sc ≠ 0 → x.toNat + 8 * sc.toNat - 1 < s.cfg.panelW →
      y.toNat + 13 * sc.toNat - 1 < s.cfg.panelH →
      ∃ t es, exec (.drawGlyph x y ch fg bg sc) s = .next t ∧ t.trace = s.settled ++ s.closeEvents ++ es ∧
        es.count .scopeAcquire = 104 ∧ ((payloads es).flatten).length = 3 * (104 * sc.toNat ^ 2)) ∧
    (∀ (chs : List Byte) (sc : Word), sc ≠ 0 → chs ≠ [] →
      x.toNat + 9 * sc.toNat * (chs.length - 1) + 8 * sc.toNat - 1 < s.cfg.panelW →
      y.toNat + 13 * sc.toNat - 1 < s.cfg.panelH →
      ∃ t es, exec (.drawString x y fg bg sc chs) s = .next t ∧ t.trace = s.settled ++ s.closeEvents ++ es ∧
        es.count .scopeAcquire = 104 * chs.length ∧
        ((payloads es).flatten).length = 3 * (104 * sc.toNat ^ 2 * chs.length)) ∧
    (∀ chs : List Byte, chs ≠ [] → x.toNat + 9 * (chs.length - 1) + 7 < s.cfg.panelW → y.toNat + 12 < s.cfg.panelH →
      ∃ t es, exec (.drawFastString x y fg bg chs) s = .next t ∧ t.trace = s.settled ++ s.closeEvents ++ es ∧
        es.count .scopeAcquire = chs.length ∧ ((payloads es).flatten).length = 3 * (104 * chs.length))

/-- 43_rasterizers.md R158: a code outside `GLYPH_FIRST .. GLYPH_LAST` is drawn as a blank cell, every pixel `bg`, with
the windows and the pixel count of any other, and ends with UnsupportedGlyph; the glyph resource is not read. -/
def Obligations.UnsupportedGlyphBlank : Prop :=
  ∀ (s : State) (x y : Word) (ch : Byte) (fg bg : Word), s.Ready → (ch.toNat < 32 ∨ s.cfg.glyphLast < ch.toNat) →
    (x.toNat + 7 < s.cfg.panelW → y.toNat + 12 < s.cfg.panelH →
      ∃ t, exec (.drawFastGlyph x y ch fg bg) s = .next t ∧
        s.Drawn t [⟨normWindow x.toNat y.toNat (x.toNat + 7) (y.toNat + 12), List.replicate 104 (convertColor bg)⟩]
          .unsupportedGlyph (min 312 s.cfg.capacity)) ∧
    (∀ sc : Word, sc ≠ 0 → x.toNat + 8 * sc.toNat - 1 < s.cfg.panelW → y.toNat + 13 * sc.toNat - 1 < s.cfg.panelH →
      ∃ t, exec (.drawGlyph x y ch fg bg sc) s = .next t ∧
        s.Drawn t ((List.range 13).flatMap fun j => (List.range 8).map fun i =>
            ⟨normWindow (x.toNat + i * sc.toNat) (y.toNat + j * sc.toNat)
              (x.toNat + i * sc.toNat + sc.toNat - 1) (y.toNat + j * sc.toNat + sc.toNat - 1),
              List.replicate (sc.toNat * sc.toNat) (convertColor bg)⟩)
          .unsupportedGlyph (min (3 * (sc.toNat * sc.toNat)) s.cfg.capacity))

/-! ## Errors -/

/-- 60_exceptions.md R214, R205; 10_state.md R32: while `faulted = 1` every operation but CONVERT ends at once with
BusTimeout, whatever its operands, and changes nothing else; no bus event. -/
def Obligations.FaultedEnds : Prop :=
  ∀ (s : State) (i : Instr), s.Idle → s.Steady → s.faulted = true → (∀ c, i ≠ .convert c) →
    ∃ t, exec i s = .next t ∧ s.EndsPrecisely t .busTimeout

/-- 60_exceptions.md R205, R206: a footprint that leaves the panel ends the operation with InvalidWindow before any bus
event; nothing else changes, and an open stream stays open. The earlier checks of R208 are the other premises. -/
def Obligations.OffPanelEnds : Prop :=
  ∀ s : State, s.Idle → s.Steady → s.faulted = false →
    (∀ x y c : Word, (s.cfg.panelW ≤ x.toNat ∨ s.cfg.panelH ≤ y.toNat) →
      ∃ t, exec (.drawPixel x y c) s = .next t ∧ s.EndsPrecisely t .invalidWindow) ∧
    (∀ x1 y1 x2 y2 c : Word, (s.cfg.panelW ≤ max x1.toNat x2.toNat ∨ s.cfg.panelH ≤ max y1.toNat y2.toNat) →
      ∃ t, exec (.fillRect x1 y1 x2 y2 c) s = .next t ∧ s.EndsPrecisely t .invalidWindow) ∧
    (∀ x1 y1 x2 y2 : Word, (s.cfg.panelW ≤ max x1.toNat x2.toNat ∨ s.cfg.panelH ≤ max y1.toNat y2.toNat) →
      ∃ t, exec (.setWindow x1 y1 x2 y2) s = .next t ∧ s.EndsPrecisely t .invalidWindow) ∧
    (∀ (x y : Word) (ch : Byte) (fg bg : Word), (s.cfg.panelW ≤ x.toNat + 7 ∨ s.cfg.panelH ≤ y.toNat + 12) →
      ∃ t, exec (.drawFastGlyph x y ch fg bg) s = .next t ∧ s.EndsPrecisely t .invalidWindow) ∧
    (∀ (x y : Word) (ch : Byte) (fg bg sc : Word), sc ≠ 0 →
      (s.cfg.panelW ≤ x.toNat + 8 * sc.toNat - 1 ∨ s.cfg.panelH ≤ y.toNat + 13 * sc.toNat - 1) →
      ∃ t, exec (.drawGlyph x y ch fg bg sc) s = .next t ∧ s.EndsPrecisely t .invalidWindow) ∧
    (∀ (x y fg bg sc : Word) (chs : List Byte), sc ≠ 0 → chs ≠ [] →
      (s.cfg.panelW ≤ x.toNat + 9 * sc.toNat * (chs.length - 1) + 8 * sc.toNat - 1 ∨
        s.cfg.panelH ≤ y.toNat + 13 * sc.toNat - 1) →
      ∃ t, exec (.drawString x y fg bg sc chs) s = .next t ∧ s.EndsPrecisely t .invalidWindow) ∧
    (∀ (x y fg bg : Word) (chs : List Byte), chs ≠ [] →
      (s.cfg.panelW ≤ x.toNat + 9 * (chs.length - 1) + 7 ∨ s.cfg.panelH ≤ y.toNat + 12) →
      ∃ t, exec (.drawFastString x y fg bg chs) s = .next t ∧ s.EndsPrecisely t .invalidWindow) ∧
    (∀ (x y sc : Word) (base : BitVec 32), sc ≠ 0 → base.toNat + 1 < s.cfg.bmemWords →
      let w := (Cells.get s.bmem base.toNat).toNat
      let h := (Cells.get s.bmem (base.toNat + 1)).toNat
      w ≠ 0 → h ≠ 0 →
      (s.cfg.panelW ≤ x.toNat + w * sc.toNat - 1 ∨ s.cfg.panelH ≤ y.toNat + h * sc.toNat - 1) →
      ∃ t, exec (.drawBitmap x y sc base) s = .next t ∧ s.EndsPrecisely t .invalidWindow)

/-- 00_scope.md R9; 60_exceptions.md R208 item 4: scale 0 ends with InvalidWindow, before every later check, and changes
nothing else. -/
def Obligations.ScaleZeroEnds : Prop :=
  ∀ s : State, s.Idle → s.Steady → s.faulted = false →
    (∀ (x y : Word) (ch : Byte) (fg bg : Word),
      ∃ t, exec (.drawGlyph x y ch fg bg 0) s = .next t ∧ s.EndsPrecisely t .invalidWindow) ∧
    (∀ (x y fg bg : Word) (chs : List Byte),
      ∃ t, exec (.drawString x y fg bg 0 chs) s = .next t ∧ s.EndsPrecisely t .invalidWindow) ∧
    (∀ (x y : Word) (base : BitVec 32),
      ∃ t, exec (.drawBitmap x y 0 base) s = .next t ∧ s.EndsPrecisely t .invalidWindow)

/-- 43_rasterizers.md R171, with R172 and 60_exceptions.md R208 items 5 and 8: a header outside the bitmap memory, and
pixels outside it, end DRAW_BITMAP with MemoryFault before any bus event. -/
def Obligations.MemoryFaultEnds : Prop :=
  ∀ (s : State) (x y sc : Word) (base : BitVec 32), s.Idle → s.Steady → s.faulted = false → sc ≠ 0 →
    (s.cfg.bmemWords ≤ base.toNat + 1 →
      ∃ t, exec (.drawBitmap x y sc base) s = .next t ∧ s.EndsPrecisely t .memoryFault) ∧
    (base.toNat + 1 < s.cfg.bmemWords →
      let w := (Cells.get s.bmem base.toNat).toNat
      let h := (Cells.get s.bmem (base.toNat + 1)).toNat
      w ≠ 0 → h ≠ 0 → x.toNat + w * sc.toNat - 1 < s.cfg.panelW → y.toNat + h * sc.toNat - 1 < s.cfg.panelH →
      s.cfg.bmemWords < base.toNat + 2 + w * h →
      ∃ t, exec (.drawBitmap x y sc base) s = .next t ∧ s.EndsPrecisely t .memoryFault)

/-- 42_staging_manager.md R132; 41_window_sequencer.md R114: PUSH_PIXEL with no stream open ends with IllegalOperation;
no byte is written. -/
def Obligations.PushWithoutStream : Prop :=
  ∀ (s : State) (c : Word), s.Idle → s.Steady → s.faulted = false → s.streamOpen = false →
    ∃ t, exec (.pushPixel c) s = .next t ∧ s.EndsPrecisely t .illegalOperation ∧ s.BufsKept t

/-- 60_exceptions.md R203: which operation can end with which code, whatever the other agents do. -/
def Obligations.StatusTable : Prop :=
  (∀ (i : Instr) (s t : State), s.Idle → exec i s = .next t → t.busy = false → mayEndWith i t.status = true) ∧
  ∀ (ws : List Word) (e : DecodeError) (s t : State), s.Idle → decode ws = .error e → submit ws s = .next t →
    t.status = .illegalOperation

/-! ## Invariants of the whole machine -/

/-- Every step of every agent keeps the invariant: memories stay in canonical form, cursors in range and multiples of 3,
the bus trace in its grammar, the buffer in flight apart from the active one. So do a step of the machine, which runs a
whole operation, and each single step within one, whichever agent takes it; and an accepted operation starts in the
invariant. (That a step of the machine runs a whole operation is the model's choice, log entry 9.) -/
def Obligations.StepKeepsInvariant : Prop :=
  (∀ s t : State, s.Inv → step s = .next t → t.Inv) ∧
  (∀ s t : State, s.Inv → s.busy = true → tick s = .moved t → t.Inv) ∧
  ∀ (i : Instr) (s : State), s.Idle → ∃ steps, exec i s = runOp (s.accept i steps) ∧ (s.accept i steps).Inv

/-- 60_exceptions.md R201, R212; 70_reset_and_hazards.md R248; 10_state.md R44: the run has ended exactly where R248's four
conditions hold. A step of a machine that keeps the invariant answers a next state, unless the engine is stuck, or the run
has ended, or the core rests with a block outstanding that its transport never completes (the faults are the model's, log
entries 9 and 14). In particular no buffer write passes `C`, and no unwritten buffer byte is handed over. -/
def Obligations.StepOutcomes : Prop :=
  (∀ s : State, s.cfg.Legal → (step s = .fault .runEnded ↔
    s.host = [] ∧ s.busy = false ∧ (s.inFlight = false ∨ s.faulted = true ∧ s.tail = .silent) ∧ s.moves = [])) ∧
  ∀ s : State, s.Inv →
    (∃ t, step s = .next t) ∨
    (s.busy = true ∧ s.held = true ∧ s.cfg.timeoutEnabled = false ∧ s.envMove = none ∧ step s = .fault .engineStuck) ∨
    (s.ended = true ∧ step s = .fault .runEnded) ∨
    (s.busy = false ∧ s.host = [] ∧ s.moves = [] ∧ s.tail = .silent ∧ s.inFlight = true ∧ s.faulted = false ∧
      step s = .fault .transportSilent)

/-- 10_state.md R39: whenever the machine rests after a step, the buffer in flight is not the active one in ASYNC mode; in
BLOCKING mode it is buffer 0, and the engine waits or the core is faulted. (The model rests where R39 is meant to hold:
log entry 5.) -/
def Obligations.ExclusiveOwnership : Prop :=
  ∀ s t : State, s.Inv → step s = .next t → t.inFlight = true →
    (t.cfg.mode = .async → ∃ len, t.xfer = some (t.active.other, len)) ∧
    (t.cfg.mode = .blocking → (∃ len, t.xfer = some (.b0, len)) ∧
      (t.faulted = true ∨ (t.busy = true ∧ ∃ k, t.cont = .waitIdle :: k)))

/-- 10_state.md R40: a block is outstanding only while a stream is open or the core is faulted. -/
def Obligations.InFlightNeedsStream : Prop :=
  ∀ s : State, s.Inv → s.inFlight = true → s.streamOpen = true ∨ s.faulted = true

/-- 10_state.md R41: wherever the engine is about to write a pixel, it fits, and the buffer is not the one in flight. -/
def Obligations.BufferWritesInBounds : Prop :=
  ∀ (s : State) (p : Ink) (k : List EStep), s.Inv → s.busy = true → s.cont = .store p :: k →
    s.cursor s.active + 3 ≤ s.cfg.capacity ∧ ¬ (s.inFlight = true ∧ ∃ len, s.xfer = some (s.active, len))

/-- 10_state.md R44; 20_memory.md R67: wherever the engine is about to hand a buffer over, each of its first `cursor`
bytes has been written, and no other block is outstanding. -/
def Obligations.IssuedBytesWritten : Prop :=
  ∀ (s : State) (k : List EStep), s.Inv → s.busy = true → s.cont = .issue :: k →
    s.inFlight = false ∧ 3 ≤ s.cursor s.flushIx ∧
      ∀ a, a < s.cursor s.flushIx → ∃ b, Memory.read? (s.buf s.flushIx) a = some b

/-- 70_reset_and_hazards.md R241; 20_memory.md R56, R57: with a transport that keeps its contract, an operation's events
hold one `Done` right after each block, as many `Done`s as blocks, and keep to the scopes of the bus. -/
def Obligations.CompletionsMatchBlocks : Prop :=
  ∀ (i : Instr) (s t : State), s.Ready → exec i s = .next t →
    ∃ es, t.settled = s.settled ++ es ∧
      (∀ pre m bs post, es = pre ++ .block m bs :: post → ∃ rest, post = .done :: rest) ∧
      es.count .done = blockCount es ∧
      BusPhase.scan (BusPhase.of s.streamOpen false) es = some (BusPhase.of t.streamOpen false)

/-- 10_state.md R21, R43; 20_memory.md R72; 70_reset_and_hazards.md R239: no step of any agent changes the configuration, and
a reset latches the one it is given. The resources change by nothing but the host's write of one cell, which changes that
cell alone (in memories in canonical form, which StepKeepsInvariant keeps). A read of the core (of a pixel's word, of a glyph's row, of a bitmap's header) returns the cell, unless the
host has changed the cell since the operation was accepted: then it returns a free value. The form of the host's writes and
of the free values, and from when on a cell is unstable, are the model's choice (log entry 17); so is that a reset keeps
the resources (log entry 12). -/
def Obligations.ConfigurationFixed : Prop :=
  (∀ s t : State, step s = .next t → t.cfg = s.cfg ∧ (s.Steady → t.bmem = s.bmem ∧ t.glyphs = s.glyphs)) ∧
  (∀ (c : Config) (s : State), (State.takeReset c s).cfg = c ∧ (State.takeReset c s).bmem = s.bmem ∧
    (State.takeReset c s).glyphs = s.glyphs) ∧
  (∀ (s : State) (ms : List Move) (a : Nat) (w : Word), Memory.wfZero s.bmem → s.moves = .loadWord a w :: ms →
    ∃ t, s.envMove = some t ∧ (∀ b, memRead t.bmem b = if b = a then w else memRead s.bmem b) ∧
      (∀ x, x ∈ t.changed ↔ x ∈ s.changed ∨ s.busy = true ∧ x = .word a) ∧
      { t with bmem := s.bmem, changed := s.changed, moves := s.moves } = s) ∧
  (∀ (s : State) (ms : List Move) (code : Byte) (j : Fin 13) (v : Byte), Memory.wfZero s.glyphs →
    s.moves = .loadRow code j v :: ms →
    ∃ t, s.envMove = some t ∧
      (∀ (c : Byte) (i : Fin 13), glyphRow t.glyphs c i = if c = code ∧ i = j then v else glyphRow s.glyphs c i) ∧
      (∀ x, x ∈ t.changed ↔ x ∈ s.changed ∨ s.busy = true ∧ x = .row code j) ∧
      { t with glyphs := s.glyphs, changed := s.changed, moves := s.moves } = s) ∧
  (∀ (s t : State) (p : Ink) (k : List EStep), s.busy = true → s.envMove = none → s.cont = .store p :: k →
    tick s = .moved t →
    let stored := fun c : Word => (List.range 3).map (fun n => Memory.read? (t.buf s.active) (s.cursor s.active + n)) =
      (convertColor c).bytes.map some
    (∀ c, p = .color c → stored c ∧ t.draws = s.draws) ∧
    (∀ a, p = .word a →
      (.word a ∉ s.changed → stored (memRead s.bmem a) ∧ t.draws = s.draws) ∧
      (.word a ∈ s.changed → stored (Config.freeWord s.draws) ∧ t.draws = s.draws + 1)) ∧
    ∀ code i j fg bg, p = .bit code i j fg bg →
      let colour := fun row : Byte => if row.getLsbD (if s.cfg.glyphMsbLeft then 7 - i else i) = true then fg else bg
      (code.toNat < 32 ∨ s.cfg.glyphLast < code.toNat → stored bg ∧ t.draws = s.draws) ∧
      (32 ≤ code.toNat → code.toNat ≤ s.cfg.glyphLast →
        (.row code j ∉ s.changed → stored (colour (glyphRow s.glyphs code j)) ∧ t.draws = s.draws) ∧
        (.row code j ∈ s.changed → stored (colour (Config.freeRow s.draws)) ∧ t.draws = s.draws + 1))) ∧
  ∀ (s : State) (x y sc : Word) (base : BitVec 32) (k : List EStep), s.busy = true → s.envMove = none →
    s.cont = .readHeader x y sc base :: k →
    let b := base.toNat
    let n := if Source.word b ∈ s.changed then s.draws + 1 else s.draws
    let wd := if Source.word b ∈ s.changed then Config.freeWord s.draws else memRead s.bmem b
    let ht := if Source.word (b + 1) ∈ s.changed then Config.freeWord n else memRead s.bmem (b + 1)
    tick s = .moved { s.dropStay with
      cont := bitmapSteps s.cfg x y sc base wd ht ++ k
      draws := if Source.word (b + 1) ∈ s.changed then n + 1 else n }

/-- 10_state.md R35, R31: `result` is written by CONVERT only, and `win` by no operation that sends no window. -/
def Obligations.ResultAndWindowWriters : Prop :=
  ∀ (i : Instr) (s t : State), exec i s = .next t →
    ((∀ c, i ≠ .convert c) → t.result = s.result) ∧
    (i = .finish ∨ (∃ c, i = .pushPixel c) ∨ (∃ c, i = .convert c) → t.win = s.win)

/-- 10_state.md R34; 70_reset_and_hazards.md R243: `status` is written only when an operation ends: while one is under
way it is still the previous one's, and the moves of other agents in an idle machine leave it alone. -/
def Obligations.StatusWrittenAtEnd : Prop :=
  ∀ s t : State, step s = .next t →
    (t.busy = true → t.status = s.status) ∧ (s.busy = false → s.envMove = some t → t.status = s.status)

/-- 10_state.md R33; 70_reset_and_hazards.md R242: while `busy = 1` the port takes no descriptor: no step of a busy machine
takes one from the host's queue. R33 gives the host no submit step then, and R242 calls it a hold; that a meaning applied to a
busy core answers the fault `portBusy` is the model's way to say so (log entry 10). -/
def Obligations.BusyPortTakesNothing : Prop :=
  (∀ s t : State, s.busy = true → step s = .next t → t.host = s.host) ∧
  ∀ (i : Instr) (s : State), s.cfg.Legal → s.busy = true → exec i s = .fault .portBusy

/-- 42_staging_manager.md R134; 93_implementation_defined.md U18; 00_scope.md R7: a configuration outside the ranges of R7 is
refused. R134 says so of `C` below 3, and U18 of the panel size; that the model refuses the other bounds of R7 alike is its
own choice (log entry 13). -/
def Obligations.IllegalConfigurationRefused : Prop :=
  ∀ s : State, (s.cfg.capacity < 3 ∨ 65535 < s.cfg.capacity ∨ s.cfg.panelW = 0 ∨ 65535 < s.cfg.panelW ∨
      s.cfg.panelH = 0 ∨ 65535 < s.cfg.panelH ∨ s.cfg.glyphLast < 32 ∨ 255 < s.cfg.glyphLast ∨
      2 ^ 32 < s.cfg.bmemWords) →
    step s = .refused .illegalConfiguration ∧ ∀ i, exec i s = .refused .illegalConfiguration

/-! ## The other agents -/

/-- 42_staging_manager.md R127, R128: TransferDone is enabled exactly while `in_flight = 1`; it emits `Done`, clears
`in_flight` and `xfer`, and changes nothing else (but the queue of moves it stands in). How it comes to be next is the model's
choice (log entry 6): it stands first in the list of moves, or the list is used up and the transport is lazy. A lazy transport
takes it when neither the engine nor the host's submit has a step, in a busy machine and beside an idle core. -/
def Obligations.TransferDoneStep : Prop :=
  (∀ (s : State) (ms : List Move), s.moves = .done :: ms →
    (s.inFlight = false → s.envMove = none) ∧
    (s.inFlight = true →
      (s.busy = true → tick s = .moved { s with moves := ms, trace := s.trace ++ [.done], inFlight := false, xfer := none }) ∧
      (s.busy = false → s.cfg.Legal →
        step s = .next { s with moves := ms, trace := s.trace ++ [.done], inFlight := false, xfer := none }))) ∧
  ∀ s : State, s.moves = [] → s.tail = .lazy →
    (s.inFlight = false ∨ (s.busy = true ∧ s.held = false) ∨ (s.busy = false ∧ s.host ≠ []) → s.envMove = none) ∧
    (s.busy = true → s.held = true →
      tick s = .moved { s with trace := s.trace ++ [.done], inFlight := false, xfer := none }) ∧
    (s.busy = false → s.host = [] → s.inFlight = true → s.cfg.Legal →
      step s = .next { s with trace := s.trace ++ [.done], inFlight := false, xfer := none })

/-- 60_exceptions.md R207, R213: where the configuration has the timeout event and it is the next to be taken, it is enabled
exactly at a wait with a block outstanding; it ends the operation with BusTimeout, releases the scope, sets `faulted`, and
leaves the block outstanding and cursors, `active`, buffers, `win` and `result` as they are. How a timeout comes to be next
is the model's choice (log entry 6): it stands first in the list of moves, or it is the only step left beside a silent
transport; and where the configuration has no timeout event, one in the list is passed over. -/
def Obligations.TimeoutAborts : Prop :=
  (∀ (s : State) (ms : List Move), s.cfg.timeoutEnabled = false → s.moves = .timeout :: ms →
    s.envMove = some { s with moves := ms }) ∧
  ∀ (s : State) (ms : List Move), s.cfg.timeoutEnabled = true →
    (s.moves = .timeout :: ms ∨ s.moves = [] ∧ ms = [] ∧ s.tail = .silent) →
    (s.held = false → s.envMove = none) ∧
    (s.held = true → s.cfg.Legal →
      ∃ t, step s = .next t ∧ t.status = .busTimeout ∧ t.busy = false ∧ t.cont = [] ∧ t.faulted = true ∧
        t.streamOpen = false ∧
        t.trace = s.trace ++ (if s.streamOpen = true then [.scopeRelease] else []) ∧
        t.inFlight = true ∧ t.xfer = s.xfer ∧ t.cursor0 = s.cursor0 ∧ t.cursor1 = s.cursor1 ∧ t.active = s.active ∧
        t.buf0 = s.buf0 ∧ t.buf1 = s.buf1 ∧ t.win = s.win ∧ t.result = s.result ∧ t.cfg = s.cfg ∧ t.host = s.host ∧
        t.moves = ms)

/-- 10_state.md R32; 60_exceptions.md R213, R216: no step clears `faulted`, and none sets it but a timeout event, where
the configuration has one; the operation then ends with BusTimeout. -/
def Obligations.OnlyTimeoutFaults : Prop :=
  ∀ s t : State, step s = .next t →
    (s.faulted = true → t.faulted = true) ∧
    (s.faulted = false → t.faulted = true →
      s.cfg.timeoutEnabled = true ∧ (.timeout ∈ s.moves ∨ s.tail = .silent) ∧ t.status = .busTimeout ∧ t.busy = false)

/-- 60_exceptions.md R212: at a wait with a block outstanding, a transport that never completes it and no timeout, the
engine is stuck: the machine has no step, and the host reads BUSY and IN_FLIGHT as 1. -/
def Obligations.HangIsStuck : Prop :=
  ∀ s : State, s.cfg.Legal → s.held = true → s.moves = [] → s.tail = .silent → s.cfg.timeoutEnabled = false →
    step s = .fault .engineStuck ∧ s.stuck = true ∧ (s.readReg 3).getLsbD 0 = true ∧ (s.readReg 3).getLsbD 1 = true

/-- 42_staging_manager.md R131; 60_exceptions.md R212: with a transport that never completes a block, DRAW_PIXEL hangs
after its block, with the status of the operation before it. (How a silent transport is written is the model's choice, log
entry 6.) -/
def Obligations.SilentTransportHangs : Prop :=
  ∀ (s : State) (x y c : Word), s.Idle → s.faulted = false → s.streamOpen = false → s.moves = [] → s.tail = .silent →
    s.cfg.timeoutEnabled = false → x.toNat < s.cfg.panelW → y.toNat < s.cfg.panelH →
    let d := convertColor c
    ∃ t, exec (.drawPixel x y c) s = .next t ∧ t.busy = true ∧ t.inFlight = true ∧ t.status = s.status ∧
      t.trace = s.trace ++ windowEvents s.cfg ⟨x, y, x + 1, y + 1⟩ ++ [.block s.cfg.mode [d.r, d.g, d.b]] ∧
      step t = .fault .engineStuck

/-- 42_staging_manager.md R129, R124: in ASYNC mode, with a transport that is slow to complete, PUSH_PIXEL waits only
where its push fills the buffer while the block before is still outstanding; else it ends without waiting, a new block
in flight when it filled the buffer. (How a slow transport is written is the model's choice, log entry 6.) -/
def Obligations.Backpressure : Prop :=
  ∀ (s : State) (c : Word), s.Idle → s.faulted = false → s.streamOpen = true → s.cfg.mode = .async →
    s.moves = [] → s.tail = .silent → s.cfg.timeoutEnabled = false →
    let d := convertColor c
    let full : Prop := s.cfg.capacity < s.cursor s.active + 3 + 3
    (¬ full → ∃ t, exec (.pushPixel c) s = .next t ∧ t.busy = false ∧ t.status = .ok ∧ t.inFlight = s.inFlight ∧
      t.xfer = s.xfer ∧ t.trace = s.trace ∧ t.active = s.active) ∧
    (full → s.inFlight = false → ∃ t, exec (.pushPixel c) s = .next t ∧ t.busy = false ∧ t.status = .ok ∧
      t.inFlight = true ∧ t.xfer = some (s.active, 3 * (s.cfg.capacity / 3)) ∧ t.active = s.active.other ∧
      t.trace = s.trace ++ [.block .async (s.staged ++ [d.r, d.g, d.b])] ∧ t.cursor s.active = 0) ∧
    (full → s.inFlight = true → ∃ t, exec (.pushPixel c) s = .next t ∧ t.busy = true ∧ t.held = true ∧
      t.trace = s.trace ∧ (∃ len, t.xfer = some (t.active.other, len)) ∧ t.active = s.active ∧
      step t = .fault .engineStuck)

/-- 60_exceptions.md R209; 42_staging_manager.md R127: where every block is completed at some time and no timeout is
taken, what an operation does does not depend on when TransferDone and register reads fall: two states that differ only
in those give the same end, up to those. (How a schedule is written is the model's choice, log entry 6.) -/
def Obligations.ScheduleIndependence : Prop :=
  ∀ (i : Instr) (s s' : State), s.Idle → s'.Idle → s.Quiet → s'.Quiet → s.calm = s'.calm →
    ∃ t t', exec i s = .next t ∧ exec i s' = .next t' ∧ t.calm = t'.calm

/-! ## Panel contents, by the reference receiver (20_memory.md R60) -/

/-- 20_memory.md R60; 41_window_sequencer.md R115: a receiver that reads a stream's events, its window inside the panel
and its pixels no more than the window's cells, puts pixel number `k` at the window's cell number `k` in row-major order,
leaves every other cell as it was, and meets no case without a meaning (log entry 15). -/
def Obligations.StreamLands : Prop :=
  ∀ (c : Config) (r : Receiver) (st : Stream), 3 ≤ c.capacity → CommandsDistinct c →
    st.win.x1.toNat ≤ st.win.x2.toNat → st.win.y1.toNat ≤ st.win.y2.toNat →
    st.win.x2.toNat < c.panelW → st.win.y2.toNat < c.panelH →
    let w := st.win.x2.toNat - st.win.x1.toNat + 1
    let h := st.win.y2.toNat - st.win.y1.toNat + 1
    st.pixels.length ≤ w * h →
    (r.run c (streamEvents c st)).meaningless = r.meaningless ∧
    ∀ x y,
      let k := (y - st.win.y1.toNat) * w + (x - st.win.x1.toNat)
      (r.run c (streamEvents c st)).at x y =
        if st.win.x1.toNat ≤ x ∧ x ≤ st.win.x2.toNat ∧ st.win.y1.toNat ≤ y ∧ k < st.pixels.length then st.pixels[k]?
        else r.at x y

/-- 43_rasterizers.md R151: by the reference receiver DRAW_PIXEL's pixel lands at `(x, y)`, and no other cell is written,
where the window's end is inside the panel. -/
def Obligations.PixelLands : Prop :=
  ∀ (s : State) (x y c : Word), s.Ready → CommandsDistinct s.cfg →
    x.toNat + 1 < s.cfg.panelW → y.toNat + 1 < s.cfg.panelH →
    ∃ t es, exec (.drawPixel x y c) s = .next t ∧ t.trace = s.settled ++ s.closeEvents ++ es ∧
      ∀ r : Receiver, (r.run s.cfg es).meaningless = r.meaningless ∧
        ∀ a b, (r.run s.cfg es).at a b = if a = x.toNat ∧ b = y.toNat then some (convertColor c) else r.at a b

/-- 43_rasterizers.md R174, R173: by the reference receiver DRAW_BITMAP fills the rows `y .. y + h*s - 1` of its columns
with `s x s` blocks of the source pixels and writes no other cell, where the window's end row is inside the panel. -/
def Obligations.BitmapLands : Prop :=
  ∀ (s : State) (x y sc : Word) (base : BitVec 32), s.Ready → CommandsDistinct s.cfg → sc ≠ 0 →
    base.toNat + 1 < s.cfg.bmemWords →
    let w := (Cells.get s.bmem base.toNat).toNat
    let h := (Cells.get s.bmem (base.toNat + 1)).toNat
    let z := sc.toNat
    w ≠ 0 → h ≠ 0 → x.toNat + w * z - 1 < s.cfg.panelW → y.toNat + h * z < s.cfg.panelH →
    base.toNat + 2 + w * h ≤ s.cfg.bmemWords →
    ∃ t es, exec (.drawBitmap x y sc base) s = .next t ∧ t.trace = s.settled ++ s.closeEvents ++ es ∧
      ∀ r : Receiver, (r.run s.cfg es).meaningless = r.meaningless ∧
        ∀ a b, (r.run s.cfg es).at a b =
          if x.toNat ≤ a ∧ a < x.toNat + w * z ∧ y.toNat ≤ b ∧ b < y.toNat + h * z then
            some (convertColor (Cells.get s.bmem (base.toNat + 2 + (b - y.toNat) / z * w + (a - x.toNat) / z)))
          else r.at a b
end

