-- ==== Sys2Proof/Laws/State.lean ====
section
/-! SUPPORT. What each update of the state does to each field, one lemma each, so that no later proof unfolds a record
update. -/

namespace Sys2Proof.Machine.State

@[simp] theorem raise_eq (s : State) (code : Status) : s.raise code = s.endOp code := rfl
@[simp] theorem timeoutEvent_eq (s : State) : s.timeoutEvent = s.abort.endOp .busTimeout := rfl

/-! ## emit -/

@[simp] theorem emit_cfg (s : State) (e : Event) : (s.emit e).cfg = s.cfg := rfl
@[simp] theorem emit_bmem (s : State) (e : Event) : (s.emit e).bmem = s.bmem := rfl
@[simp] theorem emit_glyphs (s : State) (e : Event) : (s.emit e).glyphs = s.glyphs := rfl
@[simp] theorem emit_opCode (s : State) (e : Event) : (s.emit e).opCode = s.opCode := rfl
@[simp] theorem emit_opWords (s : State) (e : Event) : (s.emit e).opWords = s.opWords := rfl
@[simp] theorem emit_cont (s : State) (e : Event) : (s.emit e).cont = s.cont := rfl
@[simp] theorem emit_buf0 (s : State) (e : Event) : (s.emit e).buf0 = s.buf0 := rfl
@[simp] theorem emit_buf1 (s : State) (e : Event) : (s.emit e).buf1 = s.buf1 := rfl
@[simp] theorem emit_cursor0 (s : State) (e : Event) : (s.emit e).cursor0 = s.cursor0 := rfl
@[simp] theorem emit_cursor1 (s : State) (e : Event) : (s.emit e).cursor1 = s.cursor1 := rfl
@[simp] theorem emit_active (s : State) (e : Event) : (s.emit e).active = s.active := rfl
@[simp] theorem emit_inFlight (s : State) (e : Event) : (s.emit e).inFlight = s.inFlight := rfl
@[simp] theorem emit_xfer (s : State) (e : Event) : (s.emit e).xfer = s.xfer := rfl
@[simp] theorem emit_streamOpen (s : State) (e : Event) : (s.emit e).streamOpen = s.streamOpen := rfl
@[simp] theorem emit_win (s : State) (e : Event) : (s.emit e).win = s.win := rfl
@[simp] theorem emit_faulted (s : State) (e : Event) : (s.emit e).faulted = s.faulted := rfl
@[simp] theorem emit_busy (s : State) (e : Event) : (s.emit e).busy = s.busy := rfl
@[simp] theorem emit_status (s : State) (e : Event) : (s.emit e).status = s.status := rfl
@[simp] theorem emit_result (s : State) (e : Event) : (s.emit e).result = s.result := rfl
@[simp] theorem emit_trace (s : State) (e : Event) : (s.emit e).trace = s.trace ++ [e] := rfl
@[simp] theorem emit_host (s : State) (e : Event) : (s.emit e).host = s.host := rfl
@[simp] theorem emit_moves (s : State) (e : Event) : (s.emit e).moves = s.moves := rfl
@[simp] theorem emit_tail (s : State) (e : Event) : (s.emit e).tail = s.tail := rfl
@[simp] theorem emit_hostReads (s : State) (e : Event) : (s.emit e).hostReads = s.hostReads := rfl
@[simp] theorem emit_changed (s : State) (e : Event) : (s.emit e).changed = s.changed := rfl
@[simp] theorem emit_draws (s : State) (e : Event) : (s.emit e).draws = s.draws := rfl

/-! ## endOp -/

@[simp] theorem endOp_cfg (s : State) (st : Status) : (s.endOp st).cfg = s.cfg := rfl
@[simp] theorem endOp_bmem (s : State) (st : Status) : (s.endOp st).bmem = s.bmem := rfl
@[simp] theorem endOp_glyphs (s : State) (st : Status) : (s.endOp st).glyphs = s.glyphs := rfl
@[simp] theorem endOp_opCode (s : State) (st : Status) : (s.endOp st).opCode = Config.freeOpCode s.draws := rfl
@[simp] theorem endOp_opWords (s : State) (st : Status) : (s.endOp st).opWords = Config.freeOpWords s.draws := rfl
@[simp] theorem endOp_cont (s : State) (st : Status) : (s.endOp st).cont = [] := rfl
@[simp] theorem endOp_buf0 (s : State) (st : Status) : (s.endOp st).buf0 = s.buf0 := rfl
@[simp] theorem endOp_buf1 (s : State) (st : Status) : (s.endOp st).buf1 = s.buf1 := rfl
@[simp] theorem endOp_cursor0 (s : State) (st : Status) : (s.endOp st).cursor0 = s.cursor0 := rfl
@[simp] theorem endOp_cursor1 (s : State) (st : Status) : (s.endOp st).cursor1 = s.cursor1 := rfl
@[simp] theorem endOp_active (s : State) (st : Status) : (s.endOp st).active = s.active := rfl
@[simp] theorem endOp_inFlight (s : State) (st : Status) : (s.endOp st).inFlight = s.inFlight := rfl
@[simp] theorem endOp_xfer (s : State) (st : Status) : (s.endOp st).xfer = s.xfer := rfl
@[simp] theorem endOp_streamOpen (s : State) (st : Status) : (s.endOp st).streamOpen = s.streamOpen := rfl
@[simp] theorem endOp_win (s : State) (st : Status) : (s.endOp st).win = s.win := rfl
@[simp] theorem endOp_faulted (s : State) (st : Status) : (s.endOp st).faulted = s.faulted := rfl
@[simp] theorem endOp_busy (s : State) (st : Status) : (s.endOp st).busy = false := rfl
@[simp] theorem endOp_status (s : State) (st : Status) : (s.endOp st).status = st := rfl
@[simp] theorem endOp_result (s : State) (st : Status) : (s.endOp st).result = s.result := rfl
@[simp] theorem endOp_trace (s : State) (st : Status) : (s.endOp st).trace = s.trace := rfl
@[simp] theorem endOp_host (s : State) (st : Status) : (s.endOp st).host = s.host := rfl
@[simp] theorem endOp_moves (s : State) (st : Status) : (s.endOp st).moves = s.moves := rfl
@[simp] theorem endOp_tail (s : State) (st : Status) : (s.endOp st).tail = s.tail := rfl
@[simp] theorem endOp_hostReads (s : State) (st : Status) : (s.endOp st).hostReads = s.hostReads := rfl
@[simp] theorem endOp_changed (s : State) (st : Status) : (s.endOp st).changed = [] := rfl
@[simp] theorem endOp_draws (s : State) (st : Status) : (s.endOp st).draws = s.draws + 1 := rfl

/-! ## transferDone -/

@[simp] theorem transferDone_cfg (s : State) : s.transferDone.cfg = s.cfg := rfl
@[simp] theorem transferDone_bmem (s : State) : s.transferDone.bmem = s.bmem := rfl
@[simp] theorem transferDone_glyphs (s : State) : s.transferDone.glyphs = s.glyphs := rfl
@[simp] theorem transferDone_opCode (s : State) : s.transferDone.opCode = s.opCode := rfl
@[simp] theorem transferDone_opWords (s : State) : s.transferDone.opWords = s.opWords := rfl
@[simp] theorem transferDone_cont (s : State) : s.transferDone.cont = s.cont := rfl
@[simp] theorem transferDone_buf0 (s : State) : s.transferDone.buf0 = s.buf0 := rfl
@[simp] theorem transferDone_buf1 (s : State) : s.transferDone.buf1 = s.buf1 := rfl
@[simp] theorem transferDone_cursor0 (s : State) : s.transferDone.cursor0 = s.cursor0 := rfl
@[simp] theorem transferDone_cursor1 (s : State) : s.transferDone.cursor1 = s.cursor1 := rfl
@[simp] theorem transferDone_active (s : State) : s.transferDone.active = s.active := rfl
@[simp] theorem transferDone_inFlight (s : State) : s.transferDone.inFlight = false := rfl
@[simp] theorem transferDone_xfer (s : State) : s.transferDone.xfer = none := rfl
@[simp] theorem transferDone_streamOpen (s : State) : s.transferDone.streamOpen = s.streamOpen := rfl
@[simp] theorem transferDone_win (s : State) : s.transferDone.win = s.win := rfl
@[simp] theorem transferDone_faulted (s : State) : s.transferDone.faulted = s.faulted := rfl
@[simp] theorem transferDone_busy (s : State) : s.transferDone.busy = s.busy := rfl
@[simp] theorem transferDone_status (s : State) : s.transferDone.status = s.status := rfl
@[simp] theorem transferDone_result (s : State) : s.transferDone.result = s.result := rfl
@[simp] theorem transferDone_trace (s : State) : s.transferDone.trace = s.trace ++ [.done] := rfl
@[simp] theorem transferDone_host (s : State) : s.transferDone.host = s.host := rfl
@[simp] theorem transferDone_moves (s : State) : s.transferDone.moves = s.moves := rfl
@[simp] theorem transferDone_tail (s : State) : s.transferDone.tail = s.tail := rfl
@[simp] theorem transferDone_hostReads (s : State) : s.transferDone.hostReads = s.hostReads := rfl
@[simp] theorem transferDone_changed (s : State) : s.transferDone.changed = s.changed := rfl
@[simp] theorem transferDone_draws (s : State) : s.transferDone.draws = s.draws := rfl

/-! ## hostRead -/

@[simp] theorem hostRead_cfg (s : State) (n : Nat) : (s.hostRead n).cfg = s.cfg := rfl
@[simp] theorem hostRead_bmem (s : State) (n : Nat) : (s.hostRead n).bmem = s.bmem := rfl
@[simp] theorem hostRead_glyphs (s : State) (n : Nat) : (s.hostRead n).glyphs = s.glyphs := rfl
@[simp] theorem hostRead_opCode (s : State) (n : Nat) : (s.hostRead n).opCode = s.opCode := rfl
@[simp] theorem hostRead_opWords (s : State) (n : Nat) : (s.hostRead n).opWords = s.opWords := rfl
@[simp] theorem hostRead_cont (s : State) (n : Nat) : (s.hostRead n).cont = s.cont := rfl
@[simp] theorem hostRead_buf0 (s : State) (n : Nat) : (s.hostRead n).buf0 = s.buf0 := rfl
@[simp] theorem hostRead_buf1 (s : State) (n : Nat) : (s.hostRead n).buf1 = s.buf1 := rfl
@[simp] theorem hostRead_cursor0 (s : State) (n : Nat) : (s.hostRead n).cursor0 = s.cursor0 := rfl
@[simp] theorem hostRead_cursor1 (s : State) (n : Nat) : (s.hostRead n).cursor1 = s.cursor1 := rfl
@[simp] theorem hostRead_active (s : State) (n : Nat) : (s.hostRead n).active = s.active := rfl
@[simp] theorem hostRead_inFlight (s : State) (n : Nat) : (s.hostRead n).inFlight = s.inFlight := rfl
@[simp] theorem hostRead_xfer (s : State) (n : Nat) : (s.hostRead n).xfer = s.xfer := rfl
@[simp] theorem hostRead_streamOpen (s : State) (n : Nat) : (s.hostRead n).streamOpen = s.streamOpen := rfl
@[simp] theorem hostRead_win (s : State) (n : Nat) : (s.hostRead n).win = s.win := rfl
@[simp] theorem hostRead_faulted (s : State) (n : Nat) : (s.hostRead n).faulted = s.faulted := rfl
@[simp] theorem hostRead_busy (s : State) (n : Nat) : (s.hostRead n).busy = s.busy := rfl
@[simp] theorem hostRead_status (s : State) (n : Nat) : (s.hostRead n).status = s.status := rfl
@[simp] theorem hostRead_result (s : State) (n : Nat) : (s.hostRead n).result = s.result := rfl
@[simp] theorem hostRead_trace (s : State) (n : Nat) : (s.hostRead n).trace = s.trace := rfl
@[simp] theorem hostRead_host (s : State) (n : Nat) : (s.hostRead n).host = s.host := rfl
@[simp] theorem hostRead_moves (s : State) (n : Nat) : (s.hostRead n).moves = s.moves := rfl
@[simp] theorem hostRead_tail (s : State) (n : Nat) : (s.hostRead n).tail = s.tail := rfl
@[simp] theorem hostRead_hostReads (s : State) (n : Nat) :
    (s.hostRead n).hostReads = s.hostReads ++ [(n, s.readReg n)] := rfl
@[simp] theorem hostRead_changed (s : State) (n : Nat) : (s.hostRead n).changed = s.changed := rfl
@[simp] theorem hostRead_draws (s : State) (n : Nat) : (s.hostRead n).draws = s.draws := rfl

/-! ## issueBlock -/

@[simp] theorem issueBlock_cfg (s : State) (bs : List Byte) : (s.issueBlock bs).cfg = s.cfg := rfl
@[simp] theorem issueBlock_bmem (s : State) (bs : List Byte) : (s.issueBlock bs).bmem = s.bmem := rfl
@[simp] theorem issueBlock_glyphs (s : State) (bs : List Byte) : (s.issueBlock bs).glyphs = s.glyphs := rfl
@[simp] theorem issueBlock_opCode (s : State) (bs : List Byte) : (s.issueBlock bs).opCode = s.opCode := rfl
@[simp] theorem issueBlock_opWords (s : State) (bs : List Byte) : (s.issueBlock bs).opWords = s.opWords := rfl
@[simp] theorem issueBlock_cont (s : State) (bs : List Byte) : (s.issueBlock bs).cont = s.cont := rfl
@[simp] theorem issueBlock_buf0 (s : State) (bs : List Byte) : (s.issueBlock bs).buf0 = s.buf0 := rfl
@[simp] theorem issueBlock_buf1 (s : State) (bs : List Byte) : (s.issueBlock bs).buf1 = s.buf1 := rfl
@[simp] theorem issueBlock_cursor0 (s : State) (bs : List Byte) : (s.issueBlock bs).cursor0 = s.cursor0 := rfl
@[simp] theorem issueBlock_cursor1 (s : State) (bs : List Byte) : (s.issueBlock bs).cursor1 = s.cursor1 := rfl
@[simp] theorem issueBlock_active (s : State) (bs : List Byte) : (s.issueBlock bs).active = s.active := rfl
@[simp] theorem issueBlock_inFlight (s : State) (bs : List Byte) : (s.issueBlock bs).inFlight = true := rfl
@[simp] theorem issueBlock_xfer (s : State) (bs : List Byte) :
    (s.issueBlock bs).xfer = some (s.flushIx, s.cursor s.flushIx) := rfl
@[simp] theorem issueBlock_streamOpen (s : State) (bs : List Byte) :
    (s.issueBlock bs).streamOpen = s.streamOpen := rfl
@[simp] theorem issueBlock_win (s : State) (bs : List Byte) : (s.issueBlock bs).win = s.win := rfl
@[simp] theorem issueBlock_faulted (s : State) (bs : List Byte) : (s.issueBlock bs).faulted = s.faulted := rfl
@[simp] theorem issueBlock_busy (s : State) (bs : List Byte) : (s.issueBlock bs).busy = s.busy := rfl
@[simp] theorem issueBlock_status (s : State) (bs : List Byte) : (s.issueBlock bs).status = s.status := rfl
@[simp] theorem issueBlock_result (s : State) (bs : List Byte) : (s.issueBlock bs).result = s.result := rfl
@[simp] theorem issueBlock_trace (s : State) (bs : List Byte) :
    (s.issueBlock bs).trace = s.trace ++ [.block s.cfg.mode bs] := rfl
@[simp] theorem issueBlock_host (s : State) (bs : List Byte) : (s.issueBlock bs).host = s.host := rfl
@[simp] theorem issueBlock_moves (s : State) (bs : List Byte) : (s.issueBlock bs).moves = s.moves := rfl
@[simp] theorem issueBlock_tail (s : State) (bs : List Byte) : (s.issueBlock bs).tail = s.tail := rfl
@[simp] theorem issueBlock_hostReads (s : State) (bs : List Byte) : (s.issueBlock bs).hostReads = s.hostReads := rfl
@[simp] theorem issueBlock_changed (s : State) (bs : List Byte) : (s.issueBlock bs).changed = s.changed := rfl
@[simp] theorem issueBlock_draws (s : State) (bs : List Byte) : (s.issueBlock bs).draws = s.draws := rfl

/-! ## setBuf -/

@[simp] theorem setBuf_cfg (s : State) (i : BufIx) (m : Memory) : (s.setBuf i m).cfg = s.cfg := by cases i <;> rfl
@[simp] theorem setBuf_bmem (s : State) (i : BufIx) (m : Memory) : (s.setBuf i m).bmem = s.bmem := by cases i <;> rfl
@[simp] theorem setBuf_glyphs (s : State) (i : BufIx) (m : Memory) :
    (s.setBuf i m).glyphs = s.glyphs := by cases i <;> rfl
@[simp] theorem setBuf_opCode (s : State) (i : BufIx) (m : Memory) :
    (s.setBuf i m).opCode = s.opCode := by cases i <;> rfl
@[simp] theorem setBuf_opWords (s : State) (i : BufIx) (m : Memory) :
    (s.setBuf i m).opWords = s.opWords := by cases i <;> rfl
@[simp] theorem setBuf_cont (s : State) (i : BufIx) (m : Memory) : (s.setBuf i m).cont = s.cont := by cases i <;> rfl
@[simp] theorem setBuf_cursor0 (s : State) (i : BufIx) (m : Memory) :
    (s.setBuf i m).cursor0 = s.cursor0 := by cases i <;> rfl
@[simp] theorem setBuf_cursor1 (s : State) (i : BufIx) (m : Memory) :
    (s.setBuf i m).cursor1 = s.cursor1 := by cases i <;> rfl
@[simp] theorem setBuf_active (s : State) (i : BufIx) (m : Memory) :
    (s.setBuf i m).active = s.active := by cases i <;> rfl
@[simp] theorem setBuf_inFlight (s : State) (i : BufIx) (m : Memory) :
    (s.setBuf i m).inFlight = s.inFlight := by cases i <;> rfl
@[simp] theorem setBuf_xfer (s : State) (i : BufIx) (m : Memory) : (s.setBuf i m).xfer = s.xfer := by cases i <;> rfl
@[simp] theorem setBuf_streamOpen (s : State) (i : BufIx) (m : Memory) :
    (s.setBuf i m).streamOpen = s.streamOpen := by cases i <;> rfl
@[simp] theorem setBuf_win (s : State) (i : BufIx) (m : Memory) : (s.setBuf i m).win = s.win := by cases i <;> rfl
@[simp] theorem setBuf_faulted (s : State) (i : BufIx) (m : Memory) :
    (s.setBuf i m).faulted = s.faulted := by cases i <;> rfl
@[simp] theorem setBuf_busy (s : State) (i : BufIx) (m : Memory) : (s.setBuf i m).busy = s.busy := by cases i <;> rfl
@[simp] theorem setBuf_status (s : State) (i : BufIx) (m : Memory) :
    (s.setBuf i m).status = s.status := by cases i <;> rfl
@[simp] theorem setBuf_result (s : State) (i : BufIx) (m : Memory) :
    (s.setBuf i m).result = s.result := by cases i <;> rfl
@[simp] theorem setBuf_trace (s : State) (i : BufIx) (m : Memory) :
    (s.setBuf i m).trace = s.trace := by cases i <;> rfl
@[simp] theorem setBuf_host (s : State) (i : BufIx) (m : Memory) : (s.setBuf i m).host = s.host := by cases i <;> rfl
@[simp] theorem setBuf_moves (s : State) (i : BufIx) (m : Memory) :
    (s.setBuf i m).moves = s.moves := by cases i <;> rfl
@[simp] theorem setBuf_tail (s : State) (i : BufIx) (m : Memory) : (s.setBuf i m).tail = s.tail := by cases i <;> rfl
@[simp] theorem setBuf_hostReads (s : State) (i : BufIx) (m : Memory) :
    (s.setBuf i m).hostReads = s.hostReads := by cases i <;> rfl
@[simp] theorem setBuf_changed (s : State) (i : BufIx) (m : Memory) :
    (s.setBuf i m).changed = s.changed := by cases i <;> rfl
@[simp] theorem setBuf_draws (s : State) (i : BufIx) (m : Memory) :
    (s.setBuf i m).draws = s.draws := by cases i <;> rfl

/-! ## setCursor -/

@[simp] theorem setCursor_cfg (s : State) (i : BufIx) (n : Nat) : (s.setCursor i n).cfg = s.cfg := by cases i <;> rfl
@[simp] theorem setCursor_bmem (s : State) (i : BufIx) (n : Nat) :
    (s.setCursor i n).bmem = s.bmem := by cases i <;> rfl
@[simp] theorem setCursor_glyphs (s : State) (i : BufIx) (n : Nat) :
    (s.setCursor i n).glyphs = s.glyphs := by cases i <;> rfl
@[simp] theorem setCursor_opCode (s : State) (i : BufIx) (n : Nat) :
    (s.setCursor i n).opCode = s.opCode := by cases i <;> rfl
@[simp] theorem setCursor_opWords (s : State) (i : BufIx) (n : Nat) :
    (s.setCursor i n).opWords = s.opWords := by cases i <;> rfl
@[simp] theorem setCursor_cont (s : State) (i : BufIx) (n : Nat) :
    (s.setCursor i n).cont = s.cont := by cases i <;> rfl
@[simp] theorem setCursor_buf0 (s : State) (i : BufIx) (n : Nat) :
    (s.setCursor i n).buf0 = s.buf0 := by cases i <;> rfl
@[simp] theorem setCursor_buf1 (s : State) (i : BufIx) (n : Nat) :
    (s.setCursor i n).buf1 = s.buf1 := by cases i <;> rfl
@[simp] theorem setCursor_active (s : State) (i : BufIx) (n : Nat) :
    (s.setCursor i n).active = s.active := by cases i <;> rfl
@[simp] theorem setCursor_inFlight (s : State) (i : BufIx) (n : Nat) :
    (s.setCursor i n).inFlight = s.inFlight := by cases i <;> rfl
@[simp] theorem setCursor_xfer (s : State) (i : BufIx) (n : Nat) :
    (s.setCursor i n).xfer = s.xfer := by cases i <;> rfl
@[simp] theorem setCursor_streamOpen (s : State) (i : BufIx) (n : Nat) :
    (s.setCursor i n).streamOpen = s.streamOpen := by cases i <;> rfl
@[simp] theorem setCursor_win (s : State) (i : BufIx) (n : Nat) : (s.setCursor i n).win = s.win := by cases i <;> rfl
@[simp] theorem setCursor_faulted (s : State) (i : BufIx) (n : Nat) :
    (s.setCursor i n).faulted = s.faulted := by cases i <;> rfl
@[simp] theorem setCursor_busy (s : State) (i : BufIx) (n : Nat) :
    (s.setCursor i n).busy = s.busy := by cases i <;> rfl
@[simp] theorem setCursor_status (s : State) (i : BufIx) (n : Nat) :
    (s.setCursor i n).status = s.status := by cases i <;> rfl
@[simp] theorem setCursor_result (s : State) (i : BufIx) (n : Nat) :
    (s.setCursor i n).result = s.result := by cases i <;> rfl
@[simp] theorem setCursor_trace (s : State) (i : BufIx) (n : Nat) :
    (s.setCursor i n).trace = s.trace := by cases i <;> rfl
@[simp] theorem setCursor_host (s : State) (i : BufIx) (n : Nat) :
    (s.setCursor i n).host = s.host := by cases i <;> rfl
@[simp] theorem setCursor_moves (s : State) (i : BufIx) (n : Nat) :
    (s.setCursor i n).moves = s.moves := by cases i <;> rfl
@[simp] theorem setCursor_tail (s : State) (i : BufIx) (n : Nat) :
    (s.setCursor i n).tail = s.tail := by cases i <;> rfl
@[simp] theorem setCursor_hostReads (s : State) (i : BufIx) (n : Nat) :
    (s.setCursor i n).hostReads = s.hostReads := by cases i <;> rfl
@[simp] theorem setCursor_changed (s : State) (i : BufIx) (n : Nat) :
    (s.setCursor i n).changed = s.changed := by cases i <;> rfl
@[simp] theorem setCursor_draws (s : State) (i : BufIx) (n : Nat) :
    (s.setCursor i n).draws = s.draws := by cases i <;> rfl

/-! ## dropStay -/

@[simp] theorem dropStay_cfg (s : State) : s.dropStay.cfg = s.cfg := by unfold dropStay; split <;> rfl
@[simp] theorem dropStay_bmem (s : State) : s.dropStay.bmem = s.bmem := by unfold dropStay; split <;> rfl
@[simp] theorem dropStay_glyphs (s : State) : s.dropStay.glyphs = s.glyphs := by unfold dropStay; split <;> rfl
@[simp] theorem dropStay_opCode (s : State) : s.dropStay.opCode = s.opCode := by unfold dropStay; split <;> rfl
@[simp] theorem dropStay_opWords (s : State) : s.dropStay.opWords = s.opWords := by unfold dropStay; split <;> rfl
@[simp] theorem dropStay_cont (s : State) : s.dropStay.cont = s.cont := by unfold dropStay; split <;> rfl
@[simp] theorem dropStay_buf0 (s : State) : s.dropStay.buf0 = s.buf0 := by unfold dropStay; split <;> rfl
@[simp] theorem dropStay_buf1 (s : State) : s.dropStay.buf1 = s.buf1 := by unfold dropStay; split <;> rfl
@[simp] theorem dropStay_cursor0 (s : State) : s.dropStay.cursor0 = s.cursor0 := by unfold dropStay; split <;> rfl
@[simp] theorem dropStay_cursor1 (s : State) : s.dropStay.cursor1 = s.cursor1 := by unfold dropStay; split <;> rfl
@[simp] theorem dropStay_active (s : State) : s.dropStay.active = s.active := by unfold dropStay; split <;> rfl
@[simp] theorem dropStay_inFlight (s : State) : s.dropStay.inFlight = s.inFlight := by unfold dropStay; split <;> rfl
@[simp] theorem dropStay_xfer (s : State) : s.dropStay.xfer = s.xfer := by unfold dropStay; split <;> rfl
@[simp] theorem dropStay_streamOpen (s : State) :
    s.dropStay.streamOpen = s.streamOpen := by unfold dropStay; split <;> rfl
@[simp] theorem dropStay_win (s : State) : s.dropStay.win = s.win := by unfold dropStay; split <;> rfl
@[simp] theorem dropStay_faulted (s : State) : s.dropStay.faulted = s.faulted := by unfold dropStay; split <;> rfl
@[simp] theorem dropStay_busy (s : State) : s.dropStay.busy = s.busy := by unfold dropStay; split <;> rfl
@[simp] theorem dropStay_status (s : State) : s.dropStay.status = s.status := by unfold dropStay; split <;> rfl
@[simp] theorem dropStay_result (s : State) : s.dropStay.result = s.result := by unfold dropStay; split <;> rfl
@[simp] theorem dropStay_trace (s : State) : s.dropStay.trace = s.trace := by unfold dropStay; split <;> rfl
@[simp] theorem dropStay_host (s : State) : s.dropStay.host = s.host := by unfold dropStay; split <;> rfl
@[simp] theorem dropStay_tail (s : State) : s.dropStay.tail = s.tail := by unfold dropStay; split <;> rfl
@[simp] theorem dropStay_hostReads (s : State) :
    s.dropStay.hostReads = s.hostReads := by unfold dropStay; split <;> rfl
@[simp] theorem dropStay_changed (s : State) : s.dropStay.changed = s.changed := by unfold dropStay; split <;> rfl
@[simp] theorem dropStay_draws (s : State) : s.dropStay.draws = s.draws := by unfold dropStay; split <;> rfl

/-! ## abort -/

@[simp] theorem abort_cfg (s : State) :
    s.abort.cfg = s.cfg := by unfold abort; split <;> rfl
@[simp] theorem abort_bmem (s : State) :
    s.abort.bmem = s.bmem := by unfold abort; split <;> rfl
@[simp] theorem abort_glyphs (s : State) :
    s.abort.glyphs = s.glyphs := by unfold abort; split <;> rfl
@[simp] theorem abort_opCode (s : State) :
    s.abort.opCode = s.opCode := by unfold abort; split <;> rfl
@[simp] theorem abort_opWords (s : State) :
    s.abort.opWords = s.opWords := by unfold abort; split <;> rfl
@[simp] theorem abort_cont (s : State) :
    s.abort.cont = s.cont := by unfold abort; split <;> rfl
@[simp] theorem abort_buf0 (s : State) :
    s.abort.buf0 = s.buf0 := by unfold abort; split <;> rfl
@[simp] theorem abort_buf1 (s : State) :
    s.abort.buf1 = s.buf1 := by unfold abort; split <;> rfl
@[simp] theorem abort_cursor0 (s : State) :
    s.abort.cursor0 = s.cursor0 := by unfold abort; split <;> rfl
@[simp] theorem abort_cursor1 (s : State) :
    s.abort.cursor1 = s.cursor1 := by unfold abort; split <;> rfl
@[simp] theorem abort_active (s : State) :
    s.abort.active = s.active := by unfold abort; split <;> rfl
@[simp] theorem abort_inFlight (s : State) :
    s.abort.inFlight = s.inFlight := by unfold abort; split <;> rfl
@[simp] theorem abort_xfer (s : State) :
    s.abort.xfer = s.xfer := by unfold abort; split <;> rfl
@[simp] theorem abort_streamOpen (s : State) :
    s.abort.streamOpen = false := by unfold abort; split <;> simp_all
@[simp] theorem abort_win (s : State) :
    s.abort.win = s.win := by unfold abort; split <;> rfl
@[simp] theorem abort_faulted (s : State) :
    s.abort.faulted = true := by unfold abort; split <;> rfl
@[simp] theorem abort_busy (s : State) :
    s.abort.busy = s.busy := by unfold abort; split <;> rfl
@[simp] theorem abort_status (s : State) :
    s.abort.status = s.status := by unfold abort; split <;> rfl
@[simp] theorem abort_result (s : State) :
    s.abort.result = s.result := by unfold abort; split <;> rfl
@[simp] theorem abort_host (s : State) :
    s.abort.host = s.host := by unfold abort; split <;> rfl
@[simp] theorem abort_moves (s : State) :
    s.abort.moves = s.moves := by unfold abort; split <;> rfl
@[simp] theorem abort_tail (s : State) :
    s.abort.tail = s.tail := by unfold abort; split <;> rfl
@[simp] theorem abort_hostReads (s : State) :
    s.abort.hostReads = s.hostReads := by unfold abort; split <;> rfl
@[simp] theorem abort_changed (s : State) :
    s.abort.changed = s.changed := by unfold abort; split <;> rfl
@[simp] theorem abort_draws (s : State) :
    s.abort.draws = s.draws := by unfold abort; split <;> rfl

/-! ## hostWord -/

@[simp] theorem hostWord_cfg (s : State) (a : Nat) (w : Word) : (s.hostWord a w).cfg = s.cfg := rfl
@[simp] theorem hostWord_bmem (s : State) (a : Nat) (w : Word) : (s.hostWord a w).bmem = Cells.load s.bmem a w := rfl
@[simp] theorem hostWord_glyphs (s : State) (a : Nat) (w : Word) : (s.hostWord a w).glyphs = s.glyphs := rfl
@[simp] theorem hostWord_opCode (s : State) (a : Nat) (w : Word) : (s.hostWord a w).opCode = s.opCode := rfl
@[simp] theorem hostWord_opWords (s : State) (a : Nat) (w : Word) : (s.hostWord a w).opWords = s.opWords := rfl
@[simp] theorem hostWord_cont (s : State) (a : Nat) (w : Word) : (s.hostWord a w).cont = s.cont := rfl
@[simp] theorem hostWord_buf0 (s : State) (a : Nat) (w : Word) : (s.hostWord a w).buf0 = s.buf0 := rfl
@[simp] theorem hostWord_buf1 (s : State) (a : Nat) (w : Word) : (s.hostWord a w).buf1 = s.buf1 := rfl
@[simp] theorem hostWord_cursor0 (s : State) (a : Nat) (w : Word) : (s.hostWord a w).cursor0 = s.cursor0 := rfl
@[simp] theorem hostWord_cursor1 (s : State) (a : Nat) (w : Word) : (s.hostWord a w).cursor1 = s.cursor1 := rfl
@[simp] theorem hostWord_active (s : State) (a : Nat) (w : Word) : (s.hostWord a w).active = s.active := rfl
@[simp] theorem hostWord_inFlight (s : State) (a : Nat) (w : Word) : (s.hostWord a w).inFlight = s.inFlight := rfl
@[simp] theorem hostWord_xfer (s : State) (a : Nat) (w : Word) : (s.hostWord a w).xfer = s.xfer := rfl
@[simp] theorem hostWord_streamOpen (s : State) (a : Nat) (w : Word) :
    (s.hostWord a w).streamOpen = s.streamOpen := rfl
@[simp] theorem hostWord_win (s : State) (a : Nat) (w : Word) : (s.hostWord a w).win = s.win := rfl
@[simp] theorem hostWord_faulted (s : State) (a : Nat) (w : Word) : (s.hostWord a w).faulted = s.faulted := rfl
@[simp] theorem hostWord_busy (s : State) (a : Nat) (w : Word) : (s.hostWord a w).busy = s.busy := rfl
@[simp] theorem hostWord_status (s : State) (a : Nat) (w : Word) : (s.hostWord a w).status = s.status := rfl
@[simp] theorem hostWord_result (s : State) (a : Nat) (w : Word) : (s.hostWord a w).result = s.result := rfl
@[simp] theorem hostWord_trace (s : State) (a : Nat) (w : Word) : (s.hostWord a w).trace = s.trace := rfl
@[simp] theorem hostWord_host (s : State) (a : Nat) (w : Word) : (s.hostWord a w).host = s.host := rfl
@[simp] theorem hostWord_moves (s : State) (a : Nat) (w : Word) : (s.hostWord a w).moves = s.moves := rfl
@[simp] theorem hostWord_tail (s : State) (a : Nat) (w : Word) : (s.hostWord a w).tail = s.tail := rfl
@[simp] theorem hostWord_hostReads (s : State) (a : Nat) (w : Word) : (s.hostWord a w).hostReads = s.hostReads := rfl
@[simp] theorem hostWord_changed (s : State) (a : Nat) (w : Word) :
    (s.hostWord a w).changed = (s.change (.word a)).changed := rfl
@[simp] theorem hostWord_draws (s : State) (a : Nat) (w : Word) : (s.hostWord a w).draws = s.draws := rfl

/-! ## hostRow -/

@[simp] theorem hostRow_cfg (s : State) (code : Byte) (j : Fin 13) (v : Byte) :
    (s.hostRow code j v).cfg = s.cfg := rfl
@[simp] theorem hostRow_bmem (s : State) (code : Byte) (j : Fin 13) (v : Byte) :
    (s.hostRow code j v).bmem = s.bmem := rfl
@[simp] theorem hostRow_glyphs (s : State) (code : Byte) (j : Fin 13) (v : Byte) :
    (s.hostRow code j v).glyphs = Cells.load s.glyphs (glyphKey code j) v := rfl
@[simp] theorem hostRow_opCode (s : State) (code : Byte) (j : Fin 13) (v : Byte) :
    (s.hostRow code j v).opCode = s.opCode := rfl
@[simp] theorem hostRow_opWords (s : State) (code : Byte) (j : Fin 13) (v : Byte) :
    (s.hostRow code j v).opWords = s.opWords := rfl
@[simp] theorem hostRow_cont (s : State) (code : Byte) (j : Fin 13) (v : Byte) :
    (s.hostRow code j v).cont = s.cont := rfl
@[simp] theorem hostRow_buf0 (s : State) (code : Byte) (j : Fin 13) (v : Byte) :
    (s.hostRow code j v).buf0 = s.buf0 := rfl
@[simp] theorem hostRow_buf1 (s : State) (code : Byte) (j : Fin 13) (v : Byte) :
    (s.hostRow code j v).buf1 = s.buf1 := rfl
@[simp] theorem hostRow_cursor0 (s : State) (code : Byte) (j : Fin 13) (v : Byte) :
    (s.hostRow code j v).cursor0 = s.cursor0 := rfl
@[simp] theorem hostRow_cursor1 (s : State) (code : Byte) (j : Fin 13) (v : Byte) :
    (s.hostRow code j v).cursor1 = s.cursor1 := rfl
@[simp] theorem hostRow_active (s : State) (code : Byte) (j : Fin 13) (v : Byte) :
    (s.hostRow code j v).active = s.active := rfl
@[simp] theorem hostRow_inFlight (s : State) (code : Byte) (j : Fin 13) (v : Byte) :
    (s.hostRow code j v).inFlight = s.inFlight := rfl
@[simp] theorem hostRow_xfer (s : State) (code : Byte) (j : Fin 13) (v : Byte) :
    (s.hostRow code j v).xfer = s.xfer := rfl
@[simp] theorem hostRow_streamOpen (s : State) (code : Byte) (j : Fin 13) (v : Byte) :
    (s.hostRow code j v).streamOpen = s.streamOpen := rfl
@[simp] theorem hostRow_win (s : State) (code : Byte) (j : Fin 13) (v : Byte) :
    (s.hostRow code j v).win = s.win := rfl
@[simp] theorem hostRow_faulted (s : State) (code : Byte) (j : Fin 13) (v : Byte) :
    (s.hostRow code j v).faulted = s.faulted := rfl
@[simp] theorem hostRow_busy (s : State) (code : Byte) (j : Fin 13) (v : Byte) :
    (s.hostRow code j v).busy = s.busy := rfl
@[simp] theorem hostRow_status (s : State) (code : Byte) (j : Fin 13) (v : Byte) :
    (s.hostRow code j v).status = s.status := rfl
@[simp] theorem hostRow_result (s : State) (code : Byte) (j : Fin 13) (v : Byte) :
    (s.hostRow code j v).result = s.result := rfl
@[simp] theorem hostRow_trace (s : State) (code : Byte) (j : Fin 13) (v : Byte) :
    (s.hostRow code j v).trace = s.trace := rfl
@[simp] theorem hostRow_host (s : State) (code : Byte) (j : Fin 13) (v : Byte) :
    (s.hostRow code j v).host = s.host := rfl
@[simp] theorem hostRow_moves (s : State) (code : Byte) (j : Fin 13) (v : Byte) :
    (s.hostRow code j v).moves = s.moves := rfl
@[simp] theorem hostRow_tail (s : State) (code : Byte) (j : Fin 13) (v : Byte) :
    (s.hostRow code j v).tail = s.tail := rfl
@[simp] theorem hostRow_hostReads (s : State) (code : Byte) (j : Fin 13) (v : Byte) :
    (s.hostRow code j v).hostReads = s.hostReads := rfl
@[simp] theorem hostRow_changed (s : State) (code : Byte) (j : Fin 13) (v : Byte) :
    (s.hostRow code j v).changed = (s.change (.row code j)).changed := rfl
@[simp] theorem hostRow_draws (s : State) (code : Byte) (j : Fin 13) (v : Byte) :
    (s.hostRow code j v).draws = s.draws := rfl

@[simp] theorem change_changed_idle {s : State} (src : Source) (h : s.busy = false) : (s.change src).changed = s.changed := by
  simp [change, h]

@[simp] theorem mem_change {s : State} {src x : Source} (h : s.busy = true) :
    x ∈ (s.change src).changed ↔ x = src ∨ x ∈ s.changed := by
  simp [change, h]

/-! ## readHeader -/

@[simp] theorem readHeader_cfg (s : State) (x y sc : Word) (base : BitVec 32) :
    (s.readHeader x y sc base).cfg = s.cfg := rfl
@[simp] theorem readHeader_bmem (s : State) (x y sc : Word) (base : BitVec 32) :
    (s.readHeader x y sc base).bmem = s.bmem := rfl
@[simp] theorem readHeader_glyphs (s : State) (x y sc : Word) (base : BitVec 32) :
    (s.readHeader x y sc base).glyphs = s.glyphs := rfl
@[simp] theorem readHeader_opCode (s : State) (x y sc : Word) (base : BitVec 32) :
    (s.readHeader x y sc base).opCode = s.opCode := rfl
@[simp] theorem readHeader_opWords (s : State) (x y sc : Word) (base : BitVec 32) :
    (s.readHeader x y sc base).opWords = s.opWords := rfl
theorem readHeader_cont (s : State) (x y sc : Word) (base : BitVec 32) : (s.readHeader x y sc base).cont =
    bitmapSteps s.cfg x y sc base (s.readWord base.toNat)
        (({ s with draws := s.drawsAfter (.word base.toNat) } : State).readWord (base.toNat + 1)) ++ s.cont := rfl
@[simp] theorem readHeader_buf0 (s : State) (x y sc : Word) (base : BitVec 32) :
    (s.readHeader x y sc base).buf0 = s.buf0 := rfl
@[simp] theorem readHeader_buf1 (s : State) (x y sc : Word) (base : BitVec 32) :
    (s.readHeader x y sc base).buf1 = s.buf1 := rfl
@[simp] theorem readHeader_cursor0 (s : State) (x y sc : Word) (base : BitVec 32) :
    (s.readHeader x y sc base).cursor0 = s.cursor0 := rfl
@[simp] theorem readHeader_cursor1 (s : State) (x y sc : Word) (base : BitVec 32) :
    (s.readHeader x y sc base).cursor1 = s.cursor1 := rfl
@[simp] theorem readHeader_active (s : State) (x y sc : Word) (base : BitVec 32) :
    (s.readHeader x y sc base).active = s.active := rfl
@[simp] theorem readHeader_inFlight (s : State) (x y sc : Word) (base : BitVec 32) :
    (s.readHeader x y sc base).inFlight = s.inFlight := rfl
@[simp] theorem readHeader_xfer (s : State) (x y sc : Word) (base : BitVec 32) :
    (s.readHeader x y sc base).xfer = s.xfer := rfl
@[simp] theorem readHeader_streamOpen (s : State) (x y sc : Word) (base : BitVec 32) :
    (s.readHeader x y sc base).streamOpen = s.streamOpen := rfl
@[simp] theorem readHeader_win (s : State) (x y sc : Word) (base : BitVec 32) :
    (s.readHeader x y sc base).win = s.win := rfl
@[simp] theorem readHeader_faulted (s : State) (x y sc : Word) (base : BitVec 32) :
    (s.readHeader x y sc base).faulted = s.faulted := rfl
@[simp] theorem readHeader_busy (s : State) (x y sc : Word) (base : BitVec 32) :
    (s.readHeader x y sc base).busy = s.busy := rfl
@[simp] theorem readHeader_status (s : State) (x y sc : Word) (base : BitVec 32) :
    (s.readHeader x y sc base).status = s.status := rfl
@[simp] theorem readHeader_result (s : State) (x y sc : Word) (base : BitVec 32) :
    (s.readHeader x y sc base).result = s.result := rfl
@[simp] theorem readHeader_trace (s : State) (x y sc : Word) (base : BitVec 32) :
    (s.readHeader x y sc base).trace = s.trace := rfl
@[simp] theorem readHeader_host (s : State) (x y sc : Word) (base : BitVec 32) :
    (s.readHeader x y sc base).host = s.host := rfl
@[simp] theorem readHeader_moves (s : State) (x y sc : Word) (base : BitVec 32) :
    (s.readHeader x y sc base).moves = s.moves := rfl
@[simp] theorem readHeader_tail (s : State) (x y sc : Word) (base : BitVec 32) :
    (s.readHeader x y sc base).tail = s.tail := rfl
@[simp] theorem readHeader_hostReads (s : State) (x y sc : Word) (base : BitVec 32) :
    (s.readHeader x y sc base).hostReads = s.hostReads := rfl
@[simp] theorem readHeader_changed (s : State) (x y sc : Word) (base : BitVec 32) :
    (s.readHeader x y sc base).changed = s.changed := rfl
theorem readHeader_draws (s : State) (x y sc : Word) (base : BitVec 32) : (s.readHeader x y sc base).draws =
    ({ s with draws := s.drawsAfter (.word base.toNat) } : State).drawsAfter (.word (base.toNat + 1)) := rfl

/-! ## accept -/

@[simp] theorem latch_opCode (s : State) (h : Word) (rest : List Word) : (s.latch (h :: rest)).opCode = lo8 h := rfl
@[simp] theorem latch_opWords (s : State) (h : Word) (rest : List Word) : (s.latch (h :: rest)).opWords = rest := rfl
@[simp] theorem accept_opCode (s : State) (i : Instr) (k : List EStep) : (s.accept i k).opCode = i.op.code := by cases i <;> rfl
@[simp] theorem accept_opWords (s : State) (i : Instr) (k : List EStep) : (s.accept i k).opWords = operandWords i := rfl
@[simp] theorem accept_cfg (s : State) (i : Instr) (k : List EStep) : (s.accept i k).cfg = s.cfg := by unfold accept latch; split <;> rfl
@[simp] theorem accept_bmem (s : State) (i : Instr) (k : List EStep) : (s.accept i k).bmem = s.bmem := by unfold accept latch; split <;> rfl
@[simp] theorem accept_glyphs (s : State) (i : Instr) (k : List EStep) : (s.accept i k).glyphs = s.glyphs := by unfold accept latch; split <;> rfl
@[simp] theorem accept_cont (s : State) (i : Instr) (k : List EStep) : (s.accept i k).cont = k := rfl
@[simp] theorem accept_buf0 (s : State) (i : Instr) (k : List EStep) : (s.accept i k).buf0 = s.buf0 := by unfold accept latch; split <;> rfl
@[simp] theorem accept_buf1 (s : State) (i : Instr) (k : List EStep) : (s.accept i k).buf1 = s.buf1 := by unfold accept latch; split <;> rfl
@[simp] theorem accept_cursor0 (s : State) (i : Instr) (k : List EStep) : (s.accept i k).cursor0 = s.cursor0 := by unfold accept latch; split <;> rfl
@[simp] theorem accept_cursor1 (s : State) (i : Instr) (k : List EStep) : (s.accept i k).cursor1 = s.cursor1 := by unfold accept latch; split <;> rfl
@[simp] theorem accept_active (s : State) (i : Instr) (k : List EStep) : (s.accept i k).active = s.active := by unfold accept latch; split <;> rfl
@[simp] theorem accept_inFlight (s : State) (i : Instr) (k : List EStep) : (s.accept i k).inFlight = s.inFlight := by unfold accept latch; split <;> rfl
@[simp] theorem accept_xfer (s : State) (i : Instr) (k : List EStep) : (s.accept i k).xfer = s.xfer := by unfold accept latch; split <;> rfl
@[simp] theorem accept_streamOpen (s : State) (i : Instr) (k : List EStep) : (s.accept i k).streamOpen = s.streamOpen := by unfold accept latch; split <;> rfl
@[simp] theorem accept_win (s : State) (i : Instr) (k : List EStep) : (s.accept i k).win = s.win := by unfold accept latch; split <;> rfl
@[simp] theorem accept_faulted (s : State) (i : Instr) (k : List EStep) : (s.accept i k).faulted = s.faulted := by unfold accept latch; split <;> rfl
@[simp] theorem accept_busy (s : State) (i : Instr) (k : List EStep) : (s.accept i k).busy = true := rfl
@[simp] theorem accept_status (s : State) (i : Instr) (k : List EStep) : (s.accept i k).status = s.status := by unfold accept latch; split <;> rfl
@[simp] theorem accept_result (s : State) (i : Instr) (k : List EStep) : (s.accept i k).result = s.result := by unfold accept latch; split <;> rfl
@[simp] theorem accept_trace (s : State) (i : Instr) (k : List EStep) : (s.accept i k).trace = s.trace := by unfold accept latch; split <;> rfl
@[simp] theorem accept_host (s : State) (i : Instr) (k : List EStep) : (s.accept i k).host = s.host := by unfold accept latch; split <;> rfl
@[simp] theorem accept_moves (s : State) (i : Instr) (k : List EStep) : (s.accept i k).moves = s.moves := by unfold accept latch; split <;> rfl
@[simp] theorem accept_tail (s : State) (i : Instr) (k : List EStep) : (s.accept i k).tail = s.tail := by unfold accept latch; split <;> rfl
@[simp] theorem accept_hostReads (s : State) (i : Instr) (k : List EStep) : (s.accept i k).hostReads = s.hostReads := by unfold accept latch; split <;> rfl
@[simp] theorem accept_changed (s : State) (i : Instr) (k : List EStep) : (s.accept i k).changed = s.changed := by unfold accept latch; split <;> rfl
@[simp] theorem accept_draws (s : State) (i : Instr) (k : List EStep) : (s.accept i k).draws = s.draws := by unfold accept latch; split <;> rfl

/-! ## What a read returns -/

theorem readWord_stable {s : State} {a : Nat} (h : .word a ∉ s.changed) : s.readWord a = memRead s.bmem a := if_neg h
theorem readWord_changed {s : State} {a : Nat} (h : .word a ∈ s.changed) : s.readWord a = Config.freeWord s.draws := if_pos h
theorem readRow_stable {s : State} {code : Byte} {j : Nat} (h : .row code j ∉ s.changed) :
    s.readRow code j = glyphRow s.glyphs code j := if_neg h
theorem readRow_changed {s : State} {code : Byte} {j : Nat} (h : .row code j ∈ s.changed) :
    s.readRow code j = Config.freeRow s.draws := if_pos h

/-- While no resource has changed, a pixel has the colour that its place in the resources gives it. -/
theorem ink_stable {s : State} (h : s.changed = []) (p : Ink) : s.ink p = p.look s.cfg s.bmem s.glyphs := by
  cases p with
  | color c => rfl
  | word a => exact readWord_stable (by simp [h])
  | bit code i j fg bg =>
    simp only [ink, Ink.look, readRow_stable (show .row code j ∉ s.changed by simp [h])]
    rfl

theorem inkDraws_stable {s : State} (h : s.changed = []) (p : Ink) : s.inkDraws p = s.draws := by
  cases p <;> simp [inkDraws, drawsAfter, h]

/-! ## Buffers and cursors by index -/

@[simp] theorem buf_setBuf_same (s : State) (i : BufIx) (m : Memory) : (s.setBuf i m).buf i = m := by cases i <;> rfl
@[simp] theorem buf_setBuf_other (s : State) (i : BufIx) (m : Memory) : (s.setBuf i m).buf i.other = s.buf i.other := by
  cases i <;> rfl
@[simp] theorem cursor_setBuf (s : State) (i j : BufIx) (m : Memory) : (s.setBuf i m).cursor j = s.cursor j := by
  cases i <;> cases j <;> rfl
@[simp] theorem cursor_setCursor_same (s : State) (i : BufIx) (n : Nat) : (s.setCursor i n).cursor i = n := by
  cases i <;> rfl
@[simp] theorem cursor_setCursor_other (s : State) (i : BufIx) (n : Nat) :
    (s.setCursor i n).cursor i.other = s.cursor i.other := by cases i <;> rfl
@[simp] theorem buf_setCursor (s : State) (i j : BufIx) (n : Nat) : (s.setCursor i n).buf j = s.buf j := by
  cases i <;> cases j <;> rfl

end Sys2Proof.Machine.State

namespace Sys2Proof.Machine

@[simp] theorem BufIx.other_other (i : BufIx) : i.other.other = i := by cases i <;> rfl
@[simp] theorem BufIx.other_b0 : BufIx.b0.other = .b1 := rfl
@[simp] theorem BufIx.other_b1 : BufIx.b1.other = .b0 := rfl

theorem BufIx.other_ne (i : BufIx) : i.other ≠ i := by cases i <;> decide

end Sys2Proof.Machine
end

