-- ==== Sys2Proof/Laws/Memory.lean ====
section
/-! SUPPORT. The laws of memory cells: read after write, and that every operation keeps the canonical form. -/

namespace Sys2Proof.Machine

namespace Cells

variable {w : Nat}

@[simp] theorem find?_put_same (m : Cells w) (a : Nat) (v : BitVec w) : find? (put m a v) a = some v := by
  induction m with
  | nil => simp [put, find?]
  | cons p m ih =>
    obtain ⟨k, u⟩ := p
    simp only [put]
    split
    · simp [find?]
    · split
      · simp [find?]
      · have : k ≠ a := by omega
        simp [find?, this, ih]

theorem find?_put_other (m : Cells w) {a b : Nat} (v : BitVec w) (h : b ≠ a) :
    find? (put m a v) b = find? m b := by
  induction m with
  | nil => simp [put, find?, Ne.symm h]
  | cons p m ih =>
    obtain ⟨k, u⟩ := p
    simp only [put]
    split
    · simp [find?, Ne.symm h]
    · split
      · rename_i _ hk
        simp [find?, ← hk, Ne.symm h]
      · simp [find?, ih]

theorem mem_put {m : Cells w} {a : Nat} {v : BitVec w} {p : Nat × BitVec w} (h : p ∈ put m a v) :
    p = (a, v) ∨ p ∈ m := by
  induction m with
  | nil => simp [put] at h; exact .inl h
  | cons q m ih =>
    obtain ⟨k, u⟩ := q
    simp only [put] at h
    split at h
    · simpa using h
    · split at h
      · rcases List.mem_cons.1 h with h | h
        · exact .inl h
        · exact .inr (List.mem_cons_of_mem _ h)
      · rcases List.mem_cons.1 h with h | h
        · exact .inr (h ▸ List.mem_cons_self)
        · rcases ih h with h | h
          · exact .inl h
          · exact .inr (List.mem_cons_of_mem _ h)

theorem mem_drop {m : Cells w} {a : Nat} {p : Nat × BitVec w} (h : p ∈ drop m a) : p ∈ m := by
  induction m with
  | nil => simp [drop] at h
  | cons q m ih =>
    obtain ⟨k, u⟩ := q
    simp only [drop] at h
    split at h
    · exact List.mem_cons_of_mem _ h
    · rcases List.mem_cons.1 h with h | h
      · exact h ▸ List.mem_cons_self
      · exact List.mem_cons_of_mem _ (ih h)

/-- A write keeps the canonical form. -/
theorem put_wf {m : Cells w} (a : Nat) (v : BitVec w) (h : Memory.wf m) : Memory.wf (put m a v) := by
  induction m with
  | nil => simp [put, Memory.wf]
  | cons p m ih =>
    obtain ⟨k, u⟩ := p
    obtain ⟨h1, h2⟩ := List.pairwise_cons.1 h
    simp only [put]
    split
    · rename_i hk
      refine List.pairwise_cons.2 ⟨fun q hq => ?_, h⟩
      rcases List.mem_cons.1 hq with rfl | hq
      · exact hk
      · exact Nat.lt_trans hk (h1 q hq)
    · split
      · rename_i _ hk
        exact List.pairwise_cons.2 ⟨fun q hq => hk ▸ h1 q hq, h2⟩
      · rename_i hk hne
        refine List.pairwise_cons.2 ⟨fun q hq => ?_, ih h2⟩
        rcases mem_put hq with rfl | hq
        · show k < a
          omega
        · exact h1 q hq

/-- Removing a cell keeps the canonical form. -/
theorem drop_wf {m : Cells w} (a : Nat) (h : Memory.wf m) : Memory.wf (drop m a) := by
  induction m with
  | nil => exact h
  | cons p m ih =>
    obtain ⟨k, u⟩ := p
    obtain ⟨h1, h2⟩ := List.pairwise_cons.1 h
    simp only [drop]
    split
    · exact h2
    · exact List.pairwise_cons.2 ⟨fun q hq => h1 q (mem_drop hq), ih h2⟩

/-- Loading a cell of an external resource keeps its canonical form. -/
theorem load_wfZero {m : Cells w} (a : Nat) (v : BitVec w) (h : Memory.wfZero m) : Memory.wfZero (load m a v) := by
  unfold load
  split
  · exact ⟨drop_wf a h.1, fun p hp => h.2 p (mem_drop hp)⟩
  · rename_i hv
    refine ⟨put_wf a v h.1, fun p hp => ?_⟩
    rcases mem_put hp with rfl | hp
    · exact hv
    · exact h.2 p hp

/-- What a cell that is removed reads as, in canonical form: it was listed once. -/
theorem find?_drop {m : Cells w} (h : Memory.wf m) (a b : Nat) :
    find? (drop m a) b = if b = a then none else find? m b := by
  induction m with
  | nil => simp [drop, find?]
  | cons p m ih =>
    obtain ⟨k, u⟩ := p
    obtain ⟨h1, h2⟩ := List.pairwise_cons.1 h
    have hn : ∀ {l : Cells w}, (∀ q ∈ l, k < q.1) → find? l k = none := by
      intro l
      induction l with
      | nil => exact fun _ => rfl
      | cons q l ihl =>
        intro hl
        have : q.1 ≠ k := by have := hl q List.mem_cons_self; omega
        simp [find?, this, ihl fun r hr => hl r (List.mem_cons_of_mem _ hr)]
    by_cases hk : k = a
    · subst hk
      by_cases hb : b = k
      · subst hb
        simp [drop, hn h1]
      · simp [drop, find?, hb, Ne.symm hb]
    · by_cases hb : b = k
      · subst hb
        simp [drop, find?, hk]
      · simp [drop, find?, hk, Ne.symm hb, ih h2]

/-- Read after load: the cell loaded holds the value, and every other cell is as before. -/
theorem get_load {m : Cells w} (h : Memory.wf m) (a : Nat) (v : BitVec w) (b : Nat) :
    get (load m a v) b = if b = a then v else get m b := by
  unfold get load
  split
  · rename_i hv
    by_cases hb : b = a <;> simp [hv, hb, find?_drop h]
  · by_cases hb : b = a
    · simp [hb]
    · simp [hb, find?_put_other m v hb]

end Cells

namespace Memory

@[simp] theorem read?_write_same (m : Memory) (a : Nat) (v : Byte) : read? (write m a v) a = some v :=
  Cells.find?_put_same m a v

theorem read?_write_other (m : Memory) {a b : Nat} (v : Byte) (h : b ≠ a) : read? (write m a v) b = read? m b :=
  Cells.find?_put_other m v h

/-- The three bytes of a pixel, and no other, are written. -/
theorem read?_writePixel (m : Memory) (k : Nat) (d : DeviceColor) (a : Nat) :
    read? (writePixel m k d) a =
      if a = k then some d.r else if a = k + 1 then some d.g else if a = k + 2 then some d.b else read? m a := by
  unfold writePixel
  by_cases h2 : a = k + 2
  · subst h2
    rw [read?_write_same, if_neg (by omega), if_neg (by omega), if_pos rfl]
  rw [read?_write_other _ _ h2]
  by_cases h1 : a = k + 1
  · subst h1
    rw [read?_write_same, if_neg (by omega), if_pos rfl]
  rw [read?_write_other _ _ h1]
  by_cases h0 : a = k
  · subst h0
    rw [read?_write_same, if_pos rfl]
  rw [read?_write_other _ _ h0, if_neg h0, if_neg h1, if_neg h2]

theorem writePixel_wf {m : Memory} (k : Nat) (d : DeviceColor) (h : wf m) : wf (writePixel m k d) :=
  Cells.put_wf _ _ (Cells.put_wf _ _ (Cells.put_wf _ _ h))

theorem writePixel_bound {m : Memory} {c k : Nat} (d : DeviceColor) (h : ∀ p ∈ m, p.1 < c) (hk : k + 3 ≤ c) :
    ∀ p ∈ writePixel m k d, p.1 < c := by
  intro p hp
  rcases Cells.mem_put hp with rfl | hp
  · show k + 2 < c
    omega
  rcases Cells.mem_put hp with rfl | hp
  · show k + 1 < c
    omega
  rcases Cells.mem_put hp with rfl | hp
  · show k < c
    omega
  exact h p hp

/-- A block can be read when each of its bytes is written. -/
theorem readBlock_isSome (m : Memory) : ∀ (n k : Nat), (∀ i, k ≤ i → i < k + n → (read? m i).isSome = true) →
    ∃ bs, readBlock m k n = some bs
  | 0, _, _ => ⟨[], rfl⟩
  | n + 1, k, h => by
    obtain ⟨b, hb⟩ := Option.isSome_iff_exists.1 (h k (Nat.le_refl _) (by omega))
    obtain ⟨bs, hbs⟩ := readBlock_isSome m n (k + 1) (fun i h1 h2 => h i (by omega) (by omega))
    exact ⟨b :: bs, by simp [readBlock, hb, hbs]⟩

theorem readBlock_length {m : Memory} : ∀ {n k : Nat} {bs : List Byte}, readBlock m k n = some bs → bs.length = n
  | 0, _, _, h => by simp [readBlock] at h; simp [← h]
  | n + 1, k, bs, h => by
    simp only [readBlock] at h
    split at h
    · rename_i b bs' _ hbs
      cases h
      simp [readBlock_length hbs]
    · cases h

theorem readBlock_congr {m m' : Memory} : ∀ {n k : Nat}, (∀ i, k ≤ i → i < k + n → read? m i = read? m' i) →
    readBlock m k n = readBlock m' k n
  | 0, _, _ => rfl
  | n + 1, k, h => by
    simp only [readBlock, h k (Nat.le_refl _) (by omega),
      readBlock_congr (n := n) (k := k + 1) fun i h1 h2 => h i (by omega) (by omega)]

theorem readBlock_append {m : Memory} : ∀ {n k p : Nat} {bs cs : List Byte}, readBlock m k n = some bs →
    readBlock m (k + n) p = some cs → readBlock m k (n + p) = some (bs ++ cs)
  | 0, k, p, bs, cs, h, hc => by
    simp only [readBlock, Option.some.injEq] at h
    subst h
    simpa using hc
  | n + 1, k, p, bs, cs, h, hc => by
    simp only [readBlock] at h
    split at h
    · rename_i b bs' hb hbs
      cases h
      have hc' : readBlock m (k + 1 + n) p = some cs := by rwa [show k + 1 + n = k + (n + 1) by omega]
      have := readBlock_append hbs hc'
      rw [show n + 1 + p = n + p + 1 by omega]
      simp [readBlock, hb, this]
    · cases h

/-- Writing a pixel just past a block extends the block by the pixel's bytes. -/
theorem readBlock_writePixel {m : Memory} {n : Nat} {bs : List Byte} (d : DeviceColor) (h : readBlock m 0 n = some bs) :
    readBlock (writePixel m n d) 0 (n + 3) = some (bs ++ d.bytes) := by
  apply readBlock_append
  · rw [← h]
    apply readBlock_congr
    intro i _ hi
    rw [read?_writePixel, if_neg (by omega), if_neg (by omega), if_neg (by omega)]
  · simp [readBlock, read?_writePixel, DeviceColor.bytes, show ¬ n + 1 + 1 = n by omega]

end Memory

end Sys2Proof.Machine
end

