-- ==== Sys2Proof/Laws/Engine.lean ====
section
/-! SUPPORT. The invariant at the grain of one step of one agent: every engine step and every move of another agent
keeps it, and none of them faults. -/

namespace Sys2Proof.Machine

/-! ## The bus grammar -/

theorem BusPhase.scan_append (es : List Event) (e : Event) : ∀ p : BusPhase,
    BusPhase.scan p (es ++ [e]) = (BusPhase.scan p es).bind fun q => q.next e := by
  induction es with
  | nil => intro p; cases h : p.next e <;> simp [BusPhase.scan, h]
  | cons a es ih =>
    intro p
    cases h : p.next a with
    | none => simp [BusPhase.scan, h]
    | some q => simp [BusPhase.scan, h, ih q]

namespace State

/-! ## What the invariant reads of a state -/

/-- The fields a phase's property speaks of. -/
def view (s : State) :=
  (s.cfg, s.bmem, s.glyphs, s.buf0, s.buf1, s.cursor0, s.cursor1, s.active, s.inFlight, s.xfer, s.streamOpen, s.faulted,
    s.trace)

end State

theorem State.Base.congr {s t : State} {b : Bool} (hb : s.Base b) (h : t.view = s.view) : t.Base b := by
  cases s
  cases t
  simp only [State.view, Prod.mk.injEq] at h
  obtain ⟨rfl, rfl, rfl, rfl, rfl, rfl, rfl, rfl, rfl, rfl, rfl, rfl, rfl⟩ := h
  exact ⟨hb.legal, hb.bmemWf, hb.glyphsWf, hb.buf0Wf, hb.buf1Wf, hb.buf0In, hb.buf1In, hb.cursorLe, hb.cursorMod,
    hb.blockingActive, hb.xferIff, hb.bus, hb.blocks⟩

theorem Phase.Holds.congr {p : Phase} {s t : State} (hp : p.Holds s) (h : t.view = s.view) : p.Holds t := by
  have same : ∀ b, s.Base b → t.Base b := fun b hb => hb.congr h
  cases s
  cases t
  simp only [State.view, Prod.mk.injEq] at h
  obtain ⟨rfl, rfl, rfl, rfl, rfl, rfl, rfl, rfl, rfl, rfl, rfl, rfl, rfl⟩ := h
  cases p <;> first
    | exact ⟨same _ hp.1, hp.2⟩
    | exact hp

theorem State.Rest.congr {s t : State} (hp : s.Rest) (h : t.view = s.view) : t.Rest :=
  Phase.Holds.congr (p := .start) hp h

/-! ## Base under the updates that touch what it reads -/

namespace State

theorem Base.emit {s : State} {b b' : Bool} {e : Event} (h : s.Base b)
    (hn : (BusPhase.of b s.inFlight).next e = some (BusPhase.of b' s.inFlight)) (he : e.blockOk s.cfg = true) :
    (s.emit e).Base b' where
  legal := h.legal
  bmemWf := h.bmemWf
  glyphsWf := h.glyphsWf
  buf0Wf := h.buf0Wf
  buf1Wf := h.buf1Wf
  buf0In := h.buf0In
  buf1In := h.buf1In
  cursorLe := h.cursorLe
  cursorMod := h.cursorMod
  blockingActive := h.blockingActive
  xferIff := h.xferIff
  bus := by simp [BusPhase.scan_append, h.bus, hn]
  blocks := by
    intro x hx
    rcases List.mem_append.1 hx with hx | hx
    · exact h.blocks x hx
    · rw [List.mem_singleton.1 hx]; exact he

theorem Base.transferDone {s : State} {b : Bool} (h : s.Base b) (hf : s.inFlight = true) : s.transferDone.Base b where
  legal := h.legal
  bmemWf := h.bmemWf
  glyphsWf := h.glyphsWf
  buf0Wf := h.buf0Wf
  buf1Wf := h.buf1Wf
  buf0In := h.buf0In
  buf1In := h.buf1In
  cursorLe := h.cursorLe
  cursorMod := h.cursorMod
  blockingActive := h.blockingActive
  xferIff := rfl
  bus := by
    have := h.bus
    rw [hf] at this
    cases b <;> simp [BusPhase.scan_append, this, BusPhase.of, BusPhase.next]
  blocks := by
    intro x hx
    rcases List.mem_append.1 hx with hx | hx
    · exact h.blocks x hx
    · rw [List.mem_singleton.1 hx]; rfl

end State

/-! ## TransferDone -/

theorem Phase.Holds.transferDone {p : Phase} {s : State} (h : p.Holds s) (hf : s.inFlight = true) :
    p.Holds s.transferDone := by
  have flight : s.FlightAway → s.transferDone.FlightAway := fun _ hc => by cases hc
  have opened : s.Opened → s.transferDone.Opened := fun ⟨a, b, c, d, e, f⟩ => ⟨a, b, c, d, e, flight f⟩
  have noClosed : ¬ s.Closed := fun hc => by simp [hc.2.2.1] at hf
  have faulted : s.Faulted → s.transferDone.Faulted := fun ⟨a, b, c, d, _⟩ => ⟨a, b, c, d, fun hc => by cases hc⟩
  cases p with
  | start =>
    obtain ⟨hb, hc | ho | hfl⟩ := h
    · exact absurd hc noClosed
    · exact ⟨hb.transferDone hf, .inr (.inl (opened ho))⟩
    · exact ⟨hb.transferDone hf, .inr (.inr (faulted hfl))⟩
  | live =>
    obtain ⟨hb, hc | ho⟩ := h
    · exact absurd hc noClosed
    · exact ⟨hb.transferDone hf, .inr (opened ho)⟩
  | closed => exact absurd h.2 noClosed
  | acquired => exact absurd h.2 noClosed
  | opened => exact ⟨h.1.transferDone hf, opened h.2⟩
  | stored => exact ⟨h.1.transferDone hf, opened h.2.1, h.2.2⟩
  | advanced => exact ⟨h.1.transferDone hf, h.2.1, flight h.2.2⟩
  | waiting => exact ⟨h.1.transferDone hf, h.2.1, flight h.2.2.1, h.2.2.2⟩
  | issuing => exact absurd h.2.2 (by simp [hf])
  | clearing => exact ⟨h.1.transferDone hf, h.2.1, h.2.2.1, fun hc => by cases hc⟩
  | flipping =>
    obtain ⟨hb, h1, h2, h3, h4, h5, _⟩ := h
    exact ⟨hb.transferDone hf, h1, h2, h3, h4, h5, fun hc => by cases hc⟩
  | completing => exact ⟨h.1.transferDone hf, h.2.1, h.2.2.1, fun hc => by cases hc⟩
  | emptying => exact absurd h.2.2.2 (by simp [hf])
  | drain =>
    obtain ⟨hb, h1, h2, h3, h4, h5⟩ := h
    exact ⟨hb.transferDone hf, h1, h2, h3, h4, flight h5⟩
  | drained => exact absurd h.2.2.2.2.2 (by simp [hf])
  | released => exact absurd h.2.2.2.2.2 (by simp [hf])
  | ended => exact h.elim

/-! ## The engine's steps -/

/-- A busy state in which the invariant holds. -/
def Running (s : State) : Prop :=
  s.busy = true ∧ ∃ p : Phase, p.Holds s ∧ Phase.after s.cfg.mode p s.cont = some .ended

/-- An idle state in which the invariant holds. -/
def AtRest (s : State) : Prop := s.busy = false ∧ s.Rest ∧ s.cont = [] ∧ s.changed = []

theorem inv_iff (s : State) : s.Inv ↔ Running s ∨ AtRest s := by
  unfold State.Inv Running AtRest
  cases s.busy <;> simp

theorem endOp_atRest {s : State} (st : Status) (h : s.Rest) : AtRest (s.endOp st) :=
  ⟨rfl, h.congr rfl, rfl, rfl⟩

theorem running_of {s : State} {p : Phase} (hb : s.busy = true) (h : p.Holds s)
    (hc : Phase.after s.cfg.mode p s.cont = some .ended) : Running s := ⟨hb, p, h, hc⟩

theorem after_append (m : Mode) (xs ys : List EStep) : ∀ p,
    Phase.after m p (xs ++ ys) = (Phase.after m p xs).bind fun q => Phase.after m q ys := by
  induction xs with
  | nil => intro p; rfl
  | cons x xs ih =>
    intro p
    simp only [List.cons_append, Phase.after]
    cases h : p.next m x with
    | none => rfl
    | some q => simpa using ih q

/-- Where a flush starts. -/
def Phase.flushStart (m : Mode) (push : Bool) : Phase :=
  match m with
  | .blocking => .issuing push
  | .async => .waiting push

theorem after_flushSteps (m : Mode) (b : Bool) :
    Phase.after m (Phase.flushStart m b) (flushSteps m) = some (Phase.back b) := by
  cases m <;> cases b <;> rfl

theorem after_finishSteps (m : Mode) : Phase.after m .opened finishSteps = some .closed := by cases m <;> rfl

/-! ## The operations' engine steps are well formed -/

theorem after_windowSteps_closed (m : Mode) (c : Config) (w : Window) :
    Phase.after m .closed (windowSteps c w) = some .opened := rfl

theorem after_windowSteps (m : Mode) (c : Config) (w : Window) :
    Phase.after m .live (windowSteps c w) = some .opened := rfl

theorem after_pushes (m : Mode) : ∀ ps : List Ink,
    Phase.after m .opened (ps.flatMap pushSteps) = some .opened
  | [] => rfl
  | d :: ps => by
    rw [List.flatMap_cons, after_append]
    exact after_pushes m ps

theorem after_stream {m : Mode} {c : Config} {p : Phase} (st : Plan)
    (hp : Phase.after m p (windowSteps c st.win) = some .opened) :
    Phase.after m p (streamSteps c st) = some .closed := by
  rw [streamSteps, after_append, after_append, hp]
  simp only [Option.bind_some, after_pushes]
  exact after_finishSteps m

theorem after_streams (m : Mode) (c : Config) : ∀ sts : List Plan,
    Phase.after m .closed (sts.flatMap (streamSteps c)) = some .closed
  | [] => rfl
  | st :: sts => by
    rw [List.flatMap_cons, after_append, after_stream st (after_windowSteps_closed m c st.win)]
    exact after_streams m c sts

theorem after_drawSteps (m : Mode) (c : Config) (sts : List Plan) (st : Status) :
    Phase.after m .live (drawSteps c sts st) = some .ended := by
  cases sts with
  | nil => rfl
  | cons x xs =>
    rw [drawSteps, List.flatMap_cons, List.append_assoc, after_append, after_stream x (after_windowSteps m c x.win)]
    simp only [Option.bind_some]
    rw [after_append, after_streams]
    rfl

theorem after_checked {m : Mode} {bad : Bool} {code : Status} {rest : List EStep}
    (h : bad = false → Phase.after m .live rest = some .ended) :
    Phase.after m .live (checked bad code rest) = some .ended := by
  cases bad with
  | true => rfl
  | false => exact h rfl

theorem after_bitmapSteps (m : Mode) (c : Config) (x y sc : Word) (base : BitVec 32) (wd ht : Word) :
    Phase.after m .live (bitmapSteps c x y sc base wd ht) = some .ended := by
  unfold bitmapSteps
  split
  · rfl
  · exact after_checked fun _ => after_checked fun _ => after_drawSteps _ _ _ _

/-- A flush may start when the active buffer holds a pixel and is not in flight. -/
theorem flushStart_holds {s : State} (b : Bool) (hb : s.Base true) (hf : s.Filled) (hfl : s.FlightAway) :
    (Phase.flushStart s.cfg.mode b).Holds s := by
  unfold Phase.flushStart
  cases hm : s.cfg.mode with
  | async => exact ⟨hb, hf, hfl, hm⟩
  | blocking =>
    refine ⟨hb, hf, ?_⟩
    cases h : s.inFlight with
    | false => rfl
    | true => exact absurd ((hfl h).1.symm.trans hm) (by decide)

/-- What a tick may answer under the invariant. -/
def Tick.Good (t : Tick) : Prop :=
  match t with
  | .moved s => Running s ∨ AtRest s
  | .blocked => True
  | .fault _ => False

theorem call_flush {s : State} {b : Bool} {k : List EStep} (hbusy : s.busy = true) (hk : s.cont = k)
    (hb : s.Base true) (hf : s.Filled) (hfl : s.FlightAway)
    (hafter : Phase.after s.cfg.mode (Phase.back b) k = some .ended) :
    Running { s with cont := flushSteps s.cfg.mode ++ s.cont } := by
  refine running_of (p := Phase.flushStart s.cfg.mode b) hbusy ((flushStart_holds b hb hf hfl).congr rfl) ?_
  show Phase.after s.cfg.mode _ (flushSteps s.cfg.mode ++ s.cont) = _
  rw [after_append, after_flushSteps, hk]
  exact hafter

theorem flushIx_eq_active {s : State} {b : Bool} (h : s.Base b) : s.flushIx = s.active := by
  unfold State.flushIx
  cases hm : s.cfg.mode with
  | async => rfl
  | blocking => exact ((h.blockingActive hm).1).symm

theorem State.written_congr {s t : State} {i : BufIx} {n : Nat} (h : s.Written i n) (hb : t.buf i = s.buf i) :
    t.Written i n := fun k hk => by rw [hb]; exact h k hk

/-- Updating the active buffer keeps `Base`, if the new contents are canonical and within the capacity. -/
theorem State.Base.setBuf {s : State} {b : Bool} {m : Memory} (h : s.Base b) (hw : Memory.wf m)
    (hin : ∀ x ∈ m, x.1 < s.cfg.capacity) : (s.setBuf s.active m).Base b := by
  have hc : ∀ i, (s.setBuf s.active m).cursor i = s.cursor i := fun i => cursor_setBuf _ _ _ _
  refine ⟨by simpa using h.legal, by simpa using h.bmemWf, by simpa using h.glyphsWf, ?_, ?_, ?_, ?_,
    by simpa using h.cursorLe, by simpa using h.cursorMod, ?_, by simpa using h.xferIff, by simpa using h.bus,
    by simpa using h.blocks⟩
  · cases ha : s.active
    · exact hw
    · exact h.buf0Wf
  · cases ha : s.active
    · exact h.buf1Wf
    · exact hw
  · cases ha : s.active
    · exact hin
    · exact h.buf0In
  · cases ha : s.active
    · exact h.buf1In
    · exact hin
  · intro hm
    have hm' : s.cfg.mode = .blocking := by simpa using hm
    obtain ⟨ha, h1⟩ := h.blockingActive hm'
    refine ⟨by simpa using ha, ?_⟩
    rw [ha]
    exact h1

/-- Updating the active cursor keeps `Base`, if it stays in range. -/
theorem State.Base.setCursor {s : State} {b : Bool} {n : Nat} (h : s.Base b) (hle : n ≤ s.cfg.capacity)
    (hmod : n % 3 = 0) : (s.setCursor s.active n).Base b where
  legal := by simpa using h.legal
  bmemWf := by simpa using h.bmemWf
  glyphsWf := by simpa using h.glyphsWf
  buf0Wf := by simpa using h.buf0Wf
  buf1Wf := by simpa using h.buf1Wf
  buf0In := by simpa using h.buf0In
  buf1In := by simpa using h.buf1In
  cursorLe := by simpa using hle
  cursorMod := by simpa using hmod
  blockingActive := by simpa using h.blockingActive
  xferIff := by simpa using h.xferIff
  bus := by simpa using h.bus
  blocks := by simpa using h.blocks

/-- Both cursors are the active one and the other one. -/
theorem cursors_zero {s : State} (h1 : s.cursor s.active = 0) (h2 : s.cursor s.active.other = 0) :
    s.cursor0 = 0 ∧ s.cursor1 = 0 := by
  cases ha : s.active <;> rw [ha] at h1 h2
  · exact ⟨h1, h2⟩
  · exact ⟨h2, h1⟩

theorem cursor_zero {s : State} (h0 : s.cursor0 = 0) (h1 : s.cursor1 = 0) (i : BufIx) : s.cursor i = 0 := by
  cases i
  · exact h0
  · exact h1

theorem written_zero (s : State) (i : BufIx) : s.Written i 0 := fun k hk => absurd hk (Nat.not_lt_zero k)

theorem storePixel_good {s : State} {d : DeviceColor} (hbusy : s.busy = true) (hp : Phase.opened.Holds s)
    (hk : Phase.after s.cfg.mode .stored s.cont = some .ended) : (storePixel s d).Good := by
  obtain ⟨hb, hf, ho, hle, hz, hw, hfl⟩ := hp
  unfold storePixel
  rw [if_pos hle]
  have hin : ∀ x ∈ s.buf s.active, x.1 < s.cfg.capacity := by
    cases s.active
    · exact hb.buf0In
    · exact hb.buf1In
  have hwf : Memory.wf (s.buf s.active) := by
    cases s.active
    · exact hb.buf0Wf
    · exact hb.buf1Wf
  refine .inl (running_of (p := .stored) (by simpa using hbusy) ⟨?_, ⟨?_, ?_, ?_, ?_, ?_, ?_⟩, ?_⟩ (by simpa using hk))
  · exact hb.setBuf (Memory.writePixel_wf _ _ hwf) (Memory.writePixel_bound _ hin hle)
  · simpa using hf
  · simpa using ho
  · simpa using hle
  · simpa using hz
  · intro k hk
    have hk' : k < s.cursor s.active := by simpa using hk
    have := hw k hk'
    simp only [State.setBuf_active, State.buf_setBuf_same]
    rw [Memory.read?_writePixel, if_neg (by omega), if_neg (by omega), if_neg (by omega)]
    exact this
  · intro h
    simpa using hfl (by simpa using h)
  · intro k hk
    have hk' : k < s.cursor s.active + 3 := by simpa using hk
    simp only [State.setBuf_active, State.buf_setBuf_same]
    rw [Memory.read?_writePixel]
    split
    · rfl
    · split
      · rfl
      · split
        · rfl
        · exact hw k (by omega)

theorem advance_good {s : State} (hbusy : s.busy = true) (hp : Phase.stored.Holds s)
    (hk : Phase.after s.cfg.mode .advanced s.cont = some .ended) :
    (Tick.moved (s.setCursor s.active (s.cursor s.active + 3))).Good := by
  obtain ⟨hb, ⟨hf, ho, hle, hz, _, hfl⟩, hw⟩ := hp
  refine .inl (running_of (p := .advanced) (by simpa using hbusy) ⟨?_, ⟨?_, ?_, ?_, ?_, ?_⟩, ?_⟩ (by simpa using hk))
  · exact hb.setCursor hle (by have := hb.cursorMod; omega)
  · simpa using hf
  · simpa using ho
  · simp
  · simpa using hz
  · intro k hk
    have hk' : k < s.cursor s.active + 3 := by simpa using hk
    simpa using hw k hk'
  · intro h
    simpa using hfl (by simpa using h)

theorem issueStep_good {s : State} {push : Bool} {q : Phase} (hbusy : s.busy = true) (hp : (Phase.issuing push).Holds s)
    (hn : (Phase.issuing push).next s.cfg.mode .issue = some q)
    (hk : Phase.after s.cfg.mode q s.cont = some .ended) : (issueStep s).Good := by
  obtain ⟨hb, ⟨hf, ho, hge, hz, hw⟩, hfl⟩ := hp
  have hix := flushIx_eq_active hb
  obtain ⟨bs, hbs⟩ := Memory.readBlock_isSome (s.buf s.active) (s.cursor s.active) 0 (fun i _ hi => hw i (by omega))
  have hlen := Memory.readBlock_length hbs
  unfold issueStep
  rw [hix, hbs]
  have hbase : (s.issueBlock bs).Base true := by
    have hscan := hb.bus
    rw [hfl] at hscan
    refine ⟨hb.legal, hb.bmemWf, hb.glyphsWf, hb.buf0Wf, hb.buf1Wf, hb.buf0In, hb.buf1In, hb.cursorLe, hb.cursorMod,
      hb.blockingActive, rfl, ?_, ?_⟩
    · simp [BusPhase.scan_append, hscan, BusPhase.of, BusPhase.next]
    · intro x hx
      rcases List.mem_append.1 hx with hx | hx
      · exact hb.blocks x hx
      · rw [List.mem_singleton.1 hx]
        have h1 := hb.cursorLe
        have h2 := hb.cursorMod
        simp [Event.blockOk, hlen, hge, h1, h2]
  have hfilled : (s.issueBlock bs).Filled := ⟨hf, ho, hge, hz, fun k hk => hw k hk⟩
  simp only [Phase.next] at hn
  refine .inl ?_
  cases hm : s.cfg.mode with
  | async =>
    rw [if_pos hm] at hn
    cases hn
    refine running_of (p := .clearing push) hbusy ⟨hbase, hfilled, hm, fun _ => ?_⟩ hk
    show some (s.flushIx, s.cursor s.flushIx) = some (s.active, s.cursor s.active)
    rw [hix]
  | blocking =>
    rw [if_neg (by rw [hm]; decide)] at hn
    cases hn
    refine running_of (p := .completing push) hbusy ⟨hbase, hfilled, hm, fun _ => ?_⟩ hk
    show some (s.flushIx, s.cursor s.flushIx) = some (.b0, s.cursor0)
    rw [hix, (hb.blockingActive hm).1]
    rfl

theorem cont_nil_of_ended {m : Mode} {k : List EStep} (h : Phase.after m .ended k = some .ended) : k = [] := by
  cases k with
  | nil => rfl
  | cons e k => cases h

theorem faultCheck_good {s : State} {p q : Phase} (hbusy : s.busy = true) (hp : p.Holds s)
    (hn : p.next s.cfg.mode .faultCheck = some q) (hk : Phase.after s.cfg.mode q s.cont = some .ended) :
    (engineDo .faultCheck s).Good := by
  cases p <;> simp [Phase.next] at hn
  subst hn
  obtain ⟨hb, h⟩ := hp
  simp only [engineDo]
  split
  · exact .inr (endOp_atRest _ ⟨hb, h⟩)
  · rename_i hf
    refine .inl (running_of (p := .live) hbusy ⟨hb, ?_⟩ hk)
    rcases h with h | h | h
    · exact .inl h
    · exact .inr h
    · exact absurd h.1 hf

theorem raiseIf_good (bad : Bool) (code : Status) {s : State} {p q : Phase} (hbusy : s.busy = true) (hp : p.Holds s)
    (hn : p.next s.cfg.mode (.raiseIf bad code) = some q) (hk : Phase.after s.cfg.mode q s.cont = some .ended) :
    (engineDo (.raiseIf bad code) s).Good := by
  cases p <;> simp [Phase.next] at hn
  subst hn
  obtain ⟨hb, h⟩ := hp
  cases bad
  · exact .inl (running_of (p := .live) hbusy ⟨hb, h⟩ hk)
  · exact .inr (endOp_atRest _ ⟨hb, h.imp id .inl⟩)

theorem requireStream_good {s : State} {p q : Phase} (hbusy : s.busy = true) (hp : p.Holds s)
    (hn : p.next s.cfg.mode .requireStream = some q) (hk : Phase.after s.cfg.mode q s.cont = some .ended) :
    (engineDo .requireStream s).Good := by
  cases p <;> simp [Phase.next] at hn
  subst hn
  obtain ⟨hb, h⟩ := hp
  simp only [engineDo]
  split
  · rename_i ho
    rw [ho] at hb
    refine .inl (running_of (p := .opened) hbusy ⟨hb, ?_⟩ hk)
    exact h.resolve_left fun hc => by simp [hc.2.1] at ho
  · exact .inr (endOp_atRest _ ⟨hb, h.imp id .inl⟩)

theorem closeStream_good {s : State} {p q : Phase} (hbusy : s.busy = true) (hp : p.Holds s)
    (hn : p.next s.cfg.mode .closeStream = some q) (hk : Phase.after s.cfg.mode q s.cont = some .ended) :
    (engineDo .closeStream s).Good := by
  have main : s.Base s.streamOpen ∧ (s.Closed ∨ s.Opened) →
      Phase.after s.cfg.mode .closed s.cont = some .ended → (engineDo .closeStream s).Good := by
    rintro ⟨hb, h⟩ hk
    simp only [engineDo]
    split
    · rename_i ho
      rw [ho] at hb
      refine .inl (running_of (p := .opened) hbusy (Phase.Holds.congr (s := s) ⟨hb, ?_⟩ rfl) ?_)
      · exact h.resolve_left fun hc => by simp [hc.2.1] at ho
      · show Phase.after s.cfg.mode .opened (finishSteps ++ s.cont) = _
        rw [after_append, after_finishSteps]
        exact hk
    · rename_i ho
      have ho' : s.streamOpen = false := by simpa using ho
      rw [ho'] at hb
      refine .inl (running_of (p := .closed) hbusy ⟨hb, ?_⟩ hk)
      exact h.resolve_right fun hc => by simp [hc.2.1] at ho
  cases p <;> simp [Phase.next] at hn <;> subst hn
  · exact main hp hk
  · exact main ⟨by rw [hp.2.2.1]; exact hp.1, .inl hp.2⟩ hk

theorem emit_good (ev : Event) {s : State} {p q : Phase} (hbusy : s.busy = true) (hp : p.Holds s)
    (hn : p.next s.cfg.mode (.emit ev) = some q) (hk : Phase.after s.cfg.mode q s.cont = some .ended) :
    (engineDo (.emit ev) s).Good := by
  cases ev with
  | cmd b =>
    cases p <;> simp [Phase.next] at hn
    subst hn
    have hfl := hp.2.2.2.1
    exact .inl (running_of (p := .closed) hbusy ⟨hp.1.emit (by rw [hfl]; rfl) rfl, hp.2⟩ hk)
  | data b =>
    cases p <;> simp [Phase.next] at hn
    subst hn
    have hfl := hp.2.2.2.1
    exact .inl (running_of (p := .closed) hbusy ⟨hp.1.emit (by rw [hfl]; rfl) rfl, hp.2⟩ hk)
  | scopeAcquire =>
    cases p <;> simp [Phase.next] at hn
    subst hn
    have hfl := hp.2.2.2.1
    exact .inl (running_of (p := .acquired) hbusy ⟨hp.1.emit (by rw [hfl]; rfl) rfl, hp.2⟩ hk)
  | scopeRelease =>
    cases p <;> simp [Phase.next] at hn
    subst hn
    have hfl := hp.2.2.2.2.2
    exact .inl (running_of (p := .released) hbusy ⟨hp.1.emit (by rw [hfl]; rfl) rfl, hp.2⟩ hk)
  | block m bs => cases p <;> simp [Phase.next] at hn
  | done => cases p <;> simp [Phase.next] at hn

theorem writeWin_good (w : Window) {s : State} {p q : Phase} (hbusy : s.busy = true) (hp : p.Holds s)
    (hn : p.next s.cfg.mode (.writeWin w) = some q) (hk : Phase.after s.cfg.mode q s.cont = some .ended) :
    (engineDo (.writeWin w) s).Good := by
  cases p <;> simp [Phase.next] at hn
  subst hn
  exact .inl (running_of (p := .closed) hbusy (Phase.Holds.congr (s := s) hp rfl) hk)

theorem openStream_good {s : State} {p q : Phase} (hbusy : s.busy = true) (hp : p.Holds s)
    (hn : p.next s.cfg.mode .openStream = some q) (hk : Phase.after s.cfg.mode q s.cont = some .ended) :
    (engineDo .openStream s).Good := by
  cases p <;> simp [Phase.next] at hn
  subst hn
  obtain ⟨hb, hf, ho, hfl, h0, h1⟩ := hp
  refine .inl (running_of (p := .opened) hbusy ⟨⟨hb.legal, hb.bmemWf, hb.glyphsWf, hb.buf0Wf, hb.buf1Wf, hb.buf0In,
    hb.buf1In, hb.cursorLe, hb.cursorMod, hb.blockingActive, hb.xferIff, hb.bus, hb.blocks⟩, hf, rfl, ?_, ?_, ?_, ?_⟩ hk)
  · have h3 := hb.legal.1
    have := cursor_zero h0 h1 s.active
    show s.cursor s.active + 3 ≤ s.cfg.capacity
    omega
  · exact cursor_zero h0 h1 _
  · have := cursor_zero h0 h1 s.active
    show s.Written s.active (s.cursor s.active)
    rw [this]
    exact written_zero _ _
  · intro h
    have h' : s.inFlight = true := h
    simp [hfl] at h'

theorem storeStep_good (x : Ink) {s : State} {p q : Phase} (hbusy : s.busy = true) (hp : p.Holds s)
    (hn : p.next s.cfg.mode (.store x) = some q) (hk : Phase.after s.cfg.mode q s.cont = some .ended) :
    (engineDo (.store x) s).Good := by
  cases p <;> simp [Phase.next] at hn
  subst hn
  exact storePixel_good (s := { s with draws := s.inkDraws x }) hbusy (Phase.Holds.congr (s := s) hp rfl) hk

theorem readHeader_good (x y sc : Word) (base : BitVec 32) {s : State} {p q : Phase} (hbusy : s.busy = true)
    (hp : p.Holds s) (hn : p.next s.cfg.mode (.readHeader x y sc base) = some q)
    (hk : Phase.after s.cfg.mode q s.cont = some .ended) : (engineDo (.readHeader x y sc base) s).Good := by
  cases p <;> simp [Phase.next] at hn
  subst hn
  refine .inl (running_of (p := .live) hbusy (Phase.Holds.congr (s := s) hp rfl) ?_)
  rw [State.readHeader_cont, State.readHeader_cfg, cont_nil_of_ended hk, List.append_nil]
  exact after_bitmapSteps ..

theorem advanceStep_good {s : State} {p q : Phase} (hbusy : s.busy = true) (hp : p.Holds s)
    (hn : p.next s.cfg.mode .advance = some q) (hk : Phase.after s.cfg.mode q s.cont = some .ended) :
    (engineDo .advance s).Good := by
  cases p <;> simp [Phase.next] at hn
  subst hn
  exact advance_good hbusy hp hk

theorem flushIfFull_good {s : State} {p q : Phase} (hbusy : s.busy = true) (hp : p.Holds s)
    (hn : p.next s.cfg.mode .flushIfFull = some q) (hk : Phase.after s.cfg.mode q s.cont = some .ended) :
    (engineDo .flushIfFull s).Good := by
  cases p <;> simp [Phase.next] at hn
  subst hn
  obtain ⟨hb, hf, hfl⟩ := hp
  simp only [engineDo]
  split
  · exact .inl (call_flush (b := true) hbusy rfl hb hf hfl hk)
  · rename_i hc
    obtain ⟨h1, h2, h3, h4, h5⟩ := hf
    exact .inl (running_of (p := .opened) hbusy ⟨hb, h1, h2, by omega, h4, h5, hfl⟩ hk)

theorem flushIfAny_good {s : State} {p q : Phase} (hbusy : s.busy = true) (hp : p.Holds s)
    (hn : p.next s.cfg.mode .flushIfAny = some q) (hk : Phase.after s.cfg.mode q s.cont = some .ended) :
    (engineDo .flushIfAny s).Good := by
  cases p <;> simp [Phase.next] at hn
  subst hn
  obtain ⟨hb, h1, h2, h3, h4, h5, h6⟩ := hp
  simp only [engineDo]
  split
  · rename_i hc
    have := hb.cursorMod
    exact .inl (call_flush (b := false) hbusy rfl hb ⟨h1, h2, by omega, h4, h5⟩ h6 hk)
  · rename_i hc
    obtain ⟨z0, z1⟩ := cursors_zero (s := s) (by omega) h4
    exact .inl (running_of (p := .drain) hbusy ⟨hb, h1, h2, z0, z1, h6⟩ hk)

theorem waitIdle_good {s : State} {p q : Phase} (hbusy : s.busy = true) (hp : p.Holds s)
    (hn : p.next s.cfg.mode .waitIdle = some q) (hk : Phase.after s.cfg.mode q s.cont = some .ended) :
    (engineDo .waitIdle s).Good := by
  simp only [engineDo]
  split
  · exact trivial
  · rename_i hfl
    have hfl' : s.inFlight = false := by simpa using hfl
    cases p <;> simp [Phase.next] at hn
    · rename_i push
      obtain ⟨_, rfl⟩ := hn
      exact .inl (running_of (p := .issuing push) hbusy ⟨hp.1, hp.2.1, hfl'⟩ hk)
    · rename_i push
      subst hn
      exact .inl (running_of (p := .emptying push) hbusy ⟨hp.1, hp.2.1, hp.2.2.1, hfl'⟩ hk)
    · subst hn
      obtain ⟨hb, h1, h2, h3, h4, _⟩ := hp
      exact .inl (running_of (p := .drained) hbusy ⟨hb, h1, h2, h3, h4, hfl'⟩ hk)

theorem issueEngine_good {s : State} {p q : Phase} (hbusy : s.busy = true) (hp : p.Holds s)
    (hn : p.next s.cfg.mode .issue = some q) (hk : Phase.after s.cfg.mode q s.cont = some .ended) :
    (engineDo .issue s).Good := by
  cases p <;> try (simp [Phase.next] at hn; done)
  exact issueStep_good hbusy hp hn hk

theorem clearCursor_good {s : State} {p q : Phase} (hbusy : s.busy = true) (hp : p.Holds s)
    (hn : p.next s.cfg.mode .clearCursor = some q) (hk : Phase.after s.cfg.mode q s.cont = some .ended) :
    (engineDo .clearCursor s).Good := by
  cases p <;> simp [Phase.next] at hn <;> subst hn
  · obtain ⟨hb, ⟨h1, h2, h3, h4, h5⟩, hm, hx⟩ := hp
    have hix := flushIx_eq_active hb
    simp only [engineDo, hix]
    obtain ⟨z0, z1⟩ := cursors_zero (s := s.setCursor s.active 0) (by simp) (by simpa using h4)
    refine .inl (running_of (p := .flipping _) (by simpa using hbusy)
      ⟨hb.setCursor (Nat.zero_le _) rfl, by simpa using h1, by simpa using h2, by simpa using hm, z0, z1, ?_⟩
      (by simpa using hk))
    intro h
    exact ⟨s.cursor s.active, by simpa using hx (by simpa using h), h3, by simpa using hb.cursorLe, hb.cursorMod⟩
  · obtain ⟨hb, ⟨h1, h2, h3, h4, h5⟩, hm, hfl⟩ := hp
    have hix := flushIx_eq_active hb
    simp only [engineDo, hix]
    obtain ⟨z0, z1⟩ := cursors_zero (s := s.setCursor s.active 0) (by simp) (by simpa using h4)
    have away : (s.setCursor s.active 0).FlightAway := fun h => by
      rw [State.setCursor_inFlight, hfl] at h
      cases h
    have hbase : (s.setCursor s.active 0).Base true := hb.setCursor (Nat.zero_le _) rfl
    rename_i push
    cases push
    · exact .inl (running_of (p := .drain) (by simpa using hbusy)
        ⟨hbase, by simpa using h1, by simpa using h2, z0, z1, away⟩ (by simpa [Phase.back] using hk))
    · refine .inl (running_of (p := .opened) (by simpa using hbusy)
        ⟨hbase, by simpa using h1, by simpa using h2, ?_, by simpa using h4, ?_, away⟩ (by simpa [Phase.back] using hk))
      · have := hb.legal.1
        simpa using this
      · have : (s.setCursor s.active 0).cursor (s.setCursor s.active 0).active = 0 := by simp
        rw [this]
        exact written_zero _ _

theorem flipActive_good {s : State} {p q : Phase} (hbusy : s.busy = true) (hp : p.Holds s)
    (hn : p.next s.cfg.mode .flipActive = some q) (hk : Phase.after s.cfg.mode q s.cont = some .ended) :
    (engineDo .flipActive s).Good := by
  cases p <;> simp [Phase.next] at hn
  subst hn
  obtain ⟨hb, h1, h2, hm, z0, z1, hx⟩ := hp
  simp only [engineDo]
  have hbase : ({ s with active := s.active.other } : State).Base true :=
    ⟨hb.legal, hb.bmemWf, hb.glyphsWf, hb.buf0Wf, hb.buf1Wf, hb.buf0In, hb.buf1In,
      by
        show s.cursor s.active.other ≤ s.cfg.capacity
        rw [cursor_zero z0 z1]
        exact Nat.zero_le _,
      by
        show s.cursor s.active.other % 3 = 0
        rw [cursor_zero z0 z1],
      fun h => absurd (hm.symm.trans h) (by decide), hb.xferIff, hb.bus, hb.blocks⟩
  have away : ({ s with active := s.active.other } : State).FlightAway := fun h => by
    obtain ⟨len, h3, h4⟩ := hx h
    exact ⟨hm, len, by simpa using h3, h4⟩
  rename_i push
  cases push
  · exact .inl (running_of (p := .drain) hbusy ⟨hbase, h1, h2, z0, z1, away⟩ hk)
  · refine .inl (running_of (p := .opened) hbusy ⟨hbase, h1, h2, ?_, ?_, ?_, away⟩ hk)
    · show s.cursor s.active.other + 3 ≤ s.cfg.capacity
      have := hb.legal.1
      rw [cursor_zero z0 z1]
      omega
    · show s.cursor s.active.other.other = 0
      exact cursor_zero z0 z1 _
    · show s.Written s.active.other (s.cursor s.active.other)
      rw [cursor_zero z0 z1]
      exact written_zero _ _

theorem shutStream_good {s : State} {p q : Phase} (hbusy : s.busy = true) (hp : p.Holds s)
    (hn : p.next s.cfg.mode .shutStream = some q) (hk : Phase.after s.cfg.mode q s.cont = some .ended) :
    (engineDo .shutStream s).Good := by
  cases p <;> simp [Phase.next] at hn
  subst hn
  obtain ⟨hb, h1, h2, z0, z1, hfl⟩ := hp
  exact .inl (running_of (p := .closed) hbusy
    ⟨⟨hb.legal, hb.bmemWf, hb.glyphsWf, hb.buf0Wf, hb.buf1Wf, hb.buf0In, hb.buf1In, hb.cursorLe, hb.cursorMod,
      hb.blockingActive, hb.xferIff, hb.bus, hb.blocks⟩, h1, rfl, hfl, z0, z1⟩ hk)

theorem writeResult_good (v : BitVec 24) {s : State} {p q : Phase} (hbusy : s.busy = true) (hp : p.Holds s)
    (hn : p.next s.cfg.mode (.writeResult v) = some q) (hk : Phase.after s.cfg.mode q s.cont = some .ended) :
    (engineDo (.writeResult v) s).Good := by
  cases p <;> simp [Phase.next] at hn
  subst hn
  exact .inl (running_of (p := .start) hbusy (Phase.Holds.congr (s := s) hp rfl) hk)

theorem finishOp_good (st : Status) {s : State} {p q : Phase} (hp : p.Holds s)
    (hn : p.next s.cfg.mode (.finishOp st) = some q) :
    (engineDo (.finishOp st) s).Good := by
  simp only [engineDo]
  refine .inr (endOp_atRest _ ?_)
  cases p <;> simp [Phase.next] at hn
  · exact hp
  · exact ⟨hp.1, hp.2.imp id .inl⟩
  · exact ⟨by rw [hp.2.2.1]; exact hp.1, .inl hp.2⟩
  · exact ⟨by rw [hp.2.2.1]; exact hp.1, .inr (.inl hp.2)⟩

/-- An engine step taken where the invariant holds keeps it, and does not fault. -/
theorem engineDo_good {s : State} {e : EStep} {p q : Phase} (hbusy : s.busy = true) (hp : p.Holds s)
    (hn : p.next s.cfg.mode e = some q) (hk : Phase.after s.cfg.mode q s.cont = some .ended) :
    (engineDo e s).Good := by
  cases e with
  | faultCheck => exact faultCheck_good hbusy hp hn hk
  | raiseIf bad code => exact raiseIf_good bad code hbusy hp hn hk
  | requireStream => exact requireStream_good hbusy hp hn hk
  | closeStream => exact closeStream_good hbusy hp hn hk
  | emit ev => exact emit_good ev hbusy hp hn hk
  | writeWin w => exact writeWin_good w hbusy hp hn hk
  | openStream => exact openStream_good hbusy hp hn hk
  | store x => exact storeStep_good x hbusy hp hn hk
  | readHeader x y sc base => exact readHeader_good x y sc base hbusy hp hn hk
  | advance => exact advanceStep_good hbusy hp hn hk
  | flushIfFull => exact flushIfFull_good hbusy hp hn hk
  | flushIfAny => exact flushIfAny_good hbusy hp hn hk
  | waitIdle => exact waitIdle_good hbusy hp hn hk
  | issue => exact issueEngine_good hbusy hp hn hk
  | clearCursor => exact clearCursor_good hbusy hp hn hk
  | flipActive => exact flipActive_good hbusy hp hn hk
  | shutStream => exact shutStream_good hbusy hp hn hk
  | writeResult v => exact writeResult_good v hbusy hp hn hk
  | finishOp st => exact finishOp_good st hp hn

/-! ## One step of one agent -/

theorem dropStay_view (s : State) : s.dropStay.view = s.view := by
  unfold State.dropStay
  split <;> rfl

theorem running_congr {s t : State} (h : Running s) (hv : t.view = s.view) (hb : t.busy = s.busy)
    (hc : t.cont = s.cont) : Running t := by
  obtain ⟨h1, p, h2, h3⟩ := h
  have hcfg : t.cfg = s.cfg := congrArg (·.1) hv
  exact ⟨hb.trans h1, p, h2.congr hv, by rw [hcfg, hc]; exact h3⟩

theorem atRest_congr {s t : State} (h : AtRest s) (hv : t.view = s.view) (hb : t.busy = s.busy)
    (hc : t.cont = s.cont) (hch : t.changed = s.changed) : AtRest t :=
  ⟨hb.trans h.1, h.2.1.congr hv, hc.trans h.2.2.1, hch.trans h.2.2.2⟩

theorem inv_congr {s t : State} (h : s.Inv) (hv : t.view = s.view) (hb : t.busy = s.busy) (hc : t.cont = s.cont)
    (hch : t.changed = s.changed) : t.Inv := by
  rw [inv_iff] at h ⊢
  exact h.imp (running_congr · hv hb hc) (atRest_congr · hv hb hc hch)

/-! ## The host's writes -/

/-- What the host changes of the resources keeps the property of a phase, if they stay in canonical form. -/
theorem Phase.Holds.resources {p : Phase} {s : State} {b : Cells 16} {g : Memory} {c : List Source} (hp : p.Holds s)
    (hb : Memory.wfZero b) (hg : Memory.wfZero g) : p.Holds { s with bmem := b, glyphs := g, changed := c } := by
  have same : ∀ o, s.Base o → ({ s with bmem := b, glyphs := g, changed := c } : State).Base o := fun o h =>
    ⟨h.legal, hb, hg, h.buf0Wf, h.buf1Wf, h.buf0In, h.buf1In, h.cursorLe, h.cursorMod, h.blockingActive, h.xferIff, h.bus,
      h.blocks⟩
  cases p <;> first
    | exact ⟨same _ hp.1, hp.2⟩
    | exact hp

theorem Phase.Holds.base {p : Phase} {s : State} (hp : p.Holds s) : ∃ o, s.Base o := by
  cases p <;> first
    | exact ⟨_, hp.1⟩
    | exact hp.elim

/-- A change of a resource keeps the invariant, if it keeps the canonical form. -/
theorem resources_inv {s t : State} {b : Cells 16} {g : Memory} {c : List Source} (h : s.Inv)
    (hw : Memory.wfZero s.bmem → Memory.wfZero s.glyphs → Memory.wfZero b ∧ Memory.wfZero g)
    (hc : s.busy = false → c = s.changed) (ht : t = { s with bmem := b, glyphs := g, changed := c }) : t.Inv := by
  subst ht
  rw [inv_iff] at h ⊢
  rcases h with ⟨h1, p, h2, h3⟩ | ⟨h1, h2, h3, h4⟩
  · obtain ⟨o, ho⟩ := h2.base
    obtain ⟨hb, hg⟩ := hw ho.bmemWf ho.glyphsWf
    exact .inl ⟨h1, p, h2.resources hb hg, h3⟩
  · obtain ⟨hb, hg⟩ := hw h2.1.bmemWf h2.1.glyphsWf
    exact .inr ⟨h1, Phase.Holds.resources (p := .start) h2 hb hg, h3, (hc h1).trans h4⟩

theorem hostWord_inv {s : State} (h : s.Inv) (a : Nat) (w : Word) : (s.hostWord a w).Inv :=
  resources_inv h (fun hb hg => ⟨Cells.load_wfZero a w hb, hg⟩) (fun hb => by simp [State.change, hb]) rfl

theorem hostRow_inv {s : State} (h : s.Inv) (code : Byte) (j : Fin 13) (v : Byte) : (s.hostRow code j v).Inv :=
  resources_inv h (fun hb hg => ⟨hb, Cells.load_wfZero _ v hg⟩) (fun hb => by simp [State.change, hb]) rfl

theorem transferDone_inv {s : State} (h : s.Inv) (hf : s.inFlight = true) : s.transferDone.Inv := by
  rw [inv_iff] at h ⊢
  rcases h with ⟨h1, p, h2, h3⟩ | ⟨h1, h2, h3⟩
  · exact .inl ⟨h1, p, h2.transferDone hf, h3⟩
  · exact .inr ⟨h1, Phase.Holds.transferDone (p := .start) h2 hf, h3⟩

/-- The phases at which the engine can be held. -/
theorem held_phase {s : State} (h : s.Inv) (hh : s.held = true) :
    ∃ (k : List EStep) (p : Phase), s.cont = .waitIdle :: k ∧ p.Holds s ∧
      ((∃ b, p = .waiting b) ∨ (∃ b, p = .completing b) ∨ p = .drain) := by
  have hbusy : s.busy = true := by
    cases hb : s.busy with
    | true => rfl
    | false => simp [State.held, hb] at hh
  have hrun : Running s := ((inv_iff s).1 h).resolve_right fun hr => by simp [hr.1] at hbusy
  obtain ⟨_, p, hp, hk⟩ := hrun
  obtain ⟨k, hc⟩ : ∃ k, s.cont = .waitIdle :: k := by
    unfold State.held at hh
    split at hh
    · rename_i k hc
      exact ⟨k, hc⟩
    · simp at hh
  refine ⟨k, p, hc, hp, ?_⟩
  rw [hc] at hk
  cases p <;> simp [Phase.after, Phase.next] at hk ⊢

/-- The timeout event leaves a faulted core at rest (R207, R213). -/
theorem timeoutEvent_atRest {s : State} (h : s.Inv) (hh : s.held = true) : AtRest s.timeoutEvent := by
  obtain ⟨k, p, _, hp, hcase⟩ := held_phase h hh
  have hfl : s.inFlight = true := by
    cases hi : s.inFlight with
    | true => rfl
    | false => simp [State.held, hi] at hh
  have key : s.Base true → s.streamOpen = true → s.cursor s.active.other = 0 →
      s.Written s.active (s.cursor s.active) →
      (∃ len, s.xfer = some ((match s.cfg.mode with | .blocking => BufIx.b0 | .async => s.active.other), len) ∧
        3 ≤ len ∧ len ≤ s.cfg.capacity ∧ len % 3 = 0) → AtRest s.timeoutEvent := by
    intro hb ho hz hw hx
    refine endOp_atRest (s := s.abort) _ ?_
    have hab : s.abort = { s.emit .scopeRelease with streamOpen := false, faulted := true } := by
      unfold State.abort
      rw [if_pos ho]
    rw [hab]
    have hb' : (s.emit .scopeRelease).Base false := hb.emit (by rw [hfl]; rfl) rfl
    exact ⟨⟨hb'.legal, hb'.bmemWf, hb'.glyphsWf, hb'.buf0Wf, hb'.buf1Wf, hb'.buf0In, hb'.buf1In, hb'.cursorLe,
      hb'.cursorMod, hb'.blockingActive, hb'.xferIff, hb'.bus, hb'.blocks⟩, .inr (.inr ⟨rfl, rfl, hz, hw, fun _ => hx⟩)⟩
  rcases hcase with ⟨b, rfl⟩ | ⟨b, rfl⟩ | rfl
  · obtain ⟨hb, ⟨h1, h2, h3, h4, h5⟩, hfa, hm⟩ := hp
    refine key hb h2 h4 h5 ?_
    rw [hm]
    exact (hfa hfl).2
  · obtain ⟨hb, ⟨h1, h2, h3, h4, h5⟩, hm, hx⟩ := hp
    refine key hb h2 h4 h5 ?_
    rw [hm]
    obtain ⟨ha, -⟩ := hb.blockingActive hm
    have h6 := hb.cursorLe
    have h7 := hb.cursorMod
    rw [ha] at h3 h6 h7
    exact ⟨s.cursor0, hx hfl, h3, h6, h7⟩
  · obtain ⟨hb, h1, h2, z0, z1, hfa⟩ := hp
    refine key hb h2 (cursor_zero z0 z1 _) ?_ ?_
    · rw [cursor_zero z0 z1]
      exact written_zero _ _
    · obtain ⟨hm, hx⟩ := hfa hfl
      rw [hm]
      exact hx

theorem held_with_moves (s : State) (ms : List Move) : ({ s with moves := ms } : State).held = s.held := rfl

/-- Every move of another agent keeps the invariant. -/
theorem envMove_inv {s t : State} (h : s.Inv) (ht : s.envMove = some t) : t.Inv := by
  have hwith : ∀ ms : List Move, ({ s with moves := ms } : State).Inv := fun ms => inv_congr h rfl rfl rfl rfl
  unfold State.envMove at ht
  split at ht
  · split at ht
    · rename_i hf
      cases ht
      exact transferDone_inv (hwith _) hf
    · cases ht
  · split at ht
    · split at ht
      · rename_i hh
        cases ht
        exact (inv_iff _).2 (.inr (timeoutEvent_atRest (hwith _) hh))
      · cases ht
    · cases ht
      exact hwith _
  · cases ht
    exact inv_congr h rfl rfl rfl rfl
  · cases ht
    exact hostWord_inv (hwith _) _ _
  · cases ht
    exact hostRow_inv (hwith _) _ _ _
  · split at ht
    · cases ht
      exact hwith _
    · cases ht
  · split at ht
    · split at ht
      · rename_i hc
        cases ht
        exact transferDone_inv h (by simp_all)
      · cases ht
    · split at ht
      · rename_i hc
        cases ht
        exact (inv_iff _).2 (.inr (timeoutEvent_atRest h (by simp_all)))
      · cases ht

/-- Every step of a busy machine keeps the invariant, and none faults. -/
theorem tick_good {s : State} (h : s.Inv) (hbusy : s.busy = true) : (tick s).Good := by
  unfold tick
  split
  · rename_i t ht
    exact (inv_iff t).1 (envMove_inv h ht)
  · obtain ⟨_, p, hp, hk⟩ : Running s.dropStay :=
      running_congr (((inv_iff s).1 h).resolve_right fun hr => by simp [hr.1] at hbusy) (dropStay_view s) (by simp)
        (by simp)
    have hb' : s.dropStay.busy = true := by simpa using hbusy
    generalize s.dropStay = d at hp hk hb'
    unfold engineStep
    split
    · exact trivial
    · rename_i e k hc
      rw [hc] at hk
      simp only [Phase.after] at hk
      cases hn : p.next d.cfg.mode e with
      | none => simp [hn] at hk
      | some q =>
        rw [hn] at hk
        exact engineDo_good (s := { d with cont := k }) hb' (hp.congr rfl) hn hk

end Sys2Proof.Machine
end

