-- ==== Sys2Proof/Laws/Run.lean ====
section
/-! SUPPORT. The run of one operation: its steps run out before its bound does, it keeps the invariant, and it ends
whenever the other agents let it. -/

namespace Sys2Proof.Machine

/-! ## Every step lowers the measure -/

theorem contCost_append (xs ys : List EStep) : contCost (xs ++ ys) = contCost xs + contCost ys := by
  induction xs with
  | nil => simp [contCost]
  | cons x xs ih => simp [contCost, ih, Nat.add_assoc]

theorem flushSteps_cost (m : Mode) : contCost (flushSteps m) ≤ 4 := by cases m <;> decide

theorem contCost_checked (bad : Bool) (code : Status) (rest : List EStep) :
    contCost (checked bad code rest) ≤ 1 + contCost rest := by
  cases bad <;> simp [checked, contCost, EStep.cost]

theorem contCost_pushes : ∀ ps : List Ink, contCost (ps.flatMap pushSteps) = 7 * ps.length
  | [] => rfl
  | p :: ps => by
    rw [List.flatMap_cons, contCost_append, contCost_pushes ps]
    simp only [pushSteps, contCost, EStep.cost, List.length_cons]
    omega

theorem contCost_stream (c : Config) (st : Plan) : contCost (streamSteps c st) = 7 * st.pixels.length + 31 := by
  rw [streamSteps, contCost_append, contCost_append, contCost_pushes]
  simp only [windowSteps, finishSteps, contCost, EStep.cost]
  omega

theorem bitmapOf_length {α : Type} (x y base wd ht s : Nat) (f : Nat → α) :
    (bitmapOf x y base wd ht s f).pixels.length = ht * (s * (wd * s)) := by
  simp [bitmapOf, List.length_flatMap]

/-- The rest of DRAW_BITMAP, whatever its header, is no more than its step stands for. -/
theorem contCost_bitmapSteps (c : Config) (x y sc : Word) (base : BitVec 32) (wd ht : Word) :
    contCost (bitmapSteps c x y sc base wd ht) + 1 ≤ 2 ^ 67 := by
  unfold bitmapSteps
  split
  · decide
  · refine Nat.le_trans (Nat.succ_le_succ ((contCost_checked ..).trans (Nat.add_le_add_left (contCost_checked ..) 1))) ?_
    have h : ht.toNat * (sc.toNat * (wd.toNat * sc.toNat)) ≤ 2 ^ 16 * (2 ^ 16 * (2 ^ 16 * 2 ^ 16)) :=
      Nat.mul_le_mul ht.isLt.le (Nat.mul_le_mul sc.isLt.le (Nat.mul_le_mul wd.isLt.le sc.isLt.le))
    simp only [drawSteps, List.flatMap_cons, List.flatMap_nil, List.append_nil, contCost_append, contCost_stream,
      bitmapOf_length, contCost, EStep.cost]
    omega

theorem envMove_measure {s t : State} (h : s.envMove = some t) : t.measure < s.measure := by
  unfold State.envMove at h
  split at h
  · rename_i ms hm
    split at h
    · rename_i hf
      cases h
      simp [State.measure, hm, hf]
    · cases h
  · rename_i ms hm
    split at h
    · split at h
      · rename_i hh
        cases h
        have hf : s.inFlight = true := by
          cases hi : s.inFlight with
          | true => rfl
          | false => simp [State.held, hi] at hh
        simp [State.measure, hm, hf, contCost]
      · cases h
    · cases h
      simp [State.measure, hm]
  · rename_i n ms hm
    cases h
    simp [State.measure, hm]
  · rename_i hm
    cases h
    simp [State.measure, hm]
  · rename_i hm
    cases h
    simp [State.measure, hm]
  · rename_i ms hm
    split at h
    · cases h
      simp [State.measure, hm]
    · cases h
  · split at h
    · split at h
      · rename_i hc
        cases h
        have hf : s.inFlight = true := by simp_all
        simp [State.measure, hf]
      · cases h
    · split at h
      · rename_i hc
        cases h
        have hh : s.held = true := by simp_all
        unfold State.held at hh
        split at hh
        · rename_i hcont
          simp [State.measure, hcont, contCost, EStep.cost]
        · simp at hh
      · cases h

/-- Where the engine is held, no other agent has a step only when nothing is listed, the transport is silent and there is
no timeout: the three parts of R212. -/
theorem held_envMove_none {s : State} (hh : s.held = true) (h : s.envMove = none) :
    s.moves = [] ∧ s.tail = .silent ∧ s.cfg.timeoutEnabled = false := by
  have hp : s.busy = true ∧ s.inFlight = true := by
    unfold State.held at hh
    simp only [Bool.and_eq_true] at hh
    exact hh.1
  have hb : s.coreBlocked = true := by simp [State.coreBlocked, hp.1, hh]
  unfold State.envMove at h
  split at h
  · simp [hp.2] at h
  · split at h <;> simp_all
  · cases h
  · cases h
  · cases h
  · simp [hb] at h
  · split at h
    · simp [hb, hp.2] at h
    · simp only [hh, Bool.and_true] at h
      refine ⟨by assumption, by assumption, ?_⟩
      cases ht : s.cfg.timeoutEnabled with
      | false => rfl
      | true => simp [ht] at h

theorem engineDo_measure {s t : State} {e : EStep} (h : engineDo e s = .moved t) :
    t.measure + 1 ≤ 2 * e.cost + s.measure := by
  have hend : ∀ (u : State) (st : Status), (u.endOp st).measure ≤ u.measure := fun u st => by
    simp [State.measure, contCost]
  have hflush := flushSteps_cost s.cfg.mode
  cases e with
  | faultCheck =>
    simp only [engineDo, State.raise_eq, Tick.moved.injEq] at h
    subst h
    split
    · have := hend s .busTimeout
      simp only [EStep.cost]; omega
    · simp only [EStep.cost]; omega
  | raiseIf bad code =>
    simp only [engineDo, State.raise_eq, Tick.moved.injEq] at h
    subst h
    split
    · have := hend s code
      simp only [EStep.cost]; omega
    · simp only [EStep.cost]; omega
  | requireStream =>
    simp only [engineDo, State.raise_eq, Tick.moved.injEq] at h
    subst h
    split
    · simp only [EStep.cost]; omega
    · have := hend s .illegalOperation
      simp only [EStep.cost]; omega
  | closeStream =>
    simp only [engineDo, Tick.moved.injEq] at h
    subst h
    split
    · simp [State.measure, contCost, finishSteps, EStep.cost]; omega
    · simp only [EStep.cost]; omega
  | flushIfFull =>
    simp only [engineDo, Tick.moved.injEq] at h
    subst h
    split
    · simp [State.measure, contCost_append, EStep.cost]; omega
    · simp only [EStep.cost]; omega
  | flushIfAny =>
    simp only [engineDo, Tick.moved.injEq] at h
    subst h
    split
    · simp [State.measure, contCost_append, EStep.cost]; omega
    · simp only [EStep.cost]; omega
  | waitIdle =>
    simp only [engineDo] at h
    split at h
    · cases h
    · cases h
      simp only [EStep.cost]; omega
  | store d =>
    simp only [engineDo, storePixel] at h
    split at h
    · cases h
      simp [State.measure, EStep.cost]
    · cases h
  | readHeader x y sc base =>
    simp only [engineDo, Tick.moved.injEq] at h
    subst h
    have := contCost_bitmapSteps s.cfg x y sc base (s.readWord base.toNat)
      (({ s with draws := s.drawsAfter (.word base.toNat) } : State).readWord (base.toNat + 1))
    simp only [State.measure, State.readHeader_cont, State.readHeader_moves, State.readHeader_inFlight, contCost_append,
      EStep.cost]
    omega
  | issue =>
    simp only [engineDo, issueStep] at h
    split at h
    · cases h
      simp [State.measure, EStep.cost]; omega
    · cases h
  | finishOp st =>
    simp only [engineDo, Tick.moved.injEq] at h
    subst h
    have := hend s st
    simp only [EStep.cost]; omega
  | emit ev =>
    simp only [engineDo, Tick.moved.injEq] at h
    subst h
    simp [State.measure, EStep.cost]
  | writeWin w =>
    simp only [engineDo, Tick.moved.injEq] at h
    subst h
    simp [State.measure, EStep.cost]
  | openStream =>
    simp only [engineDo, Tick.moved.injEq] at h
    subst h
    simp [State.measure, EStep.cost]
  | advance =>
    simp only [engineDo, Tick.moved.injEq] at h
    subst h
    simp [State.measure, EStep.cost]
  | clearCursor =>
    simp only [engineDo, Tick.moved.injEq] at h
    subst h
    simp [State.measure, EStep.cost]
  | flipActive =>
    simp only [engineDo, Tick.moved.injEq] at h
    subst h
    simp [State.measure, EStep.cost]
  | shutStream =>
    simp only [engineDo, Tick.moved.injEq] at h
    subst h
    simp [State.measure, EStep.cost]
  | writeResult v =>
    simp only [engineDo, Tick.moved.injEq] at h
    subst h
    simp [State.measure, EStep.cost]

theorem dropStay_measure (s : State) : s.dropStay.measure ≤ s.measure := by
  unfold State.dropStay
  split
  · rename_i ms hm
    simp [State.measure, hm]
  · exact Nat.le_refl _

/-- Every step of a busy machine lowers its measure. -/
theorem tick_measure {s t : State} (h : tick s = .moved t) : t.measure < s.measure := by
  unfold tick at h
  split at h
  · rename_i u hu
    cases h
    exact envMove_measure hu
  · have hd := dropStay_measure s
    generalize s.dropStay = d at h hd
    unfold engineStep at h
    split at h
    · cases h
    · rename_i e k hc
      have := engineDo_measure h
      have hm : 2 * e.cost + ({ d with cont := k } : State).measure = d.measure := by
        simp [State.measure, hc, contCost]
        omega
      omega

/-! ## Runs -/

/-- `t` is reached from `s` by steps of the busy machine. -/
inductive Reaches : State → State → Prop
  | refl (s : State) : Reaches s s
  | step {s t u : State} (hb : s.busy = true) (ht : tick s = .moved t) (h : Reaches t u) : Reaches s u

/-- The machine has stopped: its operation has ended, or no agent has a step. -/
def Stopped (s : State) : Prop := s.busy = false ∨ tick s = .blocked

/-- What a run with steps enough answers. -/
theorem runFor_cases : ∀ (n : Nat) (s : State), s.measure < n →
    (∃ t, runFor n s = .next t ∧ Reaches s t ∧ Stopped t) ∨
    (∃ t r, runFor n s = .fault r ∧ Reaches s t ∧ t.busy = true ∧ tick t = .fault r)
  | 0, _, h => absurd h (Nat.not_lt_zero _)
  | n + 1, s, h => by
    unfold runFor
    cases hb : s.busy with
    | false => exact .inl ⟨s, by simp, .refl s, .inl hb⟩
    | true =>
      simp only [if_true]
      cases ht : tick s with
      | blocked => exact .inl ⟨s, rfl, .refl s, .inr ht⟩
      | fault r => exact .inr ⟨s, r, rfl, .refl s, hb, ht⟩
      | moved u =>
        have hu := tick_measure ht
        rcases runFor_cases n u (by omega) with ⟨t, h1, h2, h3⟩ | ⟨t, r, h1, h2, h3, h4⟩
        · exact .inl ⟨t, h1, .step hb ht h2, h3⟩
        · exact .inr ⟨t, r, h1, .step hb ht h2, h3, h4⟩

/-- A run with steps enough answers the state in which the machine stops. -/
theorem runFor_reaches {s t : State} (h : Reaches s t) (hstop : Stopped t) : ∀ n, s.measure < n → runFor n s = .next t := by
  induction h with
  | refl a =>
    intro n hn
    cases n with
    | zero => exact absurd hn (Nat.not_lt_zero _)
    | succ n =>
      unfold runFor
      rcases hstop with hb | hb
      · simp [hb]
      · cases hbusy : a.busy <;> simp [hb]
  | step hb ht _ ih =>
    intro n hn
    cases n with
    | zero => exact absurd hn (Nat.not_lt_zero _)
    | succ n =>
      have := tick_measure ht
      unfold runFor
      simp only [hb, if_true, ht]
      exact ih hstop n (by omega)

theorem runOp_reaches {s t : State} (h : Reaches s t) (hstop : Stopped t) : runOp s = .next t :=
  runFor_reaches h hstop _ (Nat.lt_succ_self _)

theorem reaches_inv {s t : State} (h : Reaches s t) (hs : s.Inv) : t.Inv := by
  induction h with
  | refl => exact hs
  | step hb ht _ ih =>
    have := tick_good hs hb
    rw [ht] at this
    exact ih ((inv_iff _).2 this)

/-- What a run that answers a next state has done. -/
theorem runOp_next {s t : State} (h : runOp s = .next t) : Reaches s t ∧ Stopped t := by
  rcases runFor_cases (s.measure + 1) s (Nat.lt_succ_self _) with ⟨u, h1, h2, h3⟩ | ⟨u, r, h1, _⟩
  · rw [show runFor (s.measure + 1) s = runOp s from rfl, h] at h1
    cases h1
    exact ⟨h2, h3⟩
  · rw [show runFor (s.measure + 1) s = runOp s from rfl, h] at h1
    cases h1

/-- What every step of a busy machine keeps, a run keeps. -/
theorem reaches_keeps {P : State → Prop} (hstep : ∀ s t, s.busy = true → tick s = .moved t → P s → P t) {s t : State}
    (h : Reaches s t) (hs : P s) : P t := by
  induction h with
  | refl => exact hs
  | step hb ht _ ih => exact ih (hstep _ _ hb ht hs)

/-- A run from a state in which the invariant holds answers a next state, and keeps the invariant. -/
theorem runOp_inv {s : State} (hs : s.Inv) :
    ∃ t, runOp s = .next t ∧ Reaches s t ∧ Stopped t ∧ t.Inv := by
  rcases runFor_cases (s.measure + 1) s (Nat.lt_succ_self _) with ⟨t, h1, h2, h3⟩ | ⟨t, r, _, h2, h3, h4⟩
  · exact ⟨t, h1, h2, h3, reaches_inv h2 hs⟩
  · have := tick_good (reaches_inv h2 hs) h3
    rw [h4] at this
    exact this.elim

/-! ## Fields no step changes -/

/-- The fields that no step of any agent changes within a run: the configuration (R21), the host's queue (R81), and what
the transport does in the end. -/
def State.fixed (s : State) := (s.cfg, s.host, s.tail)

theorem envMove_fixed {s t : State} (h : s.envMove = some t) : t.fixed = s.fixed := by
  unfold State.envMove at h
  split at h
  · split at h <;> cases h
    rfl
  · split at h
    · split at h <;> cases h
      simp [State.fixed]
    · cases h
      rfl
  · cases h
    rfl
  · cases h
    rfl
  · cases h
    rfl
  · split at h <;> cases h
    rfl
  · split at h
    · split at h <;> cases h
      rfl
    · split at h <;> cases h
      simp [State.fixed]

theorem engineDo_fixed {s t : State} {e : EStep} (h : engineDo e s = .moved t) : t.fixed = s.fixed := by
  cases e <;> simp only [engineDo, storePixel, issueStep, State.raise_eq] at h <;>
    first
    | (split at h <;> cases h <;> simp [State.fixed])
    | (cases h; simp [State.fixed])

theorem tick_fixed {s t : State} (h : tick s = .moved t) : t.fixed = s.fixed := by
  unfold tick at h
  split at h
  · rename_i u hu
    cases h
    exact envMove_fixed hu
  · unfold engineStep at h
    split at h
    · cases h
    · have := engineDo_fixed h
      simpa [State.fixed] using this

theorem reaches_fixed {s t : State} (h : Reaches s t) : t.fixed = s.fixed := by
  induction h with
  | refl => rfl
  | step _ ht _ ih => exact ih.trans (tick_fixed ht)

/-! ## Progress when the other agents are quiet -/

/-- The moves still to come only get fewer. -/
theorem tick_moves {s t : State} (h : tick s = .moved t) : t.moves <:+ s.moves := by
  unfold tick at h
  split at h
  · rename_i u hu
    cases h
    unfold State.envMove at hu
    split at hu
    · rename_i ms hm
      split at hu <;> cases hu
      exact ⟨[_], hm.symm⟩
    · rename_i ms hm
      split at hu
      · split at hu <;> cases hu
        exact ⟨[_], by simpa using hm.symm⟩
      · cases hu
        exact ⟨[_], hm.symm⟩
    · rename_i hm
      cases hu
      exact ⟨[_], hm.symm⟩
    · rename_i hm
      cases hu
      exact ⟨[_], hm.symm⟩
    · rename_i hm
      cases hu
      exact ⟨[_], hm.symm⟩
    · rename_i hm
      split at hu <;> cases hu
      exact ⟨[_], hm.symm⟩
    · split at hu
      · split at hu <;> cases hu
        exact List.suffix_refl _
      · split at hu <;> cases hu
        simp
  · unfold engineStep at h
    split at h
    · cases h
    · rename_i e k hc
      have hmv : t.moves = s.dropStay.moves := by
        cases e <;> simp only [engineDo, storePixel, issueStep, State.raise_eq] at h <;>
          first
          | (split at h <;> cases h <;> simp)
          | (cases h; simp)
      rw [hmv]
      unfold State.dropStay
      split
      · rename_i ms hm
        exact ⟨[_], hm.symm⟩
      · exact List.suffix_refl _

theorem tick_steady {s t : State} (hs : s.Steady) (h : tick s = .moved t) : t.Steady :=
  fun m hm => hs m ((tick_moves h).subset hm)

/-- While the host leaves them alone, nothing changes the resources (R43), nor marks one of their cells. -/
theorem tick_resources {s t : State} (hs : s.Steady) (h : tick s = .moved t) :
    t.bmem = s.bmem ∧ t.glyphs = s.glyphs ∧ (s.changed = [] → t.changed = []) := by
  unfold tick at h
  split at h
  · rename_i u hu
    cases h
    unfold State.envMove at hu
    split at hu
    · split at hu <;> cases hu
      exact ⟨rfl, rfl, id⟩
    · split at hu
      · split at hu <;> cases hu
        simp
      · cases hu
        exact ⟨rfl, rfl, id⟩
    · cases hu
      exact ⟨rfl, rfl, id⟩
    · rename_i hm
      exact absurd (hs _ (by rw [hm]; exact List.mem_cons_self)) (by simp [Move.isLoad])
    · rename_i hm
      exact absurd (hs _ (by rw [hm]; exact List.mem_cons_self)) (by simp [Move.isLoad])
    · split at hu <;> cases hu
      exact ⟨rfl, rfl, id⟩
    · split at hu
      · split at hu <;> cases hu
        exact ⟨rfl, rfl, id⟩
      · split at hu <;> cases hu
        simp
  · unfold engineStep at h
    split at h
    · cases h
    · rename_i e k hc
      have : t.bmem = s.dropStay.bmem ∧ t.glyphs = s.dropStay.glyphs ∧ (s.dropStay.changed = [] → t.changed = []) := by
        cases e <;> simp only [engineDo, storePixel, issueStep, State.raise_eq] at h <;>
          first
          | (split at h <;> cases h <;> simp)
          | (cases h; simp)
      simpa using this

theorem reaches_resources {s t : State} (hs : s.Steady) (h : Reaches s t) :
    t.bmem = s.bmem ∧ t.glyphs = s.glyphs ∧ (s.changed = [] → t.changed = []) := by
  induction h with
  | refl => exact ⟨rfl, rfl, id⟩
  | step _ ht _ ih =>
    obtain ⟨h1, h2, h3⟩ := tick_resources hs ht
    obtain ⟨h4, h5, h6⟩ := ih (tick_steady hs ht)
    exact ⟨h4.trans h1, h5.trans h2, h6 ∘ h3⟩

theorem reaches_steady {s t : State} (hs : s.Steady) (h : Reaches s t) : t.Steady := by
  induction h with
  | refl => exact hs
  | step _ ht _ ih => exact ih (tick_steady hs ht)

theorem tick_quiet {s t : State} (hq : s.Quiet) (h : tick s = .moved t) : t.Quiet := by
  have hf := tick_fixed h
  have hcfg : t.cfg = s.cfg := congrArg (·.1) hf
  have htail : t.tail = s.tail := congrArg (·.2.2) hf
  refine ⟨htail.trans hq.1, fun hto hmem => ?_, tick_steady hq.2.2 h⟩
  rw [hcfg] at hto
  exact hq.2.1 hto ((tick_moves h).subset hmem)

theorem reaches_quiet {s t : State} (hq : s.Quiet) (h : Reaches s t) : t.Quiet := by
  induction h with
  | refl => exact hq
  | step _ ht _ ih => exact ih (tick_quiet hq ht)

/-- A busy machine is blocked only where the engine is held (under the invariant). -/
theorem engineStep_blocked {s : State} (h : s.Inv) (hbusy : s.busy = true) (hb : engineStep s = .blocked) :
    s.held = true := by
  obtain ⟨_, p, hp, hk⟩ : Running s := ((inv_iff s).1 h).resolve_right fun hr => by simp [hr.1] at hbusy
  unfold engineStep at hb
  split at hb
  · rename_i hc
    rw [hc] at hk
    cases hk
    exact hp.elim
  · rename_i e k hc
    cases e <;> simp only [engineDo, storePixel, issueStep] at hb
    all_goals first
      | cases hb
      | (split at hb <;> cases hb; done)
      | skip
    split at hb
    · rename_i hf
      have hf' : s.inFlight = true := hf
      simp [State.held, hbusy, hf', hc]
    · cases hb

/-- While the other agents are quiet, a busy machine always has a step. -/
theorem tick_not_blocked {s : State} (h : s.Inv) (hbusy : s.busy = true) (hq : s.Quiet) : tick s ≠ .blocked := by
  intro hb
  unfold tick at hb
  split at hb
  · cases hb
  · rename_i hnone
    have hheld : s.held = true := by
      have h1 : s.dropStay.Inv := inv_congr h (dropStay_view s) (by simp) (by simp) (by simp)
      have h2 := engineStep_blocked h1 (by simpa using hbusy) hb
      simpa [State.held] using h2
    have hfl : s.inFlight = true := by
      cases hi : s.inFlight with
      | true => rfl
      | false => simp [State.held, hi] at hheld
    have hblk : s.coreBlocked = true := by simp [State.coreBlocked, hbusy, hheld]
    unfold State.envMove at hnone
    split at hnone
    · simp [hfl] at hnone
    · rename_i ms hm
      split at hnone
      · rename_i hto
        exact absurd (by rw [hm]; exact List.mem_cons_self) (hq.2.1 hto)
      · cases hnone
    · cases hnone
    · cases hnone
    · cases hnone
    · simp [hblk] at hnone
    · simp [hq.1, hblk, hfl] at hnone

/-- While the other agents are quiet, every operation ends. -/
theorem runOp_ends {s : State} (hs : s.Inv) (hq : s.Quiet) :
    ∃ t, runOp s = .next t ∧ Reaches s t ∧ t.busy = false ∧ t.Inv := by
  obtain ⟨t, h1, h2, h3, h4⟩ := runOp_inv hs
  refine ⟨t, h1, h2, ?_, h4⟩
  cases hb : t.busy with
  | false => rfl
  | true => exact absurd (h3.resolve_left (by simp [hb])) (tick_not_blocked h4 hb (reaches_quiet hq h2))

end Sys2Proof.Machine
end

