-- ==== Sys2Proof/Laws/Calm.lean ====
section
/-! SUPPORT. The engine alone: what an operation does does not depend on when the other agents move. Each step of the
machine is, up to `calm`, either nothing or the engine's next step with every block completed at once. -/

namespace Sys2Proof.Machine

namespace State

@[simp] theorem calm_cfg (s : State) : s.calm.cfg = s.cfg := rfl
@[simp] theorem calm_bmem (s : State) : s.calm.bmem = s.bmem := rfl
@[simp] theorem calm_glyphs (s : State) : s.calm.glyphs = s.glyphs := rfl
@[simp] theorem calm_opCode (s : State) : s.calm.opCode = s.opCode := rfl
@[simp] theorem calm_opWords (s : State) : s.calm.opWords = s.opWords := rfl
@[simp] theorem calm_cont (s : State) : s.calm.cont = s.cont := rfl
@[simp] theorem calm_buf0 (s : State) : s.calm.buf0 = s.buf0 := rfl
@[simp] theorem calm_buf1 (s : State) : s.calm.buf1 = s.buf1 := rfl
@[simp] theorem calm_cursor0 (s : State) : s.calm.cursor0 = s.cursor0 := rfl
@[simp] theorem calm_cursor1 (s : State) : s.calm.cursor1 = s.cursor1 := rfl
@[simp] theorem calm_active (s : State) : s.calm.active = s.active := rfl
@[simp] theorem calm_inFlight (s : State) : s.calm.inFlight = false := rfl
@[simp] theorem calm_xfer (s : State) : s.calm.xfer = none := rfl
@[simp] theorem calm_streamOpen (s : State) : s.calm.streamOpen = s.streamOpen := rfl
@[simp] theorem calm_win (s : State) : s.calm.win = s.win := rfl
@[simp] theorem calm_faulted (s : State) : s.calm.faulted = s.faulted := rfl
@[simp] theorem calm_busy (s : State) : s.calm.busy = s.busy := rfl
@[simp] theorem calm_status (s : State) : s.calm.status = s.status := rfl
@[simp] theorem calm_result (s : State) : s.calm.result = s.result := rfl
@[simp] theorem calm_trace (s : State) : s.calm.trace = s.settled := rfl
@[simp] theorem calm_host (s : State) : s.calm.host = s.host := rfl
@[simp] theorem calm_changed (s : State) : s.calm.changed = s.changed := rfl
@[simp] theorem calm_draws (s : State) : s.calm.draws = s.draws := rfl
@[simp] theorem calm_buf (s : State) (i : BufIx) : s.calm.buf i = s.buf i := by cases i <;> rfl
@[simp] theorem calm_cursor (s : State) (i : BufIx) : s.calm.cursor i = s.cursor i := by cases i <;> rfl
@[simp] theorem calm_ink (s : State) (p : Ink) : s.calm.ink p = s.ink p := by cases p <;> rfl
@[simp] theorem calm_inkDraws (s : State) (p : Ink) : s.calm.inkDraws p = s.inkDraws p := by cases p <;> rfl
@[simp] theorem calm_flushIx (s : State) : s.calm.flushIx = s.flushIx := rfl

theorem settled_of_idle {s : State} (h : s.inFlight = false) : s.settled = s.trace := by simp [settled, h]

@[simp] theorem settled_calm (s : State) : s.calm.settled = s.settled := settled_of_idle rfl

@[simp] theorem calm_calm (s : State) : s.calm.calm = s.calm := by
  simp [calm, settled]

end State

/-- One step of the engine with every block completed at once. -/
def calmStep (s : State) : Option State :=
  match s.cont with
  | [] => none
  | e :: k =>
    match engineDo e { s with cont := k } with
    | .moved t => some t.calm
    | .blocked => none
    | .fault _ => none

/-- Some steps of that engine. -/
inductive CalmReaches : State → State → Prop
  | refl (s : State) : CalmReaches s s
  | step {s t u : State} (ht : calmStep s = some t) (h : CalmReaches t u) : CalmReaches s u

theorem CalmReaches.trans {s t u : State} (h : CalmReaches s t) (h' : CalmReaches t u) : CalmReaches s u := by
  induction h with
  | refl => exact h'
  | step ht _ ih => exact .step ht (ih h')

/-- The engine alone is deterministic: two of its runs that have used up the continuation end in the same state. -/
theorem CalmReaches.unique {s t u : State} (ht : CalmReaches s t) (hu : CalmReaches s u) (h1 : t.cont = [])
    (h2 : u.cont = []) : t = u := by
  induction ht with
  | refl a =>
    cases hu with
    | refl => rfl
    | step hv _ => simp [calmStep, h1] at hv
  | step ha _ ih =>
    cases hu with
    | refl => simp [calmStep, h2] at ha
    | step hb hu' =>
      have hab := ha.symm.trans hb
      simp only [Option.some.injEq] at hab
      subst hab
      exact ih hu' h1

/-! ## The machine against the engine alone -/

/-- A move of another agent changes nothing but what `calm` leaves out, unless it is a timeout or a write of a resource. -/
theorem envMove_calm {s t : State} (hq : s.Quiet ∨ s.held = false) (hst : s.Steady) (h : s.envMove = some t) :
    t.calm = s.calm := by
  have hdone : ∀ u : State, u.inFlight = true → u.transferDone.calm = u.calm := fun u hu => by
    simp [State.calm, State.settled, hu]
  unfold State.envMove at h
  split at h
  · split at h
    · rename_i ms _ hf
      cases h
      exact hdone { s with moves := ms } hf
    · cases h
  · rename_i ms hm
    split at h
    · rename_i hto
      split at h
      · rename_i hh
        rcases hq with hq | hq
        · exact absurd (by rw [hm]; exact List.mem_cons_self) (hq.2.1 hto)
        · simp [hq] at hh
      · cases h
    · cases h
      rfl
  · cases h
    rfl
  · rename_i hm
    exact absurd (hst _ (by rw [hm]; exact List.mem_cons_self)) (by simp [Move.isLoad])
  · rename_i hm
    exact absurd (hst _ (by rw [hm]; exact List.mem_cons_self)) (by simp [Move.isLoad])
  · split at h <;> cases h
    rfl
  · split at h
    · split at h
      · rename_i hc
        cases h
        exact hdone s (by simp_all)
      · cases h
    · rename_i htail
      split at h
      · rename_i hc
        rcases hq with hq | hq
        · rw [hq.1] at htail
          cases htail
        · simp [hq] at hc
      · cases h

/-- The engine steps that need the bus to itself. -/
def EStep.usesBus (e : EStep) : Bool :=
  match e with
  | .emit _ | .issue => true
  | _ => false

theorem usesBus_free {p q : Phase} {s : State} {e : EStep} (hp : p.Holds s) (hn : p.next s.cfg.mode e = some q)
    (he : e.usesBus = true) : s.inFlight = false := by
  cases e <;> simp [EStep.usesBus] at he
  · rename_i ev
    cases ev <;> cases p <;> simp [Phase.next] at hn
    · exact hp.2.2.2.1
    · exact hp.2.2.2.1
    · exact hp.2.2.2.1
    · exact hp.2.2.2.2.2
  · cases p <;> try (simp [Phase.next] at hn; done)
    exact hp.2.2

/-- An engine step commutes with completing the outstanding block. -/
theorem engineDo_calm {s t : State} {e : EStep} (hbus : e.usesBus = true → s.inFlight = false)
    (h : engineDo e s = .moved t) : ∃ u, engineDo e s.calm = .moved u ∧ u.calm = t.calm := by
  have hend : ∀ st, (s.calm.endOp st).calm = (s.endOp st).calm := fun st => by
    simp [State.calm, State.settled]
  have hcal : s.calm.calm = s.calm := State.calm_calm s
  cases e with
  | faultCheck =>
    simp only [engineDo, State.raise_eq, Tick.moved.injEq] at h ⊢
    refine ⟨_, rfl, ?_⟩
    subst h
    cases hf : s.faulted
    · simp [hf]
    · simp [hf, hend]
  | raiseIf bad code =>
    simp only [engineDo, State.raise_eq, Tick.moved.injEq] at h ⊢
    refine ⟨_, rfl, ?_⟩
    subst h
    cases bad
    · simp
    · simp [hend]
  | requireStream =>
    simp only [engineDo, State.raise_eq, Tick.moved.injEq] at h ⊢
    refine ⟨_, rfl, ?_⟩
    subst h
    cases hf : s.streamOpen
    · simp [hf, hend]
    · simp [hf]
  | closeStream =>
    simp only [engineDo, Tick.moved.injEq] at h ⊢
    refine ⟨_, rfl, ?_⟩
    subst h
    cases hf : s.streamOpen
    · simp [hf]
    · simp [hf, State.calm, State.settled]
  | flushIfFull =>
    simp only [engineDo, Tick.moved.injEq] at h ⊢
    refine ⟨_, rfl, ?_⟩
    subst h
    by_cases hc : s.cfg.capacity < s.cursor s.active + 3
    · simp only [State.calm_cfg, State.calm_active, State.calm_cursor, if_pos hc]
      simp [State.calm, State.settled]
    · simp only [State.calm_cfg, State.calm_active, State.calm_cursor, if_neg hc, hcal]
  | flushIfAny =>
    simp only [engineDo, Tick.moved.injEq] at h ⊢
    refine ⟨_, rfl, ?_⟩
    subst h
    by_cases hc : 0 < s.cursor s.active
    · simp only [State.calm_active, State.calm_cursor, State.calm_cfg, if_pos hc]
      simp [State.calm, State.settled]
    · simp only [State.calm_active, State.calm_cursor, if_neg hc, hcal]
  | waitIdle =>
    simp only [engineDo] at h
    split at h
    · cases h
    · cases h
      exact ⟨s.calm, rfl, hcal⟩
  | store p =>
    simp only [engineDo, storePixel, State.calm_ink, State.calm_inkDraws] at h ⊢
    generalize s.ink p = c at h ⊢
    generalize s.inkDraws p = n at h ⊢
    split at h
    · rename_i hle
      cases h
      refine ⟨_, if_pos hle, ?_⟩
      cases ha : s.active <;> simp [State.calm, State.settled, State.setBuf, State.buf, State.cursor, ha]
    · cases h
  | readHeader x y sc base =>
    simp only [engineDo, Tick.moved.injEq] at h ⊢
    refine ⟨_, rfl, ?_⟩
    subst h
    simp only [State.readHeader, State.calm, State.settled, cond_false, List.append_nil]
    rfl
  | issue =>
    have hfl := hbus rfl
    simp only [engineDo, issueStep] at h ⊢
    split at h
    · rename_i bs hbs
      cases h
      refine ⟨s.calm.issueBlock bs, by simp [hbs], ?_⟩
      simp [State.calm, State.settled, hfl]
    · cases h
  | emit ev =>
    have hfl := hbus rfl
    simp only [engineDo, Tick.moved.injEq] at h ⊢
    refine ⟨_, rfl, ?_⟩
    subst h
    simp [State.calm, State.settled, hfl]
  | writeWin w =>
    simp only [engineDo, Tick.moved.injEq] at h ⊢
    refine ⟨_, rfl, ?_⟩
    subst h
    simp [State.calm, State.settled]
  | openStream =>
    simp only [engineDo, Tick.moved.injEq] at h ⊢
    refine ⟨_, rfl, ?_⟩
    subst h
    simp [State.calm, State.settled]
  | advance =>
    simp only [engineDo, Tick.moved.injEq] at h ⊢
    refine ⟨_, rfl, ?_⟩
    subst h
    cases ha : s.active <;> simp [State.calm, State.settled, State.setCursor, State.cursor, ha]
  | clearCursor =>
    simp only [engineDo, Tick.moved.injEq] at h ⊢
    refine ⟨_, rfl, ?_⟩
    subst h
    simp only [State.calm_flushIx]
    cases s.flushIx <;> simp [State.calm, State.settled, State.setCursor]
  | flipActive =>
    simp only [engineDo, Tick.moved.injEq] at h ⊢
    refine ⟨_, rfl, ?_⟩
    subst h
    simp [State.calm, State.settled]
  | shutStream =>
    simp only [engineDo, Tick.moved.injEq] at h ⊢
    refine ⟨_, rfl, ?_⟩
    subst h
    simp [State.calm, State.settled]
  | writeResult v =>
    simp only [engineDo, Tick.moved.injEq] at h ⊢
    refine ⟨_, rfl, ?_⟩
    subst h
    simp [State.calm, State.settled]
  | finishOp st =>
    simp only [engineDo, Tick.moved.injEq] at h ⊢
    refine ⟨_, rfl, ?_⟩
    subst h
    exact hend st

theorem dropStay_calm (s : State) : s.dropStay.calm = s.calm := by
  unfold State.dropStay
  split <;> rfl

/-- The rest of an operation reaches no wait, nor a call of something that waits, where `faulted`, `stream_open`, the
configuration and the bitmap memory are as given, and the host changes no resource. -/
inductive NoWait (faulted streamOpen : Bool) (c : Config) (b : Cells 16) : List EStep → Prop
  | nil : NoWait faulted streamOpen c b []
  | fault (k : List EStep) (hf : faulted = true) : NoWait faulted streamOpen c b (.faultCheck :: k)
  | pass {k : List EStep} (h : NoWait faulted streamOpen c b k) : NoWait faulted streamOpen c b (.faultCheck :: k)
  | bad (code : Status) (k : List EStep) : NoWait faulted streamOpen c b (.raiseIf true code :: k)
  | good (bad : Bool) (code : Status) {k : List EStep} (h : NoWait faulted streamOpen c b k) :
      NoWait faulted streamOpen c b (.raiseIf bad code :: k)
  | stream (k : List EStep) (ho : streamOpen = false) : NoWait faulted streamOpen c b (.requireStream :: k)
  | close {k : List EStep} (ho : streamOpen = false) (h : NoWait faulted streamOpen c b k) :
      NoWait faulted streamOpen c b (.closeStream :: k)
  | header {x y sc : Word} {base : BitVec 32} {k : List EStep}
      (h : NoWait faulted streamOpen c b
        (bitmapSteps c x y sc base (memRead b base.toNat) (memRead b (base.toNat + 1)) ++ k)) :
      NoWait faulted streamOpen c b (.readHeader x y sc base :: k)
  | result (v : BitVec 24) {k : List EStep} (h : NoWait faulted streamOpen c b k) :
      NoWait faulted streamOpen c b (.writeResult v :: k)
  | finish (st : Status) (k : List EStep) : NoWait faulted streamOpen c b (.finishOp st :: k)

/-- The operation under way will end: the other agents are quiet, or the host changes no resource and the operation has no
wait. -/
def WillEnd (s : State) : Prop :=
  s.Quiet ∨ (s.Steady ∧ s.changed = [] ∧ NoWait s.faulted s.streamOpen s.cfg s.bmem s.cont)

theorem NoWait.held {s : State} {f o : Bool} {c : Config} {b : Cells 16} (h : NoWait f o c b s.cont) : s.held = false := by
  unfold State.held
  revert h
  generalize s.cont = k
  intro h
  cases h <;> simp

theorem WillEnd.calm_ok {s : State} (h : WillEnd s) : s.Quiet ∨ s.held = false := h.imp id fun h => h.2.2.held

theorem WillEnd.steady {s : State} (h : WillEnd s) : s.Steady := h.elim (·.2.2) (·.1)

/-- Reading a header while no resource has changed. -/
theorem readHeader_stable {s : State} (h : s.changed = []) (x y sc : Word) (base : BitVec 32) :
    s.readHeader x y sc base = { s with
      cont := bitmapSteps s.cfg x y sc base (memRead s.bmem base.toNat) (memRead s.bmem (base.toNat + 1)) ++ s.cont } := by
  simp [State.readHeader, State.readWord, State.drawsAfter, h]

/-- A move of another agent where the engine is not held leaves the engine's side alone. -/
theorem envMove_unheld {s t : State} (hh : s.held = false) (h : s.envMove = some t) :
    t.cont = s.cont ∧ t.faulted = s.faulted ∧ t.streamOpen = s.streamOpen := by
  unfold State.envMove at h
  split at h
  · split at h <;> cases h
    exact ⟨rfl, rfl, rfl⟩
  · split at h
    · simp [hh] at h
    · cases h
      exact ⟨rfl, rfl, rfl⟩
  · cases h
    exact ⟨rfl, rfl, rfl⟩
  · cases h
    exact ⟨rfl, rfl, rfl⟩
  · cases h
    exact ⟨rfl, rfl, rfl⟩
  · split at h <;> cases h
    exact ⟨rfl, rfl, rfl⟩
  · split at h
    · split at h <;> cases h
      exact ⟨rfl, rfl, rfl⟩
    · simp [hh] at h

theorem engineStep_noWait {s t : State} (hch : s.changed = []) (h : NoWait s.faulted s.streamOpen s.cfg s.bmem s.cont)
    (ht : engineStep s = .moved t) : NoWait t.faulted t.streamOpen t.cfg t.bmem t.cont := by
  unfold engineStep at ht
  split at ht
  · cases ht
  · rename_i e k hc
    rw [hc] at h
    cases h with
    | fault _ hf =>
      simp only [engineDo, hf, if_true, Tick.moved.injEq] at ht
      subst ht
      exact .nil
    | pass h =>
      simp only [engineDo, Tick.moved.injEq] at ht
      subst ht
      split
      · exact .nil
      · exact h
    | bad code _ =>
      simp only [engineDo, if_true, Tick.moved.injEq] at ht
      subst ht
      exact .nil
    | good bad code h =>
      simp only [engineDo, Tick.moved.injEq] at ht
      subst ht
      split
      · exact .nil
      · exact h
    | stream _ ho =>
      simp only [engineDo, ho, Tick.moved.injEq] at ht
      subst ht
      exact .nil
    | close ho h =>
      simp only [engineDo, ho, Tick.moved.injEq] at ht
      subst ht
      simpa [ho] using h
    | header h =>
      simp only [engineDo, Tick.moved.injEq] at ht
      subst ht
      rw [readHeader_stable (s := { s with cont := k }) hch]
      exact h
    | result v h =>
      simp only [engineDo, Tick.moved.injEq] at ht
      subst ht
      exact h
    | finish st _ =>
      simp only [engineDo, Tick.moved.injEq] at ht
      subst ht
      exact .nil

theorem tick_willEnd {s t : State} (h : WillEnd s) (ht : tick s = .moved t) : WillEnd t := by
  rcases h with h | ⟨hst, hch, h⟩
  · exact .inl (tick_quiet h ht)
  · obtain ⟨hb, _, hc⟩ := tick_resources hst ht
    have hcfg : t.cfg = s.cfg := congrArg (·.1) (tick_fixed ht)
    refine .inr ⟨tick_steady hst ht, hc hch, ?_⟩
    unfold tick at ht
    split at ht
    · rename_i u hu
      cases ht
      obtain ⟨h1, h2, h3⟩ := envMove_unheld h.held hu
      rw [h1, h2, h3, hb, hcfg]
      exact h
    · exact engineStep_noWait (by simpa using hch) (by simpa using h) ht

theorem tick_not_blocked' {s : State} (hs : s.Inv) (hbusy : s.busy = true) (h : WillEnd s) : tick s ≠ .blocked := by
  rcases h with h | ⟨_, _, h⟩
  · exact tick_not_blocked hs hbusy h
  · intro hb
    unfold tick at hb
    split at hb
    · cases hb
    · have h1 : s.dropStay.Inv := inv_congr hs (dropStay_view s) (by simp) (by simp) (by simp)
      have h2 := engineStep_blocked h1 (by simpa using hbusy) hb
      have h3 : NoWait s.faulted s.streamOpen s.cfg s.bmem s.dropStay.cont := by simpa using h
      simp [h3.held] at h2

/-- An operation that will end, ends. -/
theorem runOp_ends' {s : State} (hs : s.Inv) (h : WillEnd s) :
    ∃ t, runOp s = .next t ∧ Reaches s t ∧ t.busy = false ∧ t.Inv := by
  obtain ⟨t, h1, h2, h3, h4⟩ := runOp_inv hs
  refine ⟨t, h1, h2, ?_, h4⟩
  have hw : WillEnd t := by
    clear h1 h3 h4 hs
    induction h2 with
    | refl => exact h
    | step hb ht _ ih => exact ih (tick_willEnd h ht)
  cases hb : t.busy with
  | false => rfl
  | true => exact absurd (h3.resolve_left (by simp [hb])) (tick_not_blocked' h4 hb hw)

/-- A step of the machine is nothing to the engine alone, or its next step. -/
theorem tick_calm {s t : State} (hs : s.Inv) (hbusy : s.busy = true) (hq : WillEnd s) (h : tick s = .moved t) :
    t.calm = s.calm ∨ calmStep s.calm = some t.calm := by
  unfold tick at h
  split at h
  · rename_i u hu
    cases h
    exact .inl (envMove_calm hq.calm_ok hq.steady hu)
  · refine .inr ?_
    rw [← dropStay_calm s]
    obtain ⟨_, p, hp, hk⟩ : Running s.dropStay :=
      running_congr (((inv_iff s).1 hs).resolve_right fun hr => by simp [hr.1] at hbusy) (dropStay_view s) (by simp)
        (by simp)
    generalize s.dropStay = d at h hp hk
    unfold engineStep at h
    split at h
    · cases h
    · rename_i e k hc
      have hbus : e.usesBus = true → ({ d with cont := k } : State).inFlight = false := fun he => by
        rw [hc] at hk
        simp only [Phase.after] at hk
        cases hn : p.next d.cfg.mode e with
        | none => simp [hn] at hk
        | some q => exact usesBus_free (s := d) hp hn he
      obtain ⟨u, hu1, hu2⟩ := engineDo_calm hbus h
      unfold calmStep
      rw [State.calm_cont, hc]
      have heq : ({ d.calm with cont := k } : State) = ({ d with cont := k } : State).calm := rfl
      simp only [heq, hu1, hu2]

/-- A run of the machine is, to the engine alone, a run of its own. -/
theorem reaches_calm {s t : State} (h : Reaches s t) (hs : s.Inv) (hq : WillEnd s) : CalmReaches s.calm t.calm := by
  induction h with
  | refl => exact .refl _
  | step hb ht _ ih =>
    have hg := tick_good hs hb
    rw [ht] at hg
    have hrest := ih ((inv_iff _).2 hg) (tick_willEnd hq ht)
    rcases tick_calm hs hb hq ht with h1 | h1
    · rwa [h1] at hrest
    · exact .step h1 hrest

end Sys2Proof.Machine
end

