-- ==== Sys2Proof/Laws/Events.lean ====
section
/-! SUPPORT. The bus events of pushes and of `finish`: their blocks, the blocks' sizes and the bytes they carry. -/

namespace Sys2Proof.Machine

theorem capacity_div {c n : Nat} : c < 3 * n + 3 ↔ c / 3 ≤ n := by omega

theorem payloads_append (xs ys : List Event) : payloads (xs ++ ys) = payloads xs ++ payloads ys := by
  simp [payloads]

@[simp] theorem payloads_nil : payloads [] = [] := rfl

@[simp] theorem payloads_block (m : Mode) (bs : List Byte) : payloads [.block m bs, .done] = [bs] := rfl

theorem blockCount_eq (es : List Event) : blockCount es = (payloads es).length := by
  simp [blockCount, payloads, List.countP_eq_length_filter]

/-- One push on top of `j` staged pixels: it flushes exactly when the buffer then holds `floor(C/3)` of them. -/
theorem pushEvents_cases (c : Config) {staged : List Byte} {j : Nat} (hl : staged.length = 3 * j)
    (hj : j < c.capacity / 3) (d : DeviceColor) :
    (j + 1 = c.capacity / 3 ∧ pushEvents c staged d = ([.block c.mode (staged ++ d.bytes), .done], [])) ∨
    (j + 1 < c.capacity / 3 ∧ pushEvents c staged d = ([], staged ++ d.bytes)) := by
  have hb : (staged ++ d.bytes).length = 3 * (j + 1) := by simp [DeviceColor.bytes, hl]; omega
  by_cases h : j + 1 = c.capacity / 3
  · exact .inl ⟨h, if_pos (by rw [hb]; omega)⟩
  · exact .inr ⟨by omega, if_neg (by rw [hb]; omega)⟩

/-- The blocks of some pushes on top of `j` staged pixels, and what is staged after them. -/
theorem pushAll_blocks (c : Config) : ∀ (ds : List DeviceColor) (staged : List Byte) (j : Nat), staged.length = 3 * j →
    j < c.capacity / 3 →
    (payloads (pushAllEvents c staged ds).1).length = (j + ds.length) / (c.capacity / 3) ∧
    (pushAllEvents c staged ds).2.length = 3 * ((j + ds.length) % (c.capacity / 3)) ∧
    ∀ p ∈ payloads (pushAllEvents c staged ds).1, p.length = 3 * (c.capacity / 3)
  | [], staged, j, hl, hj => by
    simp [pushAllEvents, payloads, hl, Nat.div_eq_of_lt hj, Nat.mod_eq_of_lt hj]
  | d :: ds, staged, j, hl, hj => by
    have hb : (staged ++ d.bytes).length = 3 * (j + 1) := by simp [DeviceColor.bytes, hl]; omega
    rcases pushEvents_cases c hl hj d with ⟨h1, h2⟩ | ⟨h1, h2⟩
    · obtain ⟨i1, i2, i3⟩ := pushAll_blocks c ds [] 0 rfl (by omega)
      simp only [pushAllEvents, h2, payloads_append, List.length_append, List.length_cons, i1, i2]
      rw [show j + (ds.length + 1) = (0 + ds.length) + c.capacity / 3 by omega, Nat.add_mod_right,
        Nat.add_div_right _ (by omega)]
      refine ⟨by simp; omega, rfl, fun p hp => ?_⟩
      rcases List.mem_append.1 hp with hp | hp
      · have : p = staged ++ d.bytes := by simpa using hp
        rw [this, hb, h1]
      · exact i3 p hp
    · obtain ⟨i1, i2, i3⟩ := pushAll_blocks c ds (staged ++ d.bytes) (j + 1) hb h1
      simp only [pushAllEvents, h2, List.nil_append, List.length_cons]
      rw [show j + (ds.length + 1) = j + 1 + ds.length by omega]
      exact ⟨i1, i2, i3⟩

/-- The blocks of some pushes, and what is staged after them, carry what was staged before and the pixels' bytes. -/
theorem pushAll_bytes (c : Config) : ∀ (ds : List DeviceColor) (staged : List Byte),
    (payloads (pushAllEvents c staged ds).1).flatten ++ (pushAllEvents c staged ds).2 =
      staged ++ ds.flatMap DeviceColor.bytes
  | [], staged => by simp [pushAllEvents, payloads]
  | d :: ds, staged => by
    have ih := pushAll_bytes c ds (pushEvents c staged d).2
    simp only [pushAllEvents, payloads_append, List.flatten_append, List.append_assoc, ih, List.flatMap_cons]
    simp only [pushEvents]
    split <;> simp

/-- Pushes put nothing but blocks and completions on the bus. -/
theorem pushAll_only (c : Config) : ∀ (ds : List DeviceColor) (staged : List Byte),
    ∀ e ∈ (pushAllEvents c staged ds).1, e = .done ∨ ∃ p, e = .block c.mode p
  | [], staged, e, he => by simp [pushAllEvents] at he
  | d :: ds, staged, e, he => by
    simp only [pushAllEvents, List.mem_append] at he
    rcases he with he | he
    · simp only [pushEvents] at he
      split at he
      · simp only [List.mem_cons, List.not_mem_nil, or_false] at he
        rcases he with rfl | rfl
        · exact .inr ⟨_, rfl⟩
        · exact .inl rfl
      · simp at he
    · exact pushAll_only c ds _ e he

theorem payloads_windowEvents (c : Config) (w : Window) : payloads (windowEvents c w) = [] := rfl

theorem payloads_finishEvents (c : Config) (staged : List Byte) :
    payloads (finishEvents c staged) = if staged = [] then [] else [staged] := by
  unfold finishEvents
  split <;> rfl

theorem flatMap_payload (es : List Event) : es.flatMap Event.payload = (payloads es).flatten := by
  induction es with
  | nil => rfl
  | cons e es ih =>
    rw [List.flatMap_cons, ih]
    cases e <;> rfl

theorem length_flatMap_bytes (ds : List DeviceColor) : (ds.flatMap DeviceColor.bytes).length = 3 * ds.length := by
  induction ds with
  | nil => rfl
  | cons d ds ih => simp [DeviceColor.bytes, ih]; omega

/-! ## How many streams and pixels -/

theorem supported_iff (c : Config) (code : Byte) :
    supported c code = true ↔ 32 ≤ code.toNat ∧ code.toNat ≤ c.glyphLast := by
  unfold supported
  rw [Bool.and_eq_true, decide_eq_true_eq, decide_eq_true_eq]
  rfl

theorem flatMap_range_length {α : Type} {f : Nat → List α} {m : Nat} : ∀ n : Nat, (∀ k, (f k).length = m) →
    ((List.range n).flatMap f).length = n * m
  | 0, _ => by simp
  | n + 1, h => by
    rw [List.range_succ, List.flatMap_append, List.length_append, flatMap_range_length n h, Nat.succ_mul]
    simp [h]

theorem fillOf_length {α : Type} (x1 y1 x2 y2 : Nat) (a : α) : (fillOf x1 y1 x2 y2 a).pixels.length =
    (max y1 y2 - min y1 y2 + 1) * (max x1 x2 - min x1 x2 + 1) :=
  flatMap_range_length _ fun _ => by simp

theorem glyphCells_length {α : Type} (f : Nat → Nat → α) : (glyphCells f).length = 104 :=
  flatMap_range_length (m := 8) 13 fun _ => by simp [Config.glyphW]

end Sys2Proof.Machine
end

