-- ==== Sys2Proof/Laws/Stream.lean ====
section
/-! SUPPORT. What the steps of `set_window`, `push_pixel`, `flush`, `finish` and of whole streams do to the engine alone
(`calmStep`), in closed form. -/

namespace Sys2Proof.Machine

/-! ## One step -/

/-- The outstanding block is completed, and nothing is said of the other agents' moves: `calm` changes nothing. No resource
has changed. -/
structure Calmed (s : State) : Prop where
  inFlight : s.inFlight = false
  xfer : s.xfer = none
  moves : s.moves = []
  tail : s.tail = .lazy
  hostReads : s.hostReads = []
  stable : s.changed = []

theorem Calmed.eq {s : State} (h : Calmed s) : s.calm = s := by
  obtain ⟨h1, h2, h3, h4, h5, _⟩ := h
  cases s
  simp only at h1 h2 h3 h4 h5
  subst h1 h2 h3 h4 h5
  simp [State.calm, State.settled]

theorem calm_calmed {s : State} (h : s.changed = []) : Calmed s.calm := ⟨rfl, rfl, rfl, rfl, rfl, h⟩

theorem calmStep_of {s t : State} {e : EStep} {k : List EStep} (hc : s.cont = e :: k)
    (h : engineDo e { s with cont := k } = .moved t) : calmStep s = some t.calm := by
  simp [calmStep, hc, h]

theorem calmStep_calmed {s t : State} {e : EStep} {k : List EStep} (hc : s.cont = e :: k)
    (h : engineDo e { s with cont := k } = .moved t) (ht : Calmed t) : calmStep s = some t := by
  rw [calmStep_of hc h, ht.eq]

/-! ## What a run of the engine has done -/

/-- What the engine steps of a stream leave alone. -/
def State.frame (s : State) :=
  (s.cfg, s.bmem, s.glyphs, s.opCode, s.opWords, s.faulted, s.busy, s.status, s.result, s.host, s.draws, s.changed)

/-- The pixel that an ink stands for while no resource changes. -/
def State.pixel (s : State) (p : Ink) : DeviceColor := convertColor (p.look s.cfg s.bmem s.glyphs)

/-- The stream that a plan stands for while no resource changes. -/
def State.stream (s : State) (p : Plan) : Stream := p.look s.cfg s.bmem s.glyphs

@[simp] theorem State.stream_win (s : State) (p : Plan) : (s.stream p).win = p.win := rfl
@[simp] theorem State.stream_pixels (s : State) (p : Plan) : (s.stream p).pixels = p.pixels.map s.pixel := rfl

theorem activeAfter_add (m : Mode) (a b : Nat) (i : BufIx) :
    activeAfter m b (activeAfter m a i) = activeAfter m (a + b) i := by
  cases m <;> simp only [activeAfter]
  rcases Nat.mod_two_eq_zero_or_one a with h1 | h1 <;> rcases Nat.mod_two_eq_zero_or_one b with h2 | h2 <;>
    cases i <;> simp [h1, h2, Nat.add_mod, BufIx.other]

theorem blockCount_append (xs ys : List Event) : blockCount (xs ++ ys) = blockCount xs + blockCount ys := by
  simp [blockCount]

/-- The engine alone runs from `s` to `t`, emits `es`, and writes no buffer byte from address `m` on. -/
structure Ran (s t : State) (es : List Event) (m : Nat) : Prop where
  reaches : CalmReaches s t
  calmed : Calmed t
  frame : t.frame = s.frame
  trace : t.trace = s.trace ++ es
  active : t.active = activeAfter s.cfg.mode (blockCount es) s.active
  others : ∀ i a, m ≤ a → Memory.read? (t.buf i) a = Memory.read? (s.buf i) a

theorem Ran.cfg {s t : State} {es : List Event} {m : Nat} (h : Ran s t es m) : t.cfg = s.cfg := congrArg (·.1) h.frame

theorem engineDo_store_stable {s : State} (h : s.changed = []) (p : Ink) :
    engineDo (.store p) s = storePixel s (s.pixel p) := by
  simp only [engineDo, State.ink_stable h, State.inkDraws_stable h]
  rfl

theorem Ran.pixel {s t : State} {es : List Event} {m : Nat} (h : Ran s t es m) : t.pixel = s.pixel := by
  have h1 : t.bmem = s.bmem := congrArg (·.2.1) h.frame
  have h2 : t.glyphs = s.glyphs := congrArg (·.2.2.1) h.frame
  funext p
  simp only [State.pixel, h.cfg, h1, h2]

theorem Ran.stream {s t : State} {es : List Event} {m : Nat} (h : Ran s t es m) : t.stream = s.stream := by
  have h1 : t.bmem = s.bmem := congrArg (·.2.1) h.frame
  have h2 : t.glyphs = s.glyphs := congrArg (·.2.2.1) h.frame
  funext p
  simp only [State.stream, h.cfg, h1, h2]

theorem Ran.refl {s : State} (h : Calmed s) (m : Nat) : Ran s s [] m :=
  ⟨.refl s, h, rfl, by simp, by cases hm : s.cfg.mode <;> simp [activeAfter, blockCount], fun _ _ _ => rfl⟩

theorem Ran.trans {s t u : State} {es fs : List Event} {m : Nat} (h : Ran s t es m) (h' : Ran t u fs m) :
    Ran s u (es ++ fs) m where
  reaches := h.reaches.trans h'.reaches
  calmed := h'.calmed
  frame := h'.frame.trans h.frame
  trace := by rw [h'.trace, h.trace, List.append_assoc]
  active := by rw [h'.active, h.active, h.cfg, activeAfter_add, blockCount_append]
  others := fun i a ha => (h'.others i a ha).trans (h.others i a ha)

theorem Ran.weaken {s t : State} {es : List Event} {m n : Nat} (h : Ran s t es m) (hmn : m ≤ n) : Ran s t es n :=
  { h with others := fun i a ha => h.others i a (hmn.trans ha) }

theorem Ran.one {s t : State} {es : List Event} {m : Nat} (h : calmStep s = some t) (hc : Calmed t)
    (hf : t.frame = s.frame) (ht : t.trace = s.trace ++ es)
    (ha : t.active = activeAfter s.cfg.mode (blockCount es) s.active)
    (ho : ∀ i a, m ≤ a → Memory.read? (t.buf i) a = Memory.read? (s.buf i) a) : Ran s t es m :=
  ⟨.step h (.refl t), hc, hf, ht, ha, ho⟩

/-! ## Command and data bytes -/

theorem run_emits (m : Nat) {k : List EStep} : ∀ (es : List Event), (∀ e ∈ es, e.isBlock = false) → ∀ (s : State),
    Calmed s → s.cont = es.map .emit ++ k → Ran s { s with trace := s.trace ++ es, cont := k } es m
  | [], _, s, hs, hc => by
    have : ({ s with trace := s.trace ++ [], cont := k } : State) = s := by
      cases s; simp at hc; simp [hc]
    rw [this]
    exact Ran.refl hs m
  | e :: es, hb, s, hs, hc => by
    have hs' : Calmed ({ s with trace := s.trace ++ [e], cont := es.map .emit ++ k } : State) :=
      ⟨hs.inFlight, hs.xfer, hs.moves, hs.tail, hs.hostReads, hs.stable⟩
    have h1 : Ran s { s with trace := s.trace ++ [e], cont := es.map .emit ++ k } [e] m :=
      Ran.one (calmStep_calmed hc rfl hs') hs' rfl rfl
        (by
          have := hb e List.mem_cons_self
          cases hm : s.cfg.mode <;> simp [activeAfter, blockCount, this])
        fun _ _ _ => rfl
    have h2 := run_emits m es (fun x hx => hb x (List.mem_cons_of_mem _ hx)) _ hs' rfl
    simpa using h1.trans h2

/-! ## flush, finish -/

/-- BLOCKING mode uses buffer 0 only (R25, R27). -/
def ActiveOk (s : State) : Prop := s.cfg.mode = .blocking → s.active = .b0

theorem ActiveOk.flushIx {s : State} (h : ActiveOk s) : s.flushIx = s.active := by
  unfold State.flushIx
  cases hm : s.cfg.mode with
  | blocking => simp [h hm]
  | async => rfl

theorem Ran.activeOk {s t : State} {es : List Event} {m : Nat} (h : Ran s t es m) (ha : ActiveOk s) : ActiveOk t := by
  intro hm
  rw [h.cfg] at hm
  rw [h.active, hm]
  exact ha hm

/-- `bytes` are staged in the active buffer of an open stream, the other buffer holds nothing. -/
structure InStream (s : State) (bytes : List Byte) : Prop where
  isOpen : s.streamOpen = true
  activeOk : ActiveOk s
  staged : Memory.readBlock (s.buf s.active) 0 (s.cursor s.active) = some bytes
  away : s.cursor s.active.other = 0

theorem InStream.length {s : State} {bytes : List Byte} (h : InStream s bytes) : s.cursor s.active = bytes.length :=
  (Memory.readBlock_length h.staged).symm

/-- No stream is open and nothing is staged. -/
structure Shut (s : State) : Prop where
  isOpen : s.streamOpen = false
  activeOk : ActiveOk s
  cursor0 : s.cursor0 = 0
  cursor1 : s.cursor1 = 0

@[simp] theorem other_other (i : BufIx) : i.other.other = i := by cases i <;> rfl

theorem Calmed.with_cont {s : State} (h : Calmed s) (k : List EStep) : Calmed { s with cont := k } :=
  ⟨h.inFlight, h.xfer, h.moves, h.tail, h.hostReads, h.stable⟩

theorem Calmed.setCursor {s : State} (h : Calmed s) (i : BufIx) (n : Nat) : Calmed (s.setCursor i n) := by
  cases i <;> exact ⟨h.inFlight, h.xfer, h.moves, h.tail, h.hostReads, h.stable⟩

theorem calm_waitIdle {s : State} {k : List EStep} (hs : Calmed s) (hc : s.cont = .waitIdle :: k) :
    calmStep s = some { s with cont := k } :=
  calmStep_calmed hc (by simp [engineDo, hs.inFlight]) (hs.with_cont k)

theorem calm_issue {s : State} {bytes : List Byte} {k : List EStep} (hs : Calmed s) (hc : s.cont = .issue :: k)
    (hb : Memory.readBlock (s.buf s.flushIx) 0 (s.cursor s.flushIx) = some bytes) :
    calmStep s = some { s with cont := k, trace := s.trace ++ [.block s.cfg.mode bytes, .done] } := by
  have h : engineDo .issue { s with cont := k } = .moved (({ s with cont := k } : State).issueBlock bytes) := by
    have hb' : Memory.readBlock (State.buf { s with cont := k } (State.flushIx { s with cont := k })) 0
        (State.cursor { s with cont := k } (State.flushIx { s with cont := k })) = some bytes := hb
    simp only [engineDo, issueStep, hb']
  rw [calmStep_of hc h]
  simp [State.calm, State.settled, State.issueBlock, State.emit, hs.inFlight, hs.xfer, hs.moves, hs.tail, hs.hostReads]

theorem calm_clearCursor {s : State} {k : List EStep} (hs : Calmed s) (hc : s.cont = .clearCursor :: k) :
    calmStep s = some (({ s with cont := k } : State).setCursor s.flushIx 0) :=
  calmStep_calmed hc rfl ((hs.with_cont k).setCursor _ _)

theorem calm_flipActive {s : State} {k : List EStep} (hs : Calmed s) (hc : s.cont = .flipActive :: k) :
    calmStep s = some { s with cont := k, active := s.active.other } :=
  calmStep_calmed hc rfl ⟨hs.inFlight, hs.xfer, hs.moves, hs.tail, hs.hostReads, hs.stable⟩

theorem run_flush {s : State} {bytes : List Byte} {k : List EStep} (hs : Calmed s) (hi : InStream s bytes)
    (hc : s.cont = flushSteps s.cfg.mode ++ k) :
    ∃ t, Ran s t [.block s.cfg.mode bytes, .done] 0 ∧ t.cont = k ∧ t.win = s.win ∧ t.streamOpen = true ∧
      t.cursor0 = 0 ∧ t.cursor1 = 0 := by
  obtain ⟨ho, hok, hst, haw⟩ := hi
  have hix := hok.flushIx
  cases hm : s.cfg.mode with
  | blocking =>
    have ha : s.active = .b0 := hok hm
    rw [hm] at hc
    let s1 : State := { s with cont := .waitIdle :: .clearCursor :: k, trace := s.trace ++ [.block .blocking bytes, .done] }
    let s2 : State := { s1 with cont := .clearCursor :: k }
    let s3 : State := { s2 with cont := k, cursor0 := 0 }
    have h1 : calmStep s = some s1 := by
      rw [calm_issue hs hc (by rw [hix]; exact hst), hm]
      rfl
    have c1 : Calmed s1 := ⟨hs.inFlight, hs.xfer, hs.moves, hs.tail, hs.hostReads, hs.stable⟩
    have h2 : calmStep s1 = some s2 := calm_waitIdle c1 rfl
    have c2 : Calmed s2 := ⟨hs.inFlight, hs.xfer, hs.moves, hs.tail, hs.hostReads, hs.stable⟩
    have h3 : calmStep s2 = some s3 := by
      rw [calm_clearCursor c2 rfl, show s2.flushIx = .b0 from hix.trans ha]
      rfl
    have haw' : s.cursor1 = 0 := by rw [ha] at haw; exact haw
    exact ⟨s3, ⟨.step h1 (.step h2 (.step h3 (.refl _))), ⟨hs.inFlight, hs.xfer, hs.moves, hs.tail, hs.hostReads, hs.stable⟩, rfl, rfl,
      by rw [hm]; rfl, fun i _ _ => by cases i <;> rfl⟩, rfl, rfl, ho, rfl, haw'⟩
  | async =>
    rw [hm] at hc
    let s1 : State := { s with cont := .issue :: .clearCursor :: .flipActive :: k }
    let s2 : State := { s1 with cont := .clearCursor :: .flipActive :: k, trace := s.trace ++ [.block .async bytes, .done] }
    let s3 : State := ({ s2 with cont := .flipActive :: k } : State).setCursor s.active 0
    let s4 : State := { s3 with cont := k, active := s.active.other }
    have h1 : calmStep s = some s1 := calm_waitIdle hs hc
    have c1 : Calmed s1 := hs.with_cont _
    have h2 : calmStep s1 = some s2 := by
      have hix1 : s1.flushIx = s.active := hix
      rw [calm_issue c1 rfl (by rw [hix1]; exact hst), show s1.cfg.mode = .async from hm]
    have c2 : Calmed s2 := ⟨hs.inFlight, hs.xfer, hs.moves, hs.tail, hs.hostReads, hs.stable⟩
    have h3 : calmStep s2 = some s3 := by
      rw [calm_clearCursor c2 rfl, show s2.flushIx = s.active from hix]
    have c3 : Calmed s3 := (c2.with_cont _).setCursor _ _
    have h4 : calmStep s3 = some s4 := by
      rw [calm_flipActive c3 (k := k) (by simp [s3])]
      simp [s4, s3, s2, s1]
    have c4 : Calmed s4 := ⟨c3.inFlight, c3.xfer, c3.moves, c3.tail, c3.hostReads, c3.stable⟩
    refine ⟨s4, ⟨.step h1 (.step h2 (.step h3 (.step h4 (.refl _)))), c4, ?_, ?_, ?_, ?_⟩, rfl, ?_, ?_, ?_, ?_⟩
    · cases ha : s.active <;> simp [State.frame, s4, s3, s2, s1, ha, State.setCursor]
    · simp [s4, s3, s2, s1]
    · rw [hm]
      rfl
    · intro i _ _
      cases i <;> cases ha : s.active <;> simp [s4, s3, s2, s1, ha, State.setCursor, State.buf]
    · simp [s4, s3, s2, s1]
    · simp [s4, s3, s2, s1, ho]
    · cases ha : s.active with
      | b0 => simp [s4, s3, ha, State.setCursor]
      | b1 =>
        rw [ha] at haw
        simpa [s4, s3, s2, s1, ha, State.setCursor, BufIx.other, State.cursor] using haw
    · cases ha : s.active with
      | b1 => simp [s4, s3, ha, State.setCursor]
      | b0 =>
        rw [ha] at haw
        simpa [s4, s3, s2, s1, ha, State.setCursor, BufIx.other, State.cursor] using haw

/-- `finish`, called in an open stream. -/
theorem run_finish {s : State} {bytes : List Byte} {k : List EStep} (hs : Calmed s) (hi : InStream s bytes)
    (hc : s.cont = finishSteps ++ k) :
    ∃ t, Ran s t (finishEvents s.cfg bytes) 0 ∧ t.cont = k ∧ t.win = s.win ∧ Shut t := by
  have hlen := hi.length
  -- after the remainder's flush, if there is one
  have hfl : ∃ t, Ran s t (if bytes = [] then [] else [.block s.cfg.mode bytes, .done]) 0 ∧
      t.cont = .waitIdle :: .emit .scopeRelease :: .shutStream :: k ∧ t.win = s.win ∧ t.streamOpen = true ∧
      t.cursor0 = 0 ∧ t.cursor1 = 0 := by
    have h1 : engineDo .flushIfAny { s with cont := .waitIdle :: .emit .scopeRelease :: .shutStream :: k } =
        .moved (if 0 < s.cursor s.active then
          { s with cont := flushSteps s.cfg.mode ++ .waitIdle :: .emit .scopeRelease :: .shutStream :: k }
          else { s with cont := .waitIdle :: .emit .scopeRelease :: .shutStream :: k }) := rfl
    by_cases hb : bytes = []
    · subst hb
      rw [if_neg (by simp [hlen])] at h1
      refine ⟨_, Ran.one (calmStep_calmed hc h1 (hs.with_cont _)) (hs.with_cont _) rfl (by simp)
        (by cases hm : s.cfg.mode <;> simp [activeAfter, blockCount]) fun _ _ _ => rfl, rfl, rfl, hi.isOpen, ?_⟩
      have haw := hi.away
      cases ha : s.active <;> rw [ha] at haw hlen <;> exact ⟨by assumption, by assumption⟩
    · rw [if_pos (by rw [hlen]; exact List.length_pos_iff.2 hb)] at h1
      have hr : Ran s { s with cont := flushSteps s.cfg.mode ++ .waitIdle :: .emit .scopeRelease :: .shutStream :: k }
          [] 0 := Ran.one (calmStep_calmed hc h1 (hs.with_cont _)) (hs.with_cont _) rfl (by simp)
        (by cases hm : s.cfg.mode <;> simp [activeAfter, blockCount]) fun _ _ _ => rfl
      obtain ⟨t, h2, h3, h4⟩ := run_flush (hs.with_cont _) (bytes := bytes)
        (s := { s with cont := flushSteps s.cfg.mode ++ .waitIdle :: .emit .scopeRelease :: .shutStream :: k })
        ⟨hi.isOpen, hi.activeOk, hi.staged, hi.away⟩ rfl
      refine ⟨t, ?_, h3, h4⟩
      rw [if_neg hb]
      exact hr.trans h2
  obtain ⟨t, ht, hk, hw, ho, h0, h1⟩ := hfl
  have ct := ht.calmed
  let t1 : State := { t with cont := .emit .scopeRelease :: .shutStream :: k }
  let t2 : State := { t1 with cont := .shutStream :: k, trace := t.trace ++ [.scopeRelease] }
  let t3 : State := { t2 with cont := k, streamOpen := false }
  have e1 : calmStep t = some t1 := calm_waitIdle ct hk
  have c1 : Calmed t1 := ct.with_cont _
  have c2 : Calmed t2 := ⟨ct.inFlight, ct.xfer, ct.moves, ct.tail, ct.hostReads, ct.stable⟩
  have c3 : Calmed t3 := ⟨ct.inFlight, ct.xfer, ct.moves, ct.tail, ct.hostReads, ct.stable⟩
  have e2 : calmStep t1 = some t2 := calmStep_calmed (e := .emit .scopeRelease) (k := .shutStream :: k) rfl rfl c2
  have e3 : calmStep t2 = some t3 := calmStep_calmed (e := .shutStream) (k := k) rfl rfl c3
  have hr : Ran t t3 [.scopeRelease] 0 :=
    ⟨.step e1 (.step e2 (.step e3 (.refl _))), c3, rfl, rfl,
      by cases hm : t.cfg.mode <;> simp [activeAfter, blockCount, Event.isBlock, t3, t2, t1],
      fun _ _ _ => rfl⟩
  exact ⟨t3, ht.trans hr, rfl, hw, rfl, (ht.trans hr).activeOk hi.activeOk, h0, h1⟩

/-! ## push_pixel -/

theorem activeAfter_zero (m : Mode) (i : BufIx) : activeAfter m 0 i = i := by cases m <;> rfl

theorem run_push {s : State} {bytes : List Byte} {p : Ink} {k : List EStep} {m : Nat} (hs : Calmed s)
    (hi : InStream s bytes) (hcap : bytes.length + 3 ≤ s.cfg.capacity) (hm : bytes.length + 3 ≤ m)
    (hc : s.cont = pushSteps p ++ k) :
    let d := s.pixel p
    ∃ t, Ran s t (pushEvents s.cfg bytes d).1 m ∧ t.cont = k ∧ t.win = s.win ∧
      InStream t (pushEvents s.cfg bytes d).2 ∧
      ∀ i a, Memory.read? (t.buf i) a =
        if i = s.active then Memory.read? (Memory.writePixel (s.buf i) (s.cursor i) d) a
        else Memory.read? (s.buf i) a := by
  intro d
  have hlen := hi.length
  let s1 : State := ({ s with cont := .advance :: .flushIfFull :: k } : State).setBuf s.active
    (Memory.writePixel (s.buf s.active) (s.cursor s.active) d)
  let s2 : State := ({ s1 with cont := .flushIfFull :: k } : State).setCursor s.active (s.cursor s.active + 3)
  have c1 : Calmed s1 := by
    cases ha : s.active <;> simp only [s1, ha] <;> exact ⟨hs.inFlight, hs.xfer, hs.moves, hs.tail, hs.hostReads, hs.stable⟩
  have c2 : Calmed s2 := (c1.with_cont _).setCursor _ _
  have e1 : calmStep s = some s1 := calmStep_calmed (e := .store p) hc
    (by
      have h : ({ s with cont := .advance :: .flushIfFull :: k } : State).cursor s.active + 3 ≤ s.cfg.capacity := by
        show s.cursor s.active + 3 ≤ _
        omega
      exact (engineDo_store_stable (s := { s with cont := .advance :: .flushIfFull :: k }) hs.stable p).trans (if_pos h)) c1
  have e2 : calmStep s1 = some s2 := calmStep_calmed (e := .advance) (k := .flushIfFull :: k)
    (by simp [s1]) (by cases ha : s.active <;> simp [engineDo, s2, s1, ha, State.setBuf, State.setCursor, State.cursor]) c2
  have hact : s2.active = s.active := by simp [s2, s1]
  have hr2 : Ran s s2 [] m := by
    refine ⟨.step e1 (.step e2 (.refl _)), c2, ?_, ?_, ?_, ?_⟩
    · simp [State.frame, s2, s1]
    · simp [s2, s1]
    · simp [hact, blockCount, activeAfter_zero]
    · intro i a ha
      have hw : ∀ b : Memory, Memory.read? (Memory.writePixel b (s.cursor s.active) d) a = Memory.read? b a := by
        intro b
        rw [Memory.read?_writePixel, if_neg (by omega), if_neg (by omega), if_neg (by omega)]
      cases hact' : s.active <;> cases i <;>
        simp [s2, s1, hact', State.setBuf, State.setCursor, State.buf, State.cursor] <;>
        simpa [hact', State.buf, State.cursor] using hw _
  have hi2 : InStream s2 (bytes ++ d.bytes) := by
    refine ⟨by simp [s2, s1, hi.isOpen], hr2.activeOk hi.activeOk, ?_, ?_⟩
    · have := Memory.readBlock_writePixel d hi.staged
      rw [hact]
      cases ha : s.active <;> rw [ha] at this <;>
        simpa [s2, s1, ha, State.setBuf, State.setCursor, State.buf, State.cursor] using this
    · have := hi.away
      rw [hact]
      cases ha : s.active <;> rw [ha] at this <;>
        simpa [s2, s1, ha, State.setBuf, State.setCursor, State.buf, State.cursor, BufIx.other] using this
  have hbuf2 : ∀ i a, Memory.read? (s2.buf i) a =
      if i = s.active then Memory.read? (Memory.writePixel (s.buf i) (s.cursor i) d) a
      else Memory.read? (s.buf i) a := by
    intro i a
    cases ha : s.active <;> cases i <;> simp [s2, s1, ha, State.setBuf, State.setCursor, State.buf, State.cursor]
  have hlen2 := hi2.length
  have hl : (bytes ++ d.bytes).length = bytes.length + 3 := by simp [DeviceColor.bytes]
  have hcont2 : s2.cont = .flushIfFull :: k := by simp [s2]
  have hcfg2 : s2.cfg = s.cfg := hr2.cfg
  have hwin2 : s2.win = s.win := by simp [s2, s1]
  have h3 : engineDo .flushIfFull { s2 with cont := k } =
      .moved (if s2.cfg.capacity < s2.cursor s2.active + 3 then { s2 with cont := flushSteps s2.cfg.mode ++ k }
        else { s2 with cont := k }) := rfl
  by_cases hfull : s.cfg.capacity < (bytes ++ d.bytes).length + 3
  · rw [if_pos (by rw [hcfg2, hlen2]; exact hfull)] at h3
    have hr3 : Ran s2 { s2 with cont := flushSteps s2.cfg.mode ++ k } [] m :=
      Ran.one (calmStep_calmed hcont2 h3 (c2.with_cont _)) (c2.with_cont _) rfl (by simp)
        (by simp [blockCount, activeAfter_zero]) fun _ _ _ => rfl
    obtain ⟨t, h4, h5, h6, h7, h8, h9⟩ := run_flush (c2.with_cont (flushSteps s2.cfg.mode ++ k))
      (bytes := bytes ++ d.bytes) (k := k) ⟨hi2.isOpen, hi2.activeOk, hi2.staged, hi2.away⟩ rfl
    have hr := hr2.trans (hr3.trans (h4.weaken (Nat.zero_le m)))
    have hp : pushEvents s.cfg bytes d = ([.block s.cfg.mode (bytes ++ d.bytes), .done], []) := if_pos hfull
    rw [hp]
    refine ⟨t, ?_, h5, h6.trans hwin2, ?_⟩
    · simpa [hcfg2] using hr
    · refine ⟨⟨h7, hr.activeOk hi.activeOk, ?_, ?_⟩, ?_⟩
      · cases t.active <;> simp [State.cursor, h8, h9, Memory.readBlock]
      · cases t.active <;> simp [State.cursor, h8, h9, BufIx.other]
      · exact fun i a => (h4.others i a (Nat.zero_le a)).trans (hbuf2 i a)
  · rw [if_neg (by rw [hcfg2, hlen2]; exact hfull)] at h3
    have hr3 : Ran s2 { s2 with cont := k } [] m :=
      Ran.one (calmStep_calmed hcont2 h3 (c2.with_cont _)) (c2.with_cont _) rfl (by simp)
        (by simp [blockCount, activeAfter_zero]) fun _ _ _ => rfl
    have hp : pushEvents s.cfg bytes d = ([], bytes ++ d.bytes) := if_neg hfull
    rw [hp]
    refine ⟨{ s2 with cont := k }, ?_, rfl, hwin2, ?_⟩
    · simpa using hr2.trans hr3
    · exact ⟨⟨hi2.isOpen, hi2.activeOk, hi2.staged, hi2.away⟩, hbuf2⟩

/-- After a push there is room for one more pixel. -/
theorem pushEvents_room {c : Config} {bytes : List Byte} (d : DeviceColor) (hc : 3 ≤ c.capacity) :
    (pushEvents c bytes d).2.length + 3 ≤ c.capacity := by
  simp only [pushEvents]
  split
  · simpa using hc
  · simp only
    omega

theorem pushEvents_length_le (c : Config) (bytes : List Byte) (d : DeviceColor) :
    (pushEvents c bytes d).2.length ≤ bytes.length + 3 := by
  simp only [pushEvents]
  split <;> simp [DeviceColor.bytes]

theorem run_pushes {k : List EStep} {m : Nat} : ∀ (ps : List Ink) {s : State} {bytes : List Byte}, Calmed s →
    InStream s bytes → bytes.length + 3 ≤ s.cfg.capacity → min (bytes.length + 3 * ps.length) s.cfg.capacity ≤ m →
    s.cont = ps.flatMap pushSteps ++ k →
    ∃ t, Ran s t (pushAllEvents s.cfg bytes (ps.map s.pixel)).1 m ∧ t.cont = k ∧ t.win = s.win ∧
      InStream t (pushAllEvents s.cfg bytes (ps.map s.pixel)).2
  | [], s, bytes, hs, hi, _, _, hc => ⟨s, Ran.refl hs m, hc, rfl, hi⟩
  | p :: ps, s, bytes, hs, hi, hcap, hm, hc => by
    have h3 : 3 ≤ s.cfg.capacity := by omega
    obtain ⟨t, h1, h2, h4, h5, _⟩ := run_push (p := p) (k := ps.flatMap pushSteps ++ k) (m := m) hs hi hcap
      (by simp only [List.length_cons] at hm; omega) (by simpa using hc)
    have hcfg := h1.cfg
    have hroom := pushEvents_room (bytes := bytes) (s.pixel p) h3
    have hle := pushEvents_length_le s.cfg bytes (s.pixel p)
    obtain ⟨u, h6, h7, h8, h9⟩ := run_pushes (m := m) ps h1.calmed h5 (by rwa [hcfg])
      (by rw [hcfg]; simp only [List.length_cons] at hm; omega) h2
    rw [hcfg, h1.pixel] at h6 h9
    exact ⟨u, h1.trans h6, h7, h8.trans h4, h9⟩

/-! ## set_window -/

theorem run_window_shut {s : State} {w : Window} {k : List EStep} (hs : Calmed s) (hi : Shut s)
    (hc : s.cont = (windowSteps s.cfg w).tail ++ k) :
    ∃ t, Ran s t (windowEvents s.cfg w) 0 ∧ t.cont = k ∧ t.win = w ∧ InStream t [] := by
  have h1 := run_emits 0 (k := .writeWin w :: .emit .scopeAcquire :: .openStream :: k)
    [.cmd s.cfg.cmdHRange, .data (hi8 w.x1), .data (lo8 w.x1), .data (hi8 w.x2), .data (lo8 w.x2),
      .cmd s.cfg.cmdVRange, .data (hi8 w.y1), .data (lo8 w.y1), .data (hi8 w.y2), .data (lo8 w.y2),
      .cmd s.cfg.cmdMemWrite] (by simp [Event.isBlock]) s hs (by simpa [windowSteps] using hc)
  revert h1
  generalize hq : ({ s with trace := s.trace ++ _, cont := _ } : State) = q
  intro h1
  have hqc : q.cont = .writeWin w :: .emit .scopeAcquire :: .openStream :: k := by rw [← hq]
  have hq0 : q.cursor0 = 0 := by rw [← hq]; exact hi.cursor0
  have hq1 : q.cursor1 = 0 := by rw [← hq]; exact hi.cursor1
  have cq := h1.calmed
  let q1 : State := { q with cont := .emit .scopeAcquire :: .openStream :: k, win := w }
  let q2 : State := { q1 with cont := .openStream :: k, trace := q.trace ++ [.scopeAcquire] }
  let q3 : State := { q2 with cont := k, streamOpen := true }
  have c1 : Calmed q1 := ⟨cq.inFlight, cq.xfer, cq.moves, cq.tail, cq.hostReads, cq.stable⟩
  have c2 : Calmed q2 := ⟨cq.inFlight, cq.xfer, cq.moves, cq.tail, cq.hostReads, cq.stable⟩
  have c3 : Calmed q3 := ⟨cq.inFlight, cq.xfer, cq.moves, cq.tail, cq.hostReads, cq.stable⟩
  have e1 : calmStep q = some q1 := calmStep_calmed (e := .writeWin w) hqc rfl c1
  have e2 : calmStep q1 = some q2 := calmStep_calmed (e := .emit .scopeAcquire) (k := .openStream :: k) rfl rfl c2
  have e3 : calmStep q2 = some q3 := calmStep_calmed (e := .openStream) (k := k) rfl rfl c3
  have hr : Ran q q3 [.scopeAcquire] 0 := ⟨.step e1 (.step e2 (.step e3 (.refl _))), c3, rfl, rfl,
    by simp [blockCount, Event.isBlock, activeAfter_zero, q3, q2, q1], fun _ _ _ => rfl⟩
  have hrr := h1.trans hr
  refine ⟨q3, by simpa [windowEvents] using hrr, rfl, rfl, rfl, hrr.activeOk hi.activeOk, ?_, ?_⟩
  · have e0 : q3.cursor0 = 0 := hq0
    have e1 : q3.cursor1 = 0 := hq1
    cases q3.active <;> simp [State.cursor, e0, e1, Memory.readBlock]
  · have e0 : q3.cursor0 = 0 := hq0
    have e1 : q3.cursor1 = 0 := hq1
    cases q3.active <;> simp [State.cursor, e0, e1, BufIx.other]

/-- Between operations, up to the outstanding block: no stream, or an open one. -/
def Settled (s : State) : Prop := Shut s ∨ ∃ bytes, InStream s bytes

/-- `if stream_open = 1 then finish()`. -/
theorem run_close {s : State} {k : List EStep} (hs : Calmed s) (hi : Settled s) (hc : s.cont = .closeStream :: k) :
    ∃ t, Ran s t s.closeEvents 0 ∧ t.cont = k ∧ t.win = s.win ∧ Shut t := by
  have h1 : engineDo .closeStream { s with cont := k } =
      .moved (if s.streamOpen then { s with cont := finishSteps ++ k } else { s with cont := k }) := rfl
  rcases hi with hi | ⟨bytes, hi⟩
  · rw [if_neg (by simp [hi.isOpen])] at h1
    refine ⟨_, Ran.one (calmStep_calmed hc h1 (hs.with_cont _)) (hs.with_cont _) rfl ?_ ?_ fun _ _ _ => rfl, rfl, rfl,
      hi.isOpen, hi.activeOk, hi.cursor0, hi.cursor1⟩
    · simp [State.closeEvents, hi.isOpen]
    · simp [State.closeEvents, hi.isOpen, blockCount, activeAfter_zero]
  · rw [if_pos hi.isOpen] at h1
    have hr : Ran s { s with cont := finishSteps ++ k } [] 0 :=
      Ran.one (calmStep_calmed hc h1 (hs.with_cont _)) (hs.with_cont _) rfl (by simp)
        (by simp [blockCount, activeAfter_zero]) fun _ _ _ => rfl
    obtain ⟨t, h2, h3, h4, h5⟩ := run_finish (hs.with_cont (finishSteps ++ k)) (bytes := bytes) (k := k)
      ⟨hi.isOpen, hi.activeOk, hi.staged, hi.away⟩ rfl
    refine ⟨t, ?_, h3, h4, h5⟩
    have : s.closeEvents = finishEvents s.cfg bytes := by
      simp [State.closeEvents, hi.isOpen, State.staged, hi.staged]
    rw [this]
    exact hr.trans h2

theorem run_window {s : State} {w : Window} {k : List EStep} (hs : Calmed s) (hi : Settled s)
    (hc : s.cont = windowSteps s.cfg w ++ k) :
    ∃ t, Ran s t (s.closeEvents ++ windowEvents s.cfg w) 0 ∧ t.cont = k ∧ t.win = w ∧ InStream t [] := by
  obtain ⟨t, h1, h2, _, h4⟩ := run_close (k := (windowSteps s.cfg w).tail ++ k) hs hi (by rw [hc]; rfl)
  have hcfg := h1.cfg
  obtain ⟨u, h5, h6, h7, h8⟩ := run_window_shut (w := w) (k := k) h1.calmed h4 (by rw [h2, hcfg])
  rw [hcfg] at h5
  exact ⟨u, h1.trans h5, h6, h7, h8⟩

/-! ## Streams -/

theorem run_stream {s : State} {st : Plan} {k : List EStep} {m : Nat} (hs : Calmed s) (hi : Settled s)
    (hcap : 3 ≤ s.cfg.capacity) (hm : min (3 * st.pixels.length) s.cfg.capacity ≤ m)
    (hc : s.cont = streamSteps s.cfg st ++ k) :
    ∃ t, Ran s t (s.closeEvents ++ streamEvents s.cfg (s.stream st)) m ∧ t.cont = k ∧ t.win = st.win ∧ Shut t := by
  obtain ⟨t, h1, h2, h3, h4⟩ := run_window (w := st.win) (k := st.pixels.flatMap pushSteps ++ (finishSteps ++ k)) hs hi
    (by simpa [streamSteps] using hc)
  have e1 := h1.cfg
  obtain ⟨u, h5, h6, h7, h8⟩ := run_pushes (m := m) st.pixels h1.calmed h4 (by rw [e1]; simpa using hcap)
    (by rw [e1]; simpa using hm) h2
  have e2 := h5.cfg
  rw [e1, h1.pixel] at h5 h8
  obtain ⟨v, h9, h10, h11, h12⟩ := run_finish (k := k) h5.calmed h8 h6
  rw [e2, e1] at h9
  refine ⟨v, ?_, h10, h11.trans (h7.trans h3), h12⟩
  have := (h1.weaken (Nat.zero_le m)).trans (h5.trans (h9.weaken (Nat.zero_le m)))
  simpa [streamEvents] using this

theorem closeEvents_shut {s : State} (h : Shut s) : s.closeEvents = [] := by simp [State.closeEvents, h.isOpen]

theorem run_streams_shut {k : List EStep} {m : Nat} : ∀ (sts : List Plan) {s : State}, Calmed s → Shut s →
    3 ≤ s.cfg.capacity → (∀ st ∈ sts, min (3 * st.pixels.length) s.cfg.capacity ≤ m) →
    s.cont = sts.flatMap (streamSteps s.cfg) ++ k →
    ∃ t, Ran s t ((sts.map s.stream).flatMap (streamEvents s.cfg)) m ∧ t.cont = k ∧ t.win = lastWin s.win (sts.map s.stream) ∧ Shut t
  | [], s, hs, hi, _, _, hc => ⟨s, Ran.refl hs m, hc, rfl, hi⟩
  | st :: sts, s, hs, hi, hcap, hm, hc => by
    obtain ⟨t, h1, h2, h3, h4⟩ := run_stream (st := st) (k := sts.flatMap (streamSteps s.cfg) ++ k) hs (.inl hi) hcap
      (hm st List.mem_cons_self) (by simpa using hc)
    have e := h1.cfg
    obtain ⟨u, h5, h6, h7, h8⟩ := run_streams_shut (k := k) (m := m) sts h1.calmed h4 (by rwa [e])
      (fun x hx => by rw [e]; exact hm x (List.mem_cons_of_mem _ hx)) (by rw [e]; exact h2)
    rw [e, h1.stream] at h5
    rw [h1.stream] at h7
    rw [closeEvents_shut hi] at h1
    refine ⟨u, by simpa using h1.trans h5, h6, ?_, h8⟩
    rw [h7, h3]
    cases sts using List.reverseRecOn <;> simp [lastWin, List.getLast?_cons]

/-- The streams of a drawing operation. -/
theorem run_streams {s : State} {sts : List Plan} {k : List EStep} {m : Nat} (hne : sts ≠ []) (hs : Calmed s)
    (hi : Settled s) (hcap : 3 ≤ s.cfg.capacity) (hm : ∀ st ∈ sts, min (3 * st.pixels.length) s.cfg.capacity ≤ m)
    (hc : s.cont = sts.flatMap (streamSteps s.cfg) ++ k) :
    ∃ t, Ran s t (s.closeEvents ++ (sts.map s.stream).flatMap (streamEvents s.cfg)) m ∧ t.cont = k ∧ t.win = lastWin s.win (sts.map s.stream) ∧
      Shut t := by
  cases sts with
  | nil => exact absurd rfl hne
  | cons st sts =>
    obtain ⟨t, h1, h2, h3, h4⟩ := run_stream (st := st) (k := sts.flatMap (streamSteps s.cfg) ++ k) hs hi hcap
      (hm st List.mem_cons_self) (by simpa using hc)
    have e := h1.cfg
    obtain ⟨u, h5, h6, h7, h8⟩ := run_streams_shut (k := k) (m := m) sts h1.calmed h4 (by rwa [e])
      (fun x hx => by rw [e]; exact hm x (List.mem_cons_of_mem _ hx)) (by rw [e]; exact h2)
    rw [e, h1.stream] at h5
    rw [h1.stream] at h7
    refine ⟨u, by simpa using h1.trans h5, h6, ?_, h8⟩
    rw [h7, h3]
    cases sts using List.reverseRecOn <;> simp [lastWin, List.getLast?_cons]

end Sys2Proof.Machine
end

