-- ==== Sys2Proof/Laws/Exec.lean ====
section
/-! SUPPORT. What an accepted operation answers: its engine steps are well formed, so it keeps the invariant; and where
the other agents let it end, its end is that of the engine alone. -/

namespace Sys2Proof.Machine

/-! ## The operations' engine steps are well formed -/

theorem after_faultCheck {m : Mode} {rest : List EStep} (h : Phase.after m .live rest = some .ended) :
    Phase.after m .start (.faultCheck :: rest) = some .ended := h

/-- Every meaning is `operate` on engine steps that are well formed. -/
theorem exec_operate (i : Instr) (s : State) :
    ∃ steps, exec i s = operate i steps s ∧ Phase.after s.cfg.mode .start steps = some .ended := by
  cases i with
  | drawPixel x y c =>
    exact ⟨_, rfl, after_faultCheck (after_checked fun _ => after_drawSteps _ _ _ _)⟩
  | fillRect x1 y1 x2 y2 c =>
    exact ⟨_, rfl, after_faultCheck (after_checked fun _ => after_drawSteps _ _ _ _)⟩
  | drawGlyph x y ch fg bg sc =>
    exact ⟨_, rfl, after_faultCheck (after_checked fun _ => after_checked fun _ => after_drawSteps _ _ _ _)⟩
  | drawFastGlyph x y ch fg bg =>
    exact ⟨_, rfl, after_faultCheck (after_checked fun _ => after_drawSteps _ _ _ _)⟩
  | drawString x y fg bg sc chs =>
    refine ⟨_, rfl, after_faultCheck (after_checked fun _ => ?_)⟩
    split
    · rfl
    · exact after_checked fun _ => after_drawSteps _ _ _ _
  | drawFastString x y fg bg chs =>
    refine ⟨_, rfl, after_faultCheck ?_⟩
    split
    · rfl
    · exact after_checked fun _ => after_drawSteps _ _ _ _
  | drawBitmap x y sc base =>
    exact ⟨_, rfl, after_faultCheck (after_checked fun _ => after_checked fun _ => rfl)⟩
  | convert c => exact ⟨_, rfl, rfl⟩
  | setWindow x1 y1 x2 y2 =>
    refine ⟨_, rfl, after_faultCheck (after_checked fun _ => ?_)⟩
    rw [after_append, after_windowSteps]
    rfl
  | pushPixel c => exact ⟨_, rfl, rfl⟩
  | finish => exact ⟨_, rfl, rfl⟩

/-! ## An accepted operation -/

/-- The state in which the engine starts an accepted operation: `accept`, with the words of the descriptor given. -/
def accepted (s : State) (ws : List Word) (steps : List EStep) : State :=
  { s.latch ws with busy := true, cont := steps }

theorem accept_eq (s : State) (i : Instr) (k : List EStep) : s.accept i k = accepted s (encode i) k := rfl

theorem State.Idle.rest {s : State} (h : s.Idle) : s.Rest ∧ s.cont = [] := by
  have := h.1
  simp only [State.Inv, h.2] at this
  exact ⟨this.1, this.2.1⟩

theorem State.Idle.stable {s : State} (h : s.Idle) : s.changed = [] := by
  have := h.1
  simp only [State.Inv, h.2] at this
  exact this.2.2

theorem State.Idle.legal {s : State} (h : s.Idle) : s.cfg.Legal := h.rest.1.1.legal

theorem operate_idle {i : Instr} {steps : List EStep} {s : State} (h : s.Idle) :
    operate i steps s = runOp (accepted s (encode i) steps) := by
  unfold operate
  rw [if_pos h.legal, if_neg (by simp [h.2])]
  rfl

theorem latch_view (s : State) (ws : List Word) : (s.latch ws).view = s.view := by cases ws <;> rfl

theorem accepted_view (s : State) (ws : List Word) (steps : List EStep) : (accepted s ws steps).view = s.view := by
  cases ws <;> rfl

theorem accepted_cfg (s : State) (ws : List Word) (steps : List EStep) : (accepted s ws steps).cfg = s.cfg := by
  cases ws <;> rfl

theorem accepted_changed (s : State) (ws : List Word) (steps : List EStep) : (accepted s ws steps).changed = s.changed := by
  cases ws <;> rfl

theorem accepted_calmed {s : State} {ws : List Word} {steps : List EStep} (h : s.Idle) :
    Calmed (accepted s ws steps).calm := calm_calmed ((accepted_changed s ws steps).trans h.stable)

theorem accepted_inv {s : State} {ws : List Word} {steps : List EStep} (h : s.Idle)
    (hty : Phase.after s.cfg.mode .start steps = some .ended) : (accepted s ws steps).Inv := by
  refine (inv_iff _).2 (.inl (running_of (p := .start) rfl (h.rest.1.congr (accepted_view s ws steps)) ?_))
  rw [accepted_cfg]
  exact hty

/-- An accepted operation answers a next state, which keeps the invariant, whatever the other agents do. -/
theorem operate_inv {i : Instr} {steps : List EStep} {s : State} (h : s.Idle)
    (hty : Phase.after s.cfg.mode .start steps = some .ended) :
    ∃ t, operate i steps s = .next t ∧ t.Inv ∧ t.fixed = s.fixed ∧ Stopped t := by
  rw [operate_idle h]
  obtain ⟨t, h1, h2, h3, h4⟩ := runOp_inv (accepted_inv (ws := encode i) h hty)
  refine ⟨t, h1, h4, (reaches_fixed h2).trans ?_, h3⟩
  cases encode i <;> rfl

/-- The fields that an operation leaves alone while the host changes no resource. -/
def State.lasting (s : State) := (s.cfg, s.bmem, s.glyphs, s.host, s.tail)

theorem lasting_of {s t : State} (h1 : t.fixed = s.fixed) (h2 : t.bmem = s.bmem) (h3 : t.glyphs = s.glyphs) :
    t.lasting = s.lasting := by
  simp only [State.fixed, Prod.mk.injEq] at h1
  simp only [State.lasting, h1, h2, h3]

/-- The end of an operation that will end is that of the engine alone. -/
theorem operate_calm {i : Instr} {steps : List EStep} {s u : State} (h : s.Idle)
    (hty : Phase.after s.cfg.mode .start steps = some .ended) (hst : s.Steady)
    (hw : s.Quiet ∨ NoWait s.faulted s.streamOpen s.cfg s.bmem steps)
    (hu : CalmReaches (accepted s (encode i) steps).calm u) (hc : u.cont = []) :
    ∃ t, operate i steps s = .next t ∧ t.calm = u ∧ t.Idle ∧ t.lasting = s.lasting ∧ t.Steady ∧ (s.Quiet → t.Quiet) := by
  rw [operate_idle h]
  have hinv := accepted_inv (ws := encode i) h hty
  have hst' : (accepted s (encode i) steps).Steady := by cases encode i <;> exact hst
  have hw' : WillEnd (accepted s (encode i) steps) := by
    refine hw.imp (fun hq => ?_) fun hn => ⟨hst', (accepted_changed ..).trans h.stable, ?_⟩
    · cases encode i <;> exact hq
    · cases encode i <;> exact hn
  obtain ⟨t, h1, h2, h3, h4⟩ := runOp_ends' hinv hw'
  have hid : t.Idle := ⟨h4, h3⟩
  obtain ⟨hb, hg, _⟩ := reaches_resources hst' h2
  refine ⟨t, h1, ?_, hid, lasting_of ((reaches_fixed h2).trans ?_) (hb.trans ?_) (hg.trans ?_), reaches_steady hst' h2,
    fun hq => reaches_quiet ?_ h2⟩
  · exact (reaches_calm h2 hinv hw').unique hu hid.rest.2 hc
  · cases encode i <;> rfl
  · cases encode i <;> rfl
  · cases encode i <;> rfl
  · cases encode i <;> exact hq

/-- What an operation that answers a next state has done. -/
theorem exec_next {i : Instr} {s t : State} (h : exec i s = .next t) :
    s.cfg.Legal ∧ s.busy = false ∧ ∃ steps, exec i s = operate i steps s ∧
      Phase.after s.cfg.mode .start steps = some .ended ∧ Reaches (accepted s (encode i) steps) t ∧ Stopped t := by
  obtain ⟨steps, h1, h2⟩ := exec_operate i s
  have h3 := h1.symm.trans h
  unfold operate at h3
  split at h3
  · rename_i hl
    split at h3
    · cases h3
    · rename_i hb
      exact ⟨hl, by simpa using hb, steps, h1, h2, runOp_next h3⟩
  · cases h3

/-- What a step that answers a next state has done: a busy machine took a step of some agent and ran on until it
stopped; an idle one took another agent's step, or the host's submit, or passed over a move that nothing can enable. -/
theorem step_next {s t : State} (h : step s = .next t) : s.cfg.Legal ∧
    ((s.busy = true ∧ ∃ u, tick s = .moved u ∧ Reaches u t ∧ Stopped t) ∨
     (s.busy = false ∧ s.envMove = some t) ∨
     (s.busy = false ∧ s.envMove = none ∧ s.host = [] ∧ ∃ m ms, s.moves = m :: ms ∧ t = { s with moves := ms }) ∨
     (s.busy = false ∧ s.envMove = none ∧ ∃ ws rest, s.host = ws :: rest ∧
        ((∃ e, decode ws = .error e ∧ t = rejectDescriptor ws { s.dropStay with host := rest }) ∨
         ∃ i, decode ws = .ok i ∧ exec i { s.dropStay with host := rest } = .next t))) := by
  unfold step at h
  split at h
  · rename_i hl
    refine ⟨hl, ?_⟩
    split at h
    · rename_i hb
      unfold resume at h
      split at h
      · rename_i u hu
        exact .inl ⟨hb, u, hu, runOp_next h⟩
      · cases h
      · cases h
    · rename_i hb
      have hb' : s.busy = false := by simpa using hb
      unfold idleStep at h
      split at h
      · rename_i u hu
        cases h
        exact .inr (.inl ⟨hb', hu⟩)
      · rename_i hu
        split at h
        · rename_i hh
          split at h
          · rename_i m ms hm
            cases h
            exact .inr (.inr (.inl ⟨hb', hu, hh, m, ms, hm, rfl⟩))
          · split at h <;> cases h
        · rename_i ws rest hh
          refine .inr (.inr (.inr ⟨hb', hu, ws, rest, hh, ?_⟩))
          unfold submit at h
          split at h
          · rename_i i hi
            exact .inr ⟨i, hi, h⟩
          · rename_i e he
            cases h
            exact .inl ⟨e, he, rfl⟩
  · cases h

/-- What is at rest between operations, up to the outstanding block. -/
theorem settled_of_rest {s t : State} (h : s.Rest) (hf : s.faulted = false) (hcfg : t.cfg = s.cfg)
    (h0 : t.buf0 = s.buf0) (h1 : t.buf1 = s.buf1) (h2 : t.cursor0 = s.cursor0) (h3 : t.cursor1 = s.cursor1)
    (h4 : t.active = s.active) (h5 : t.streamOpen = s.streamOpen) : Settled t := by
  have hok : ActiveOk t := fun hm => by
    rw [h4]
    exact (h.1.blockingActive (by rw [← hcfg]; exact hm)).1
  have hb : ∀ i, t.buf i = s.buf i := fun i => by cases i <;> assumption
  have hc : ∀ i, t.cursor i = s.cursor i := fun i => by cases i <;> assumption
  rcases h.2 with hr | hr | hr
  · exact .inl ⟨by rw [h5]; exact hr.2.1, hok, by rw [h2]; exact hr.2.2.2.1, by rw [h3]; exact hr.2.2.2.2⟩
  · obtain ⟨_, ho, _, haw, hwr, _⟩ := hr
    have hsome := Memory.readBlock_isSome (s.buf s.active) (s.cursor s.active) 0 (fun i _ hi => hwr i (by omega))
    obtain ⟨bytes, hbytes⟩ := hsome
    exact .inr ⟨bytes, by rw [h5]; exact ho, hok, by rw [h4, hb, hc]; exact hbytes, by rw [h4, hc]; exact haw⟩
  · rw [hr.1] at hf
    cases hf

/-- The state of an idle machine with the operation's steps to run and its outstanding block completed. -/
theorem accepted_settled {s : State} {ws : List Word} {k : List EStep} (h : s.Idle) (hf : s.faulted = false) :
    Settled (accepted s ws k).calm := by
  cases ws <;> exact settled_of_rest h.rest.1 hf rfl rfl rfl rfl rfl rfl rfl

/-- An opened stream has room for a pixel. -/
theorem staged_room {s : State} (h : s.Idle) (hf : s.faulted = false) (ho : s.streamOpen = true) :
    s.staged.length + 3 ≤ s.cfg.capacity := by
  rcases h.rest.1.2 with hr | hr | hr
  · rw [hr.2.1] at ho
    cases ho
  · obtain ⟨_, _, hroom, _, hwr, _⟩ := hr
    have hsome := Memory.readBlock_isSome (s.buf s.active) (s.cursor s.active) 0 (fun i _ hi => hwr i (by omega))
    obtain ⟨bytes, hbytes⟩ := hsome
    have := Memory.readBlock_length hbytes
    simp only [State.staged, hbytes, Option.getD_some]
    omega
  · rw [hr.1] at hf
    cases hf

/-! ## Ends before any stream -/

theorem calmStep_end {s : State} {e : EStep} {k : List EStep} {st : Status} (hs : Calmed s) (hc : s.cont = e :: k)
    (h : engineDo e { s with cont := k } = .moved (State.endOp { s with cont := k } st)) :
    calmStep s = some (s.endOp st) :=
  calmStep_calmed hc h ⟨hs.inFlight, hs.xfer, hs.moves, hs.tail, hs.hostReads, rfl⟩

theorem calmStep_skip {s : State} {e : EStep} {k : List EStep} (hs : Calmed s) (hc : s.cont = e :: k)
    (h : engineDo e { s with cont := k } = .moved { s with cont := k }) : calmStep s = some { s with cont := k } :=
  calmStep_calmed hc h (hs.with_cont k)

theorem calmStep_header {q : State} {x y sc : Word} {base : BitVec 32} {k : List EStep} (hq : Calmed q)
    (hc : q.cont = .readHeader x y sc base :: k) : calmStep q = some { q with
      cont := bitmapSteps q.cfg x y sc base (memRead q.bmem base.toNat) (memRead q.bmem (base.toNat + 1)) ++ k } :=
  calmStep_calmed hc
    (by simp only [engineDo]; rw [readHeader_stable (s := { q with cont := k }) hq.stable]) (hq.with_cont _)

/-- The continuation ends the operation with `st` at once, having done nothing, where `faulted`, `stream_open`, the
configuration and the bitmap memory are as given: the steps before its end let the operation pass. -/
inductive EndsAt (faulted streamOpen : Bool) (c : Config) (b : Cells 16) (st : Status) : List EStep → Prop
  | fault (k : List EStep) (hf : faulted = true) (hst : st = .busTimeout) :
      EndsAt faulted streamOpen c b st (.faultCheck :: k)
  | pass {k : List EStep} (hf : faulted = false) (h : EndsAt faulted streamOpen c b st k) :
      EndsAt faulted streamOpen c b st (.faultCheck :: k)
  | bad (k : List EStep) : EndsAt faulted streamOpen c b st (.raiseIf true st :: k)
  | good (code : Status) {k : List EStep} (h : EndsAt faulted streamOpen c b st k) :
      EndsAt faulted streamOpen c b st (.raiseIf false code :: k)
  | stream (k : List EStep) (ho : streamOpen = false) (hst : st = .illegalOperation) :
      EndsAt faulted streamOpen c b st (.requireStream :: k)
  | close {k : List EStep} (ho : streamOpen = false) (h : EndsAt faulted streamOpen c b st k) :
      EndsAt faulted streamOpen c b st (.closeStream :: k)
  | header {x y sc : Word} {base : BitVec 32} {k : List EStep}
      (h : EndsAt faulted streamOpen c b st
        (bitmapSteps c x y sc base (memRead b base.toNat) (memRead b (base.toNat + 1)) ++ k)) :
      EndsAt faulted streamOpen c b st (.readHeader x y sc base :: k)
  | finish (k : List EStep) : EndsAt faulted streamOpen c b st (.finishOp st :: k)

theorem EndsAt.noWait {f o : Bool} {c : Config} {b : Cells 16} {st : Status} {k : List EStep} (h : EndsAt f o c b st k) :
    NoWait f o c b k := by
  induction h with
  | fault k hf _ => exact .fault k hf
  | pass _ _ ih => exact .pass ih
  | bad k => exact .bad _ k
  | good code _ ih => exact .good _ code ih
  | stream k ho _ => exact .stream k ho
  | close ho _ ih => exact .close ho ih
  | header _ ih => exact .header ih
  | finish k => exact .finish _ k

theorem EndsAt.run {f o : Bool} {c : Config} {b : Cells 16} {st : Status} {k : List EStep} (h : EndsAt f o c b st k) :
    ∀ q : State, Calmed q → q.cont = k → q.faulted = f → q.streamOpen = o → q.cfg = c → q.bmem = b →
      CalmReaches q (q.endOp st) := by
  induction h with
  | fault k hf hst =>
    subst hst hf
    intro q hq hc h1 h2 _ _
    exact .step (calmStep_end hq hc (by simp [engineDo, h1])) (.refl _)
  | pass hf _ ih =>
    subst hf
    intro q hq hc h1 h2 h3 h4
    exact .step (calmStep_skip hq hc (by simp [engineDo, h1])) (ih _ (hq.with_cont _) rfl h1 h2 h3 h4)
  | bad k =>
    intro q hq hc h1 h2 _ _
    exact .step (calmStep_end hq hc (by simp [engineDo])) (.refl _)
  | good code _ ih =>
    intro q hq hc h1 h2 h3 h4
    exact .step (calmStep_skip hq hc (by simp [engineDo])) (ih _ (hq.with_cont _) rfl h1 h2 h3 h4)
  | stream k ho hst =>
    subst hst ho
    intro q hq hc h1 h2 _ _
    exact .step (calmStep_end hq hc (by simp [engineDo, h2])) (.refl _)
  | close ho _ ih =>
    subst ho
    intro q hq hc h1 h2 h3 h4
    exact .step (calmStep_skip hq hc (by simp [engineDo, h2])) (ih _ (hq.with_cont _) rfl h1 h2 h3 h4)
  | header _ ih =>
    intro q hq hc h1 h2 h3 h4
    exact .step (calmStep_header hq hc) (ih _ (hq.with_cont _) (by rw [h3, h4]) h1 h2 h3 h4)
  | finish k =>
    intro q hq hc h1 h2 _ _
    exact .step (calmStep_end hq hc (by simp [engineDo])) (.refl _)

theorem accepted_endOp (s : State) (ws : List Word) (steps : List EStep) (st : Status) :
    (accepted s ws steps).calm.endOp st = (s.endOp st).calm := by
  cases ws <;> simp [accepted, State.latch, State.calm, State.settled, State.endOp]

/-- An operation that ends before any stream leaves everything but the status and the latch as it was (R205), whatever
the transport, the timeout and the host's reads do. -/
theorem operate_ends {i : Instr} {steps : List EStep} {s : State} {st : Status} (h : s.Idle) (hst : s.Steady)
    (hty : Phase.after s.cfg.mode .start steps = some .ended)
    (he : EndsAt s.faulted s.streamOpen s.cfg s.bmem st steps) :
    ∃ t, operate i steps s = .next t ∧ t.calm = (s.endOp st).calm ∧ t.Idle ∧ t.lasting = s.lasting ∧ t.Steady ∧
      (s.Quiet → t.Quiet) := by
  have hr := he.run (accepted s (encode i) steps).calm (accepted_calmed h) (by cases encode i <;> rfl)
    (by cases encode i <;> rfl) (by cases encode i <;> rfl) (by cases encode i <;> rfl) (by cases encode i <;> rfl)
  rw [accepted_endOp] at hr
  exact operate_calm h hty hst (.inr he.noWait) hr rfl

/-! ## Operations that run past their checks -/

/-- The checks at the front of `steps` let the operation pass to `k`. -/
inductive Passes (streamOpen : Bool) (c : Config) (b : Cells 16) (k : List EStep) : List EStep → Prop
  | refl : Passes streamOpen c b k k
  | pass {r : List EStep} (h : Passes streamOpen c b k r) : Passes streamOpen c b k (.faultCheck :: r)
  | good (code : Status) {r : List EStep} (h : Passes streamOpen c b k r) :
      Passes streamOpen c b k (.raiseIf false code :: r)
  | stream {r : List EStep} (ho : streamOpen = true) (h : Passes streamOpen c b k r) :
      Passes streamOpen c b k (.requireStream :: r)
  | header {x y sc : Word} {base : BitVec 32} {r : List EStep}
      (h : Passes streamOpen c b k
        (bitmapSteps c x y sc base (memRead b base.toNat) (memRead b (base.toNat + 1)) ++ r)) :
      Passes streamOpen c b k (.readHeader x y sc base :: r)

theorem Passes.run {o : Bool} {c : Config} {b : Cells 16} {k r : List EStep} (h : Passes o c b k r) :
    ∀ q : State, Calmed q → q.cont = r → q.faulted = false → q.streamOpen = o → q.cfg = c → q.bmem = b →
      CalmReaches q { q with cont := k } := by
  induction h with
  | refl =>
    intro q hq hc _ _ _ _
    rw [← hc]
    exact .refl _
  | pass _ ih =>
    intro q hq hc h1 h2 h3 h4
    exact .step (calmStep_skip hq hc (by simp [engineDo, h1])) (ih _ (hq.with_cont _) rfl h1 h2 h3 h4)
  | good code _ ih =>
    intro q hq hc h1 h2 h3 h4
    exact .step (calmStep_skip hq hc (by simp [engineDo])) (ih _ (hq.with_cont _) rfl h1 h2 h3 h4)
  | stream ho _ ih =>
    subst ho
    intro q hq hc h1 h2 h3 h4
    exact .step (calmStep_skip hq hc (by simp [engineDo, h2])) (ih _ (hq.with_cont _) rfl h1 h2 h3 h4)
  | header _ ih =>
    intro q hq hc h1 h2 h3 h4
    exact .step (calmStep_header hq hc) (ih _ (hq.with_cont _) (by rw [h3, h4]) h1 h2 h3 h4)

theorem accepted_cont (s : State) (ws : List Word) (steps k : List EStep) :
    ({ (accepted s ws steps).calm with cont := k } : State) = (accepted s ws k).calm := by cases ws <;> rfl

/-- The engine's own start of an accepted operation that passes its checks. -/
theorem accepted_passes {s : State} {ws : List Word} {steps k : List EStep} (h : s.Idle) (hf : s.faulted = false)
    (hp : Passes s.streamOpen s.cfg s.bmem k steps) :
    CalmReaches (accepted s ws steps).calm (accepted s ws k).calm := by
  have := hp.run (accepted s ws steps).calm (accepted_calmed h) (by cases ws <;> rfl) (by cases ws <;> exact hf)
    (by cases ws <;> rfl) (by cases ws <;> rfl) (by cases ws <;> rfl)
  rwa [accepted_cont] at this

theorem accepted_closeEvents (s : State) (ws : List Word) (k : List EStep) :
    (accepted s ws k).calm.closeEvents = s.closeEvents := by cases ws <;> rfl

theorem accepted_trace (s : State) (ws : List Word) (k : List EStep) : (accepted s ws k).calm.trace = s.settled := by
  cases ws <;> rfl

theorem accepted_win (s : State) (ws : List Word) (k : List EStep) : (accepted s ws k).calm.win = s.win := by
  cases ws <;> rfl

theorem accepted_active (s : State) (ws : List Word) (k : List EStep) : (accepted s ws k).calm.active = s.active := by
  cases ws <;> rfl

theorem accepted_buf (s : State) (ws : List Word) (k : List EStep) (i : BufIx) :
    (accepted s ws k).calm.buf i = s.buf i := by cases ws <;> cases i <;> rfl

theorem accepted_result {s u : State} {ws : List Word} {k : List EStep} (h : u.frame = (accepted s ws k).calm.frame) :
    u.result = s.result := by
  have : u.result = (accepted s ws k).calm.result := congrArg (fun f => f.2.2.2.2.2.2.2.2.1) h
  rw [this]
  cases ws <;> rfl

theorem accepted_faulted {s u : State} {ws : List Word} {k : List EStep} (h : u.frame = (accepted s ws k).calm.frame) :
    u.faulted = s.faulted := by
  have : u.faulted = (accepted s ws k).calm.faulted := congrArg (fun f => f.2.2.2.2.2.1) h
  rw [this]
  cases ws <;> rfl

/-- The run of the engine's remaining steps decides what the operation answers. -/
theorem operate_ran {i : Instr} {steps k : List EStep} {s u : State} {es : List Event} {m : Nat} {st : Status}
    (h : s.Idle) (hf : s.faulted = false) (hq : s.Quiet)
    (hty : Phase.after s.cfg.mode .start steps = some .ended) (hp : Passes s.streamOpen s.cfg s.bmem k steps)
    (hr : Ran (accepted s (encode i) k).calm u es m) (hu : u.cont = [.finishOp st]) :
    ∃ t, operate i steps s = .next t ∧ t.calm = u.endOp st ∧ t.Ready ∧ t.lasting = s.lasting := by
  have h1 := (accepted_passes (ws := encode i) h hf hp).trans (hr.reaches.trans (.step (calmStep_end hr.calmed hu rfl) (.refl _)))
  obtain ⟨t, h2, h3, h4, h5, _, h6⟩ := operate_calm h hty hq.2.2 (.inl hq) h1 rfl
  refine ⟨t, h2, h3, ⟨h4, ?_, h6 hq⟩, h5⟩
  have e1 : t.faulted = u.faulted := by simpa using congrArg State.faulted h3
  rw [e1, accepted_faulted hr.frame, hf]

theorem idle_closed {t : State} (h : t.Idle) (hf : t.faulted = false) (ho : t.streamOpen = false) :
    t.Closed := by
  rcases h.rest.1.2 with hr | hr | hr
  · exact hr
  · rw [hr.2.1] at ho
    cases ho
  · rw [hr.1] at hf
    cases hf

/-- A drawing operation that passes its checks draws its streams. -/
theorem operate_draws {i : Instr} {steps : List EStep} {s : State} {sts : List Plan} {st : Status} {m : Nat}
    (h : s.Ready) (hne : sts ≠ []) (hty : Phase.after s.cfg.mode .start steps = some .ended)
    (hp : Passes s.streamOpen s.cfg s.bmem (drawSteps s.cfg sts st) steps)
    (hm : ∀ x ∈ sts, min (3 * x.pixels.length) s.cfg.capacity ≤ m) :
    ∃ t, operate i steps s = .next t ∧ s.Drawn t (sts.map s.stream) st m ∧ t.Ready := by
  obtain ⟨hi, hf, hq⟩ := h
  have e0 : (accepted s (encode i) (drawSteps s.cfg sts st)).calm.cfg = s.cfg :=
    accepted_cfg s (encode i) (drawSteps s.cfg sts st)
  obtain ⟨u, h1, h2, h3, h4⟩ := run_streams (m := m) (k := [.finishOp st]) hne
    (accepted_calmed (ws := encode i) (steps := drawSteps s.cfg sts st) hi)
    (accepted_settled hi hf) (by rw [e0]; exact hi.legal.1) (by rw [e0]; exact hm)
    (by rw [e0]; rfl)
  have e1 : (accepted s (encode i) (drawSteps s.cfg sts st)).calm.stream = s.stream := by cases encode i <;> rfl
  rw [e0, accepted_closeEvents, e1] at h1
  rw [e1] at h3
  obtain ⟨t, h5, h6, h7, h8⟩ := operate_ran hi hf hq hty hp h1 h2
  have ho : t.streamOpen = false := by
    have : t.streamOpen = u.streamOpen := by simpa using congrArg State.streamOpen h6
    rw [this, h4.isOpen]
  have hcl := idle_closed h7.1 h7.2.1 ho
  have htr : t.settled = u.trace := by simpa using congrArg State.trace h6
  have hu : u.trace = s.settled ++ s.closeEvents ++ (sts.map s.stream).flatMap (streamEvents s.cfg) := by
    rw [h1.trace, List.append_assoc, accepted_trace]
  refine ⟨t, h5, ?_, h7⟩
  constructor
  · simpa using congrArg State.status h6
  · rw [← hu, ← htr, State.settled_of_idle hcl.2.2.1]
  · rw [← accepted_win s (encode i) (drawSteps s.cfg sts st), ← h3]
    simpa using congrArg State.win h6
  · rw [show t.active = u.active by simpa using congrArg State.active h6, h1.active, e0, accepted_active]
  · exact h7.1.2
  · exact h7.1.rest.2
  · exact h7.2.1
  · exact ho
  · exact hcl.2.2.1
  · have := h7.1.rest.1.1.xferIff
    rw [hcl.2.2.1] at this
    simpa using this
  · exact hcl.2.2.2.1
  · exact hcl.2.2.2.2
  · rw [show t.result = u.result by simpa using congrArg State.result h6, accepted_result h1.frame]
  · exact congrArg (·.1) h8
  · exact congrArg (·.2.1) h8
  · exact congrArg (·.2.2.1) h8
  · exact congrArg (·.2.2.2.1) h8
  · intro j a ha
    have e1 : t.buf j = u.buf j := by
      cases j
      · simpa [State.buf] using congrArg State.buf0 h6
      · simpa [State.buf] using congrArg State.buf1 h6
    rw [e1, h1.others j a ha, accepted_buf]

/-! ## CONVERT -/

/-- CONVERT completes in every idle state, whatever the transport, the timeout and the host's reads do. -/
theorem operate_convert {i : Instr} {v : BitVec 24} {s : State} (h : s.Idle) (hst : s.Steady) :
    ∃ t, operate i [.writeResult v, .finishOp .ok] s = .next t ∧
      t.calm = ({ s with result := v } : State).calm.endOp .ok ∧ t.Idle ∧ t.lasting = s.lasting ∧ t.Steady ∧ (s.Quiet → t.Quiet) := by
  have hch : ∀ k, (accepted s (encode i) k).calm.changed = [] := fun k => (accepted_changed s (encode i) k).trans h.stable
  have h1 : calmStep (accepted s (encode i) [.writeResult v, .finishOp .ok]).calm =
      some { (accepted s (encode i) [.finishOp .ok]).calm with result := v } := by
    refine (calmStep_calmed (k := [.finishOp .ok]) (e := .writeResult v) (by cases encode i <;> rfl) rfl ?_).trans ?_
    · exact ⟨rfl, rfl, rfl, rfl, rfl, hch [.writeResult v, .finishOp .ok]⟩
    · cases encode i <;> rfl
  have h2 : calmStep ({ (accepted s (encode i) [.finishOp .ok]).calm with result := v } : State) =
      some (({ s with result := v } : State).calm.endOp .ok) := by
    refine (calmStep_end (k := []) (st := .ok) ⟨rfl, rfl, rfl, rfl, rfl, by exact hch [.finishOp .ok]⟩ (by cases encode i <;> rfl) rfl).trans ?_
    cases encode i <;> rfl
  exact operate_calm h rfl hst (.inr (.result _ (.finish _ _))) (.step h1 (.step h2 (.refl _))) rfl

end Sys2Proof.Machine
end

