-- ==== Sys2Proof/Laws/Drawing.lean ====
section
/-! SUPPORT. What the operations compute from their operands, item by item (43_rasterizers.md), and how an operation's
checks and its end read in the terms of Safety.lean. -/

namespace Sys2Proof.Machine

/-! ## Checks -/

theorem toNat_ne_zero {w : Word} (h : w ≠ 0) : w.toNat ≠ 0 := fun hh => h (BitVec.eq_of_toNat_eq hh)

theorem offPanel_false {c : Config} {a b : Nat} (h1 : a < c.panelW) (h2 : b < c.panelH) : offPanel c a b = false := by
  simp only [offPanel, Bool.or_eq_false_iff, decide_eq_false_iff_not]
  omega

theorem offPanel_true {c : Config} {a b : Nat} (h : c.panelW ≤ a ∨ c.panelH ≤ b) : offPanel c a b = true := by
  simpa [offPanel] using h

section
variable {f o : Bool} {c : Config} {b : Cells 16} {k rest : List EStep} {st code : Status} {bad : Bool}

/-- A check that lets the operation pass. -/
theorem passes_checked (hb : bad = false) (h : Passes o c b k rest) : Passes o c b k (checked bad code rest) := by
  subst hb
  exact .good code h

/-- A check that ends the operation. -/
theorem ends_checked_bad (hb : bad = true) : EndsAt f o c b st (checked bad st rest) := by
  subst hb
  exact .bad _

/-- A check before the one that ends the operation. -/
theorem ends_checked (hb : bad = false) (h : EndsAt f o c b st rest) : EndsAt f o c b st (checked bad code rest) := by
  subst hb
  exact .good _ h

end

/-! ## Windows and pixels -/

theorem bound_min (a b : Word) : bound (min a.toNat b.toNat) = if a.toNat ≤ b.toNat then a else b := by
  unfold bound
  split
  · rw [Nat.min_eq_left ‹_›, BitVec.ofNat_toNat]
    simp
  · rw [Nat.min_eq_right (by omega), BitVec.ofNat_toNat]
    simp

theorem bound_max (a b : Word) : bound (max a.toNat b.toNat) = if a.toNat ≤ b.toNat then b else a := by
  unfold bound
  split
  · rw [Nat.max_eq_right ‹_›, BitVec.ofNat_toNat]
    simp
  · rw [Nat.max_eq_left (by omega), BitVec.ofNat_toNat]
    simp

/-- The fill's pixels are all the same. -/
theorem fillOf_eq {α : Type} (x1 y1 x2 y2 : Nat) (a : α) : fillOf x1 y1 x2 y2 a =
    ⟨normWindow x1 y1 x2 y2, List.replicate ((max x1 x2 - min x1 x2 + 1) * (max y1 y2 - min y1 y2 + 1)) a⟩ := by
  have h : (fillOf x1 y1 x2 y2 a).pixels =
      List.replicate ((max x1 x2 - min x1 x2 + 1) * (max y1 y2 - min y1 y2 + 1)) a := by
    rw [List.eq_replicate_iff]
    refine ⟨by rw [fillOf_length, Nat.mul_comm], fun b hb => ?_⟩
    simp only [fillOf, List.mem_flatMap, List.mem_map] at hb
    obtain ⟨_, _, _, _, h⟩ := hb
    exact h.symm
  rw [← h]
  rfl

/-! ## What the plans stand for -/

theorem glyphCells_map {α β : Type} (g : α → β) (f : Nat → Nat → α) :
    (glyphCells f).map g = glyphCells fun i j => g (f i j) := by
  simp only [glyphCells, List.map_flatMap, List.map_map]
  rfl

theorem pixel_glyphInk (s : State) (fg bg : Word) (ch : Byte) (i j : Nat) :
    s.pixel (glyphInk fg bg ch i j) = glyphPixel s.cfg s.glyphs fg bg ch i j := rfl

theorem stream_fill (s : State) (x1 y1 x2 y2 : Nat) (p : Ink) :
    s.stream (fillOf x1 y1 x2 y2 p) = fillOf x1 y1 x2 y2 (s.pixel p) := by
  rw [fillOf_eq, fillOf_eq]
  show StreamOf.mk _ _ = _
  rw [List.map_replicate]
  rfl

theorem stream_fastGlyph (s : State) (x y : Nat) (fg bg : Word) (ch : Byte) :
    s.stream (fastGlyphOf x y (glyphInk fg bg ch)) = fastGlyphStream s.cfg s.glyphs x y ch fg bg := by
  show StreamOf.mk _ (List.map _ _) = _
  rw [fastGlyphOf, glyphCells_map]
  rfl

theorem streams_glyph (s : State) (x y z : Nat) (fg bg : Word) (ch : Byte) :
    (glyphOf x y z (glyphInk fg bg ch)).map s.stream = glyphStreams s.cfg s.glyphs x y ch fg bg z := by
  rw [glyphOf, glyphCells_map]
  simp only [stream_fill, pixel_glyphInk]
  rfl

theorem streams_string (s : State) (x y z : Nat) (fg bg : Word) : ∀ (chs : List Byte) (k : Nat),
    (stringOf x y z (glyphInk fg bg) k chs).map s.stream = stringStreams s.cfg s.glyphs x y fg bg z k chs
  | [], _ => rfl
  | ch :: chs, k => by
    rw [stringOf, List.map_append, streams_glyph, streams_string s x y z fg bg chs (k + 1)]
    rfl

theorem streams_fastString (s : State) (x y : Nat) (fg bg : Word) : ∀ (chs : List Byte) (k : Nat),
    (fastStringOf x y (glyphInk fg bg) k chs).map s.stream = fastStringStreams s.cfg s.glyphs x y fg bg k chs
  | [], _ => rfl
  | ch :: chs, k => by
    rw [fastStringOf, List.map_cons, stream_fastGlyph, streams_fastString s x y fg bg chs (k + 1)]
    rfl

theorem stream_bitmap (s : State) (x y base wd ht z : Nat) :
    s.stream (bitmapOf x y base wd ht z .word) = bitmapStream s.bmem x y base wd ht z := by
  show StreamOf.mk _ (List.map _ _) = _
  simp only [bitmapOf, List.map_flatMap, List.map_map]
  rfl

/-- Item number `i` of part number `j`, of parts of one length. -/
theorem flatMap_range_get {α : Type} {f : Nat → List α} {m : Nat} (hf : ∀ k, (f k).length = m) :
    ∀ n i j, j < n → i < m → ((List.range n).flatMap f)[m * j + i]? = (f j)[i]?
  | 0, i, j, hj, _ => absurd hj (Nat.not_lt_zero _)
  | n + 1, i, j, hj, hi => by
    rw [List.range_succ, List.flatMap_append]
    have hlen : ((List.range n).flatMap f).length = m * n := by rw [flatMap_range_length n hf, Nat.mul_comm]
    by_cases h : j < n
    · rw [List.getElem?_append_left, flatMap_range_get hf n i j h hi]
      rw [hlen]
      calc m * j + i < m * j + m := by omega
        _ = m * (j + 1) := by ring
        _ ≤ m * n := Nat.mul_le_mul_left _ h
    · obtain rfl : j = n := by omega
      rw [List.getElem?_append_right (by rw [hlen]; omega), hlen]
      simp

/-! ## Glyphs and strings -/

theorem glyphStatus_eq (c : Config) (chs : List Byte) : glyphStatus c chs =
    if ∀ ch ∈ chs, 32 ≤ ch.toNat ∧ ch.toNat ≤ c.glyphLast then .ok else .unsupportedGlyph := by
  have h : chs.all (supported c) = true ↔ ∀ ch ∈ chs, 32 ≤ ch.toNat ∧ ch.toNat ≤ c.glyphLast := by
    rw [List.all_eq_true]
    exact forall₂_congr fun ch _ => supported_iff c ch
  unfold glyphStatus
  simp only [h]

/-- `glyph_bit` (R157, R158). -/
theorem glyphBit_iff (c : Config) (g : Memory) (ch : Byte) (i j : Nat) : glyphBit c g ch i j = true ↔
    32 ≤ ch.toNat ∧ ch.toNat ≤ c.glyphLast ∧
      (glyphRow g ch j).getLsbD (if c.glyphMsbLeft then 7 - i else i) = true := by
  simp only [glyphBit, rowBit, supported, Config.glyphFirst]
  cases c.glyphMsbLeft <;> by_cases h1 : 32 ≤ ch.toNat <;> by_cases h2 : ch.toNat ≤ c.glyphLast <;> simp [h1, h2]

theorem glyphCells_get {α : Type} (f : Nat → Nat → α) {i j : Nat} (hi : i < 8) (hj : j < 13) :
    (glyphCells f)[8 * j + i]? = some (f i j) := by
  unfold glyphCells Config.glyphH
  rw [flatMap_range_get (m := 8) (by intro; simp [Config.glyphW]) 13 i j hj hi]
  simp [Config.glyphW, hi]

/-- The stream of source bit `(i, j)` of a glyph. -/
theorem glyphStreams_get (c : Config) (g : Memory) (x y : Nat) (ch : Byte) (fg bg : Word) {s i j : Nat} (hs : s ≠ 0)
    (hi : i < 8) (hj : j < 13) : (glyphStreams c g x y ch fg bg s)[8 * j + i]? =
      some ⟨normWindow (x + i * s) (y + j * s) (x + i * s + s - 1) (y + j * s + s - 1),
        List.replicate (s * s) (convertColor (glyphColor c g ch fg bg i j))⟩ := by
  unfold glyphStreams glyphOf
  rw [glyphCells_get _ hi hj, fillOf_eq]
  congr 3
  congr 1 <;> omega

theorem glyphOf_pixels {α : Type} {x y s : Nat} {f : Nat → Nat → α} (hs : s ≠ 0) :
    ∀ st ∈ glyphOf x y s f, st.pixels.length = s * s := by
  intro st hst
  simp only [glyphOf, glyphCells, List.mem_flatMap, List.mem_map] at hst
  obtain ⟨j, _, i, _, rfl⟩ := hst
  simp only [fillOf_length]
  congr 1 <;> omega

/-- The streams of a string, character by character. -/
theorem stringOf_eq {α : Type} (x y s : Nat) (f : Byte → Nat → Nat → α) : ∀ (chs : List Byte) (k : Nat),
    stringOf x y s f k chs = (List.range chs.length).flatMap fun j =>
      glyphOf (x + 9 * s * (k + j)) y s (f (chs.getD j 0))
  | [], k => rfl
  | ch :: cs, k => by
    rw [stringOf, stringOf_eq x y s f cs (k + 1), List.length_cons, List.range_succ_eq_map, List.flatMap_cons,
      List.flatMap_map]
    congr 1
    apply List.flatMap_congr
    intro j _
    rw [show k + 1 + j = k + (j + 1) by omega]
    simp

/-- The streams of a fast string, character by character. -/
theorem fastStringOf_eq {α : Type} (x y : Nat) (f : Byte → Nat → Nat → α) : ∀ (chs : List Byte) (k : Nat),
    fastStringOf x y f k chs = (List.range chs.length).map fun j =>
      fastGlyphOf (x + 9 * (k + j)) y (f (chs.getD j 0))
  | [], k => rfl
  | ch :: cs, k => by
    rw [fastStringOf, fastStringOf_eq x y f cs (k + 1), List.length_cons, List.range_succ_eq_map, List.map_cons,
      List.map_map]
    congr 1
    apply List.map_congr_left
    intro j _
    simp only [Function.comp]
    rw [show k + 1 + j = k + (j + 1) by omega]
    simp

/-! ## Bitmaps -/

/-- Pixel number `row * (w*z) + col` of a bitmap drawn at scale `z`. -/
theorem bitmapOf_get {α : Type} (x y base w h z : Nat) (f : Nat → α) {row col : Nat} (hr : row < h * z) (hc : col < w * z) :
    (bitmapOf x y base w h z f).pixels[row * (w * z) + col]? =
      some (f (base + 2 + row / z * w + col / z)) := by
  have hz : 0 < z := Nat.pos_of_ne_zero fun h0 => by subst h0; simp at hr
  unfold bitmapOf
  have l1 : ∀ r c : Nat, ((List.range z).map fun _ => f (base + 2 + r * w + c)).length = z := by
    simp
  have l2 : ∀ r : Nat, ((List.range w).flatMap fun c => (List.range z).map fun _ =>
      f (base + 2 + r * w + c)).length = w * z := fun r => flatMap_range_length w (l1 r)
  have l3 : ∀ r : Nat, ((List.range z).flatMap fun _ => (List.range w).flatMap fun c => (List.range z).map fun _ =>
      f (base + 2 + r * w + c)).length = z * (w * z) :=
    fun r => flatMap_range_length z fun _ => l2 r
  have e : row * (w * z) + col = z * (w * z) * (row / z) + (w * z * (row % z) + col) := by
    conv_lhs => rw [← Nat.div_add_mod row z]
    ring
  rw [e, flatMap_range_get l3 h _ (row / z) (Nat.div_lt_of_lt_mul (by rwa [Nat.mul_comm] at hr)) ?_,
    flatMap_range_get (fun _ => l2 (row / z)) z col (row % z) (Nat.mod_lt _ hz) hc]
  · have e2 : col = z * (col / z) + col % z := (Nat.div_add_mod col z).symm
    conv_lhs => rw [e2]
    rw [flatMap_range_get (l1 (row / z)) w (col % z) (col / z) (Nat.div_lt_of_lt_mul (by rwa [Nat.mul_comm] at hc))
      (Nat.mod_lt _ hz)]
    simp [Nat.mod_lt _ hz]
  · have := Nat.mod_lt row hz
    calc w * z * (row % z) + col < w * z * (row % z) + w * z := by omega
      _ = w * z * (row % z + 1) := by ring
      _ ≤ w * z * z := Nat.mul_le_mul_left _ this
      _ = z * (w * z) := by ring

/-! ## The end of an operation -/

/-- What `operate_ends` answers is a precise end (R205). -/
theorem endsPrecisely_of_calm {s t : State} {st : Status} (hs : s.Idle) (h : t.calm = (s.endOp st).calm) :
    s.EndsPrecisely t st := by
  refine ⟨by simpa using congrArg State.status h, ?_⟩
  rw [h]
  have hc := hs.rest.2
  have hb := hs.2
  have hch := hs.stable
  cases s
  simp only at hc hb hch
  subst hc hb hch
  rfl

/-- The end state's buffers and cursors are those of the engine's own run. -/
theorem buf_of_calm {t u : State} {st : Status} (h : t.calm = u.endOp st) (i : BufIx) : t.buf i = u.buf i := by
  cases i
  · simpa [State.buf] using congrArg State.buf0 h
  · simpa [State.buf] using congrArg State.buf1 h

theorem cursor_of_calm {t u : State} {st : Status} (h : t.calm = u.endOp st) (i : BufIx) : t.cursor i = u.cursor i := by
  cases i
  · simpa [State.cursor] using congrArg State.cursor0 h
  · simpa [State.cursor] using congrArg State.cursor1 h

theorem staged_of_calm {t u : State} {st : Status} {bytes : List Byte} (hi : InStream u bytes)
    (h : t.calm = u.endOp st) : t.staged = bytes := by
  have ha : t.active = u.active := by simpa using congrArg State.active h
  unfold State.staged
  rw [ha, buf_of_calm h, cursor_of_calm h, hi.staged]
  rfl

theorem kept_of_ran {s t u : State} {i : Instr} {k : List EStep} {st : Status} {es : List Event} {m : Nat}
    (hr : Ran (accepted s (encode i) k).calm u es m) (h : t.calm = u.endOp st) (hready : t.Ready)
    (hf : s.faulted = false) (hfix : t.lasting = s.lasting) : s.Kept t := by
  constructor
  · rw [show t.result = u.result by simpa using congrArg State.result h, accepted_result hr.frame]
  · rw [hready.2.1, hf]
  · exact congrArg (·.1) hfix
  · exact congrArg (·.2.1) hfix
  · exact congrArg (·.2.2.1) hfix
  · exact congrArg (·.2.2.2.1) hfix
  · exact congrArg (·.2.2.2.2) hfix
  · exact hready.1.2
  · exact hready.1.rest.2

theorem bufsKept_of_ran {s t u : State} {i : Instr} {k : List EStep} {st : Status} {es : List Event}
    (hr : Ran (accepted s (encode i) k).calm u es 0) (h : t.calm = u.endOp st) : s.BufsKept t := by
  intro j a
  rw [buf_of_calm h, hr.others j a (Nat.zero_le _), accepted_buf]

/-- An accepted operation stands in the open stream with the staged bytes. -/
theorem inStream_of_open {s : State} (hi : s.Idle) (hf : s.faulted = false) (ho : s.streamOpen = true) {ws : List Word}
    {k : List EStep} : InStream (accepted s ws k).calm s.staged := by
  rcases accepted_settled (ws := ws) (k := k) hi hf with h | ⟨bytes, h⟩
  · have := h.isOpen
    have e : (accepted s ws k).calm.streamOpen = s.streamOpen := by cases ws <;> rfl
    rw [e, ho] at this
    cases this
  · have : s.staged = bytes := by
      have h2 := h.staged
      unfold State.staged
      have : Memory.readBlock (s.buf s.active) 0 (s.cursor s.active) = some bytes := by
        rw [← h2]
        cases ws <;> rfl
      rw [this]
      rfl
    rw [this]
    exact h

end Sys2Proof.Machine
end

