-- ==== Sys2Proof/Laws/PerInstr.lean ====
section
/-! SUPPORT. What holds of each instruction as syntax, one lemma per constructor: its descriptor starts with its own
header, and has the length the decoder computes from it (30_encoding.md R82, R85, R90). -/

namespace Sys2Proof.Laws

theorem header_reserved (op : Op) : hi8 (header op) = 0 := by cases op <;> decide

theorem opOf_header (op : Op) : opOf (lo8 (header op)) = some op := by cases op <;> decide

theorem count_toNat {chs : List Byte} (h : stringFits chs = true) : (BitVec.ofNat 16 chs.length).toNat = chs.length := by
  simp only [stringFits, decide_eq_true_eq] at h
  rw [BitVec.toNat_ofNat]
  exact Nat.mod_eq_of_lt (by omega)

namespace Encoding

/-- The descriptor's header selects the operation, has no reserved bit set, and its length is `L`. -/
def Statement (i : Instr) : Prop :=
  i.wellFormed = true →
    (encode i).head? = some (header i.op) ∧ hi8 (header i.op) = 0 ∧ opOf (lo8 (header i.op)) = some i.op ∧
      descriptorLength i.op (encode i) = some (encode i).length

theorem drawPixel (x y c : Word) : Statement (.drawPixel x y c) := fun _ => ⟨rfl, header_reserved _, opOf_header _, rfl⟩

theorem fillRect (x1 y1 x2 y2 c : Word) : Statement (.fillRect x1 y1 x2 y2 c) := fun _ =>
  ⟨rfl, header_reserved _, opOf_header _, rfl⟩

theorem drawGlyph (x y : Word) (ch : Byte) (fg bg s : Word) : Statement (.drawGlyph x y ch fg bg s) := fun _ =>
  ⟨rfl, header_reserved _, opOf_header _, rfl⟩

theorem drawFastGlyph (x y : Word) (ch : Byte) (fg bg : Word) : Statement (.drawFastGlyph x y ch fg bg) := fun _ =>
  ⟨rfl, header_reserved _, opOf_header _, rfl⟩

theorem drawString (x y fg bg s : Word) (chs : List Byte) : Statement (.drawString x y fg bg s chs) := fun h => by
  refine ⟨rfl, header_reserved _, opOf_header _, ?_⟩
  have hc : (BitVec.ofNat 16 chs.length).toNat = chs.length := count_toNat h
  simp [descriptorLength, encode, operandWords, Instr.op, hc, -BitVec.toNat_ofNat]
  omega

theorem drawFastString (x y fg bg : Word) (chs : List Byte) : Statement (.drawFastString x y fg bg chs) := fun h => by
  refine ⟨rfl, header_reserved _, opOf_header _, ?_⟩
  have hc : (BitVec.ofNat 16 chs.length).toNat = chs.length := count_toNat h
  simp [descriptorLength, encode, operandWords, Instr.op, hc, -BitVec.toNat_ofNat]
  omega

theorem drawBitmap (x y s : Word) (base : BitVec 32) : Statement (.drawBitmap x y s base) := fun _ =>
  ⟨rfl, header_reserved _, opOf_header _, rfl⟩

theorem convert (c : Word) : Statement (.convert c) := fun _ => ⟨rfl, header_reserved _, opOf_header _, rfl⟩

theorem setWindow (x1 y1 x2 y2 : Word) : Statement (.setWindow x1 y1 x2 y2) := fun _ =>
  ⟨rfl, header_reserved _, opOf_header _, rfl⟩

theorem pushPixel (c : Word) : Statement (.pushPixel c) := fun _ => ⟨rfl, header_reserved _, opOf_header _, rfl⟩

theorem finish : Statement .finish := fun _ => ⟨rfl, header_reserved _, opOf_header _, rfl⟩

end Encoding

end Sys2Proof.Laws
end

