-- ==== Sys2Proof/Laws/Receiver.lean ====
section
/-! SUPPORT. What the reference receiver makes of a window, of pixel bytes and of pixels. -/

namespace Sys2Proof.Machine

theorem pairOf_hi_lo (v : Word) : pairOf (hi8 v) (lo8 v) = v.toNat := by
  have : (hi8 v ++ lo8 v : Word) = v := by
    unfold hi8 lo8
    ext i hi
    simp only [BitVec.getElem_append, BitVec.getElem_extractLsb']
    split
    · simp [BitVec.getLsbD_eq_getElem hi]
    · rw [show 8 + (i - 8) = i by omega, BitVec.getLsbD_eq_getElem hi]
  rw [pairOf, this]

namespace Receiver

/-- After a window the receiver stands at its first cell. -/
theorem run_window {c : Config} (hc : CommandsDistinct c) (r : Receiver) (w : Window) :
    r.run c (windowEvents c w) =
      { r with x1 := w.x1.toNat, y1 := w.y1.toNat, x2 := w.x2.toNat, y2 := w.y2.toNat, cx := w.x1.toNat, cy := w.y1.toNat, expect := .pixels [] } := by
  obtain ⟨h1, h2, h3⟩ := hc
  simp [run, windowEvents, event, byte, pairOf_hi_lo, h1.symm, h2.symm, h3.symm]

theorem run_append (c : Config) (r : Receiver) (es fs : List Event) : r.run c (es ++ fs) = (r.run c es).run c fs := by
  simp [run]

/-- Events that carry no command and no single data byte are their blocks' bytes. -/
theorem run_payloads (c : Config) : ∀ (es : List Event) (r : Receiver),
    (∀ e ∈ es, ∀ b, e ≠ .cmd b ∧ e ≠ .data b) → r.run c es = (es.flatMap Event.payload).foldl (byte c) r
  | [], _, _ => rfl
  | e :: es, r, h => by
    have h1 := run_payloads c es (r.event c e) fun x hx => h x (List.mem_cons_of_mem _ hx)
    have h2 := h e List.mem_cons_self
    rw [List.flatMap_cons, List.foldl_append]
    simp only [run, List.foldl_cons] at h1 ⊢
    rw [h1]
    cases e with
    | cmd b => exact absurd rfl (h2 b).1
    | data b => exact absurd rfl (h2 b).2
    | _ => rfl

theorem pixel_expect (c : Config) (r : Receiver) (d : DeviceColor) : (r.pixel c d).expect = r.expect := by
  unfold pixel
  split
  · dsimp only
    split <;> rfl
  · rfl

/-- The bytes of pixels, from a group boundary on, are the pixels. -/
theorem foldl_bytes (c : Config) : ∀ (ds : List DeviceColor) (r : Receiver), r.expect = .pixels [] →
    (ds.flatMap DeviceColor.bytes).foldl (byte c) r = ds.foldl (pixel c) r
  | [], _, _ => rfl
  | d :: ds, r, h => by
    have h1 : d.bytes.foldl (byte c) r = r.pixel c d := by
      have e1 : byte c r d.r = { r with expect := .pixels [d.r] } := by simp [byte, h]
      have e2 : byte c { r with expect := .pixels [d.r] } d.g = { r with expect := .pixels [d.r, d.g] } := by
        simp [byte]
      have e3 : byte c { r with expect := .pixels [d.r, d.g] } d.b = r.pixel c d := by
        simp only [byte, pixel]
        split
        · split <;> simp [h]
        · simp [h]
      simp only [DeviceColor.bytes, List.foldl_cons, List.foldl_nil, e1, e2, e3]
    rw [List.flatMap_cons, List.foldl_append, List.foldl_cons, h1]
    exact foldl_bytes c ds _ ((pixel_expect c r d).trans h)

/-- The receiver stands at cell number `n` of a window of `w` columns and `h` rows inside the panel. -/
structure Stands (c : Config) (r : Receiver) (w h n : Nat) : Prop where
  wide : r.x1 + w = r.x2 + 1
  high : r.y1 + h = r.y2 + 1
  insideX : r.x2 < c.panelW
  insideY : r.y2 < c.panelH
  column : r.cx = r.x1 + n % w
  row : r.cy = r.y1 + n / w

theorem Stands.pixel {c : Config} {r : Receiver} {w h n : Nat} (hs : Stands c r w h n) (hw : 0 < w) (hn : n < w * h)
    (d : DeviceColor) : Stands c (r.pixel c d) w h (n + 1) ∧
      (r.pixel c d).panel = ((r.x1 + n % w, r.y1 + n / w), d) :: r.panel ∧
      (r.pixel c d).meaningless = r.meaningless ∧ (r.pixel c d).x1 = r.x1 ∧ (r.pixel c d).y1 = r.y1 := by
  obtain ⟨h1, h2, h3, h4, h5, h6⟩ := hs
  have hdiv : n / w < h := Nat.div_lt_of_lt_mul hn
  have hmod := Nat.mod_lt n hw
  have hda := Nat.div_add_mod n w
  have hok : r.cy ≤ r.y2 ∧ r.x2 < c.panelW ∧ r.y2 < c.panelH := ⟨by omega, h3, h4⟩
  unfold Receiver.pixel
  rw [if_pos hok]
  dsimp only
  by_cases hl : r.x2 < r.cx + 1
  · rw [if_pos hl]
    have hm : n % w = w - 1 := by omega
    have e : n + 1 = w * (n / w + 1) := by rw [Nat.mul_add, Nat.mul_one]; omega
    refine ⟨⟨h1, h2, h3, h4, ?_, ?_⟩, by rw [h5, h6], rfl, rfl, rfl⟩
    · rw [e, Nat.mul_mod_right]
      rfl
    · rw [e, Nat.mul_div_cancel_left _ hw]
      show r.cy + 1 = r.y1 + (n / w + 1)
      omega
  · rw [if_neg hl]
    have hm : n % w + 1 < w := by omega
    have e : n + 1 = w * (n / w) + (n % w + 1) := by omega
    refine ⟨⟨h1, h2, h3, h4, ?_, ?_⟩, by rw [h5, h6], rfl, rfl, rfl⟩
    · rw [e, Nat.mul_add_mod, Nat.mod_eq_of_lt hm]
      dsimp only
      omega
    · rw [e, Nat.mul_add_div hw, Nat.div_eq_of_lt hm]
      dsimp only
      omega

theorem at_cons (r : Receiver) (p q x y : Nat) (d : DeviceColor) (rest : List ((Nat × Nat) × DeviceColor))
    (h : r.panel = ((p, q), d) :: rest) : r.at x y =
      if x = p ∧ y = q then some d else (rest.find? fun e => e.1 = (x, y)).map (·.2) := by
  unfold Receiver.at
  rw [h, List.find?_cons]
  by_cases e : x = p ∧ y = q
  · obtain ⟨rfl, rfl⟩ := e
    simp
  · rw [if_neg e]
    have : ¬ (p, q) = (x, y) := fun he => e ⟨(congrArg Prod.fst he).symm, (congrArg Prod.snd he).symm⟩
    simp [this]

/-- Pixels land in row-major order from the cell the receiver stands at, and nowhere else. -/
theorem foldl_pixels (c : Config) {w h : Nat} (hw : 0 < w) : ∀ (ds : List DeviceColor) (r : Receiver) (n : Nat),
    Stands c r w h n → n + ds.length ≤ w * h →
    (ds.foldl (Receiver.pixel c) r).meaningless = r.meaningless ∧
    ∀ x y, (ds.foldl (Receiver.pixel c) r).at x y =
      if r.x1 ≤ x ∧ x < r.x1 + w ∧ r.y1 ≤ y ∧ n ≤ (y - r.y1) * w + (x - r.x1) ∧
          (y - r.y1) * w + (x - r.x1) < n + ds.length then
        ds[(y - r.y1) * w + (x - r.x1) - n]?
      else r.at x y
  | [], r, n, _, _ => by
    refine ⟨rfl, fun x y => ?_⟩
    rw [if_neg (by simp only [List.length_nil]; omega)]
    rfl
  | d :: ds, r, n, hs, hn => by
    simp only [List.length_cons] at hn
    obtain ⟨h1, h2, h3, h4, h5⟩ := hs.pixel hw (by omega) d
    obtain ⟨ih1, ih2⟩ := foldl_pixels c hw ds (r.pixel c d) (n + 1) h1 (by omega)
    rw [List.foldl_cons]
    refine ⟨ih1.trans h3, fun x y => ?_⟩
    rw [ih2, h4, h5, at_cons _ _ _ x y d r.panel h2]
    have hmod := Nat.mod_lt n hw
    have hda := Nat.div_add_mod n w
    by_cases hxy : x = r.x1 + n % w ∧ y = r.y1 + n / w
    · obtain ⟨rfl, rfl⟩ := hxy
      have e : (r.y1 + n / w - r.y1) * w + (r.x1 + n % w - r.x1) = n := by
        rw [Nat.add_sub_cancel_left, Nat.add_sub_cancel_left, Nat.mul_comm]
        omega
      rw [e, if_neg (by omega), if_pos ⟨rfl, rfl⟩,
        if_pos ⟨Nat.le_add_right _ _, by omega, Nat.le_add_right _ _, Nat.le_refl _, by simp⟩]
      simp
    · rw [if_neg hxy]
      have hne : ∀ _ : r.x1 ≤ x ∧ x < r.x1 + w ∧ r.y1 ≤ y, (y - r.y1) * w + (x - r.x1) ≠ n := by
        rintro ⟨ha, hb, hc⟩ he
        apply hxy
        have hlt : x - r.x1 < w := by omega
        have e1 : n % w = x - r.x1 := by
          rw [← he, Nat.mul_comm, Nat.mul_add_mod, Nat.mod_eq_of_lt hlt]
        have e2 : n / w = y - r.y1 := by
          rw [← he, Nat.mul_comm, Nat.mul_add_div hw, Nat.div_eq_of_lt hlt, Nat.add_zero]
        omega
      by_cases hin : r.x1 ≤ x ∧ x < r.x1 + w ∧ r.y1 ≤ y
      · have hk := hne hin
        generalize (y - r.y1) * w + (x - r.x1) = k at hk ⊢
        by_cases hr : n ≤ k ∧ k < n + (ds.length + 1)
        · rw [if_pos ⟨hin.1, hin.2.1, hin.2.2, by omega, by omega⟩,
            if_pos ⟨hin.1, hin.2.1, hin.2.2, by omega, by simp only [List.length_cons]; omega⟩]
          rw [show k - n = (k - (n + 1)) + 1 by omega, List.getElem?_cons_succ]
        · rw [if_neg (by omega), if_neg (by simp only [List.length_cons]; omega)]
          rfl
      · rw [if_neg (fun hh => hin ⟨hh.1, hh.2.1, hh.2.2.1⟩), if_neg (fun hh => hin ⟨hh.1, hh.2.1, hh.2.2.1⟩)]
        rfl

end Receiver

end Sys2Proof.Machine
end

