-- ==== Sys2Proof/Laws/Ticks.lean ====
section
/-! SUPPORT. What one step, and so a run, of a busy machine keeps: the latch, `status`, `faulted`, `result`, `win`, and
any property of the engine's remaining steps. -/

namespace Sys2Proof.Machine

/-- What a step does to the latch, `status` and `faulted`: the first two change only when the operation ends, and only a
timeout event sets `faulted` (R32, R34). -/
def Ticked (s t : State) : Prop :=
  (t.busy = true → t.opCode = s.opCode ∧ t.opWords = s.opWords ∧ t.status = s.status) ∧
  (s.faulted = true → t.faulted = true) ∧
  (s.faulted = false → t.faulted = true → s.cfg.timeoutEnabled = true ∧ (Move.timeout ∈ s.moves ∨ s.tail = .silent) ∧ t.status = .busTimeout ∧ t.busy = false)

theorem envMove_ticked {s t : State} (h : s.envMove = some t) : Ticked s t := by
  unfold State.envMove at h
  split at h
  · split at h <;> cases h
    refine ⟨fun _ => ⟨rfl, rfl, rfl⟩, id, fun h1 h2 => ?_⟩
    simp [State.transferDone, State.emit, h1] at h2
  · rename_i ms hm
    split at h
    · rename_i ht
      split at h <;> cases h
      refine ⟨fun h => ?_, fun _ => ?_, fun _ _ => ⟨ht, .inl (by simp [hm]), ?_, ?_⟩⟩
      · simp [State.timeoutEvent, State.raise, State.endOp] at h
      all_goals (simp only [State.timeoutEvent, State.raise, State.endOp, State.abort])
    · cases h
      refine ⟨fun _ => ⟨rfl, rfl, rfl⟩, id, fun h1 h2 => ?_⟩
      simp [h1] at h2
  · cases h
    refine ⟨fun _ => ⟨rfl, rfl, rfl⟩, id, fun h1 h2 => ?_⟩
    simp [State.hostRead, h1] at h2
  · cases h
    refine ⟨fun _ => ⟨rfl, rfl, rfl⟩, id, fun h1 h2 => ?_⟩
    simp [h1] at h2
  · cases h
    refine ⟨fun _ => ⟨rfl, rfl, rfl⟩, id, fun h1 h2 => ?_⟩
    simp [h1] at h2
  · split at h <;> cases h
    refine ⟨fun _ => ⟨rfl, rfl, rfl⟩, id, fun h1 h2 => ?_⟩
    simp [h1] at h2
  · split at h
    · split at h <;> cases h
      refine ⟨fun _ => ⟨rfl, rfl, rfl⟩, id, fun h1 h2 => ?_⟩
      simp [State.transferDone, State.emit, h1] at h2
    · rename_i htail
      split at h <;> cases h
      rename_i hc
      simp only [Bool.and_eq_true] at hc
      refine ⟨fun h => ?_, fun _ => ?_, fun _ _ => ⟨hc.1, .inr htail, ?_, ?_⟩⟩
      · simp [State.timeoutEvent, State.raise, State.endOp] at h
      all_goals (simp only [State.timeoutEvent, State.raise, State.endOp, State.abort])

theorem engineDo_ticked {e : EStep} {s t : State} (h : engineDo e s = .moved t) :
    (t.busy = true → t.opCode = s.opCode ∧ t.opWords = s.opWords ∧ t.status = s.status) ∧ t.faulted = s.faulted := by
  cases e <;> simp only [engineDo, storePixel, issueStep, State.raise_eq] at h <;>
    first
    | (split at h <;> cases h <;> simp [State.issueBlock, State.emit])
    | (cases h; simp [State.emit])

theorem tick_ticked {s t : State} (h : tick s = .moved t) : Ticked s t := by
  unfold tick at h
  split at h
  · cases h; exact envMove_ticked (by assumption)
  · unfold engineStep at h
    split at h
    · cases h
    · obtain ⟨h1, h2⟩ := engineDo_ticked h
      have e0 : s.dropStay.faulted = s.faulted := by simp
      refine ⟨fun hb => ?_, fun hf => ?_, fun hf ht => ?_⟩
      · obtain ⟨a, b, c⟩ := h1 hb
        exact ⟨by rw [a]; unfold State.dropStay; split <;> rfl, by rw [b]; unfold State.dropStay; split <;> rfl, by rw [c]; unfold State.dropStay; split <;> rfl⟩
      · rw [h2]; exact e0.trans hf
      · rw [h2] at ht; exact absurd (e0.symm.trans ht) (by simp [hf])

theorem reaches_ticked {s t : State} (h : Reaches s t) : Ticked s t := by
  induction h with
  | refl => exact ⟨fun _ => ⟨rfl, rfl, rfl⟩, id, fun h1 h2 => by simp [h1] at h2⟩
  | @step s u t hb ht hr ih =>
    have h1 := tick_ticked ht
    have hfx := tick_fixed ht
    have hcfg : u.cfg = s.cfg := congrArg (·.1) hfx
    have htail : u.tail = s.tail := congrArg (·.2.2) hfx
    refine ⟨fun htb => ?_, fun hf => ih.2.1 (h1.2.1 hf), fun hf htf => ?_⟩
    · cases hub : u.busy with
      | true =>
        obtain ⟨a, b, c⟩ := ih.1 htb
        obtain ⟨a', b', c'⟩ := h1.1 hub
        exact ⟨a.trans a', b.trans b', c.trans c'⟩
      | false =>
        cases hr with
        | refl => simp [hub] at htb
        | step h _ _ => simp [hub] at h
    · cases huf : u.faulted with
      | false =>
        obtain ⟨a, b, c⟩ := ih.2.2 huf htf
        exact ⟨by rw [← hcfg]; exact a, b.imp (fun h => (tick_moves ht).subset h) (fun h => by rw [← htail]; exact h), c⟩
      | true =>
        obtain ⟨a, b, c, d⟩ := h1.2.2 hf huf
        refine ⟨a, b, ?_⟩
        cases hr with
        | refl => exact ⟨c, d⟩
        | step h _ _ => simp [d] at h

/-- `P` holds of the steps that a call runs in line. -/
structure Inline (P : EStep → Prop) : Prop where
  wait : P .waitIdle
  issue : P .issue
  clear : P .clearCursor
  flip : P .flipActive
  any : P .flushIfAny
  rel : P (.emit .scopeRelease)
  shut : P .shutStream

theorem Inline.ofFlush {P : EStep → Prop} (h : Inline P) (m : Mode) : ∀ e ∈ flushSteps m, P e := by
  cases m <;> simp [flushSteps, h.wait, h.issue, h.clear, h.flip]

theorem Inline.ofFinish {P : EStep → Prop} (h : Inline P) : ∀ e ∈ finishSteps, P e := by
  simp [finishSteps, h.wait, h.any, h.rel, h.shut]

/-- Another agent leaves the engine's remaining steps, or ends the operation. -/
theorem envMove_cont {s t : State} (h : s.envMove = some t) : t.cont = s.cont ∨ t.cont = [] := by
  unfold State.envMove at h
  split at h
  · split at h <;> cases h; exact .inl rfl
  · split at h
    · split at h <;> cases h; exact .inr rfl
    · cases h; exact .inl rfl
  · cases h; exact .inl rfl
  · cases h; exact .inl rfl
  · cases h; exact .inl rfl
  · split at h <;> cases h; exact .inl rfl
  · split at h
    · split at h <;> cases h; exact .inl rfl
    · split at h <;> cases h; exact .inr rfl

/-- A property of every step of a checked continuation. -/
theorem all_checked {P : EStep → Prop} {bad : Bool} {code : Status} {rest : List EStep} (h1 : P (.raiseIf bad code)) (h2 : ∀ e ∈ rest, P e) :
    ∀ e ∈ checked bad code rest, P e := by
  unfold checked
  intro e he
  rcases List.mem_cons.1 he with rfl | he
  · exact h1
  · split at he
    · cases he
    · exact h2 e he

/-- A property of every step of a drawing operation. -/
theorem all_draw {P : EStep → Prop} (hP : Inline P) (hc : P .closeStream) (he : ∀ e, P (.emit e)) (hw : ∀ w, P (.writeWin w)) (ho : P .openStream)
   (hs : ∀ d, P (.store d)) (ha : P .advance) (hf : P .flushIfFull) (c : Config) (sts : List Plan) (st : Status) (hfin : P (.finishOp st)) :
   ∀ e ∈ drawSteps c sts st, P e := by
  have hwin : ∀ w, ∀ e ∈ windowSteps c w, P e := by intro w; simp [windowSteps, hc, he, hw, ho]
  intro e h
  unfold drawSteps at h
  rcases List.mem_append.1 h with h | h
  · obtain ⟨s, _, h⟩ := List.mem_flatMap.1 h
    unfold streamSteps at h
    rcases List.mem_append.1 h with h | h
    · rcases List.mem_append.1 h with h | h
      · exact hwin _ e h
      · obtain ⟨d, _, h⟩ := List.mem_flatMap.1 h
        simp [pushSteps] at h
        rcases h with rfl | rfl | rfl <;> simp [*]
    · exact hP.ofFinish e h
  · simp at h; subst h; exact hfin

/-- A property of every step of DRAW_BITMAP behind its header. -/
theorem all_bitmap {P : EStep → Prop} (hb : ∀ code, P (.raiseIf true code) ∧ P (.raiseIf false code))
    (hd : ∀ c sts, ∀ e ∈ drawSteps c sts .ok, P e) (c : Config) (x y sc : Word) (base : BitVec 32) (wd ht : Word) :
    ∀ e ∈ bitmapSteps c x y sc base wd ht, P e := by
  have hr : ∀ bad code, P (.raiseIf bad code) := fun bad code => by
    cases bad
    · exact (hb code).2
    · exact (hb code).1
  unfold bitmapSteps
  split
  · exact hd c []
  · exact all_checked (hr _ _) (all_checked (hr _ _) (hd c _))

/-- `P` holds of the steps behind a bitmap's header, if it holds of the reading of the header. -/
def OfHeader (P : EStep → Prop) : Prop :=
  ∀ x y sc base, P (.readHeader x y sc base) → ∀ c wd ht, ∀ e ∈ bitmapSteps c x y sc base wd ht, P e

/-- A property of the steps a call runs in line stays with the engine's remaining steps. -/
theorem engineDo_all {P : EStep → Prop} (hP : Inline P) (hH : OfHeader P) {e : EStep} {s t : State} (he : P e)
    (hs : ∀ x ∈ s.cont, P x) (h : engineDo e s = .moved t) : ∀ x ∈ t.cont, P x := by
  have hfl := hP.ofFlush s.cfg.mode
  have hfi := hP.ofFinish
  have happ : ∀ k : List EStep, (∀ x ∈ k, P x) → ∀ x ∈ k ++ s.cont, P x := fun k hk x hx =>
    (List.mem_append.1 hx).elim (hk x) (hs x)
  by_cases hr : ∃ x y sc base, e = .readHeader x y sc base
  · obtain ⟨x, y, sc, base, rfl⟩ := hr
    cases h
    exact happ _ (hH x y sc base he _ _ _)
  cases e <;> simp only [engineDo, storePixel, issueStep, State.raise_eq] at h <;>
    first
    | exact absurd ⟨_, _, _, _, rfl⟩ hr
    | (cases h; split <;> first | exact hs | exact happ _ hfl | exact happ _ hfi | simp [State.endOp])
    | (split at h <;> cases h <;> first | exact happ _ hfl | exact happ _ hfi | exact hs | simpa [State.issueBlock, State.emit] using hs)
    | (cases h; first | exact hs | simpa using hs)

theorem tick_all {P : EStep → Prop} (hP : Inline P) (hH : OfHeader P) {s t : State} (hs : ∀ x ∈ s.cont, P x)
    (h : tick s = .moved t) : ∀ x ∈ t.cont, P x := by
  unfold tick at h
  split at h
  · cases h
    rename_i hu
    rcases envMove_cont hu with h | h
    · rw [h]; exact hs
    · simp [h]
  · unfold engineStep at h
    split at h
    · cases h
    · rename_i e k hc
      have hk : s.dropStay.cont = s.cont := by simp
      refine engineDo_all hP hH (hs e (by rw [← hk, hc]; exact List.mem_cons_self)) ?_ h
      intro x hx
      exact hs x (by rw [← hk, hc]; exact List.mem_cons_of_mem _ hx)

/-- A step of a busy machine is another agent's, or the engine's next one. -/
theorem tick_cases {s t : State} (h : tick s = .moved t) : s.envMove = some t ∨
    ∃ e k, s.cont = e :: k ∧ engineDo e { s.dropStay with cont := k } = .moved t := by
  unfold tick at h
  split at h
  · cases h; exact .inl (by assumption)
  · unfold engineStep at h
    split at h
    · cases h
    · rename_i e k hc
      exact .inr ⟨e, k, by rw [← hc]; simp, h⟩

theorem engineDo_result_win {e : EStep} {s t : State} (h : engineDo e s = .moved t) :
    ((∀ v, e ≠ .writeResult v) → t.result = s.result) ∧ ((∀ w, e ≠ .writeWin w) → t.win = s.win) := by
  cases e <;> simp only [engineDo, storePixel, issueStep, State.raise_eq] at h <;>
    first
    | (cases h; split <;> exact ⟨fun _ => rfl, fun _ => rfl⟩)
    | (cases h; simp [State.emit])
    | (split at h <;> cases h <;> simp [State.issueBlock, State.emit])

theorem envMove_result_win {s t : State} (h : s.envMove = some t) : t.result = s.result ∧ t.win = s.win := by
  unfold State.envMove at h
  split at h
  · split at h <;> cases h; exact ⟨rfl, rfl⟩
  · split at h
    · split at h <;> cases h
      simp only [State.timeoutEvent, State.raise, State.endOp, State.abort]
      split <;> exact ⟨rfl, rfl⟩
    · cases h; exact ⟨rfl, rfl⟩
  · cases h; exact ⟨rfl, rfl⟩
  · cases h; exact ⟨rfl, rfl⟩
  · cases h; exact ⟨rfl, rfl⟩
  · split at h <;> cases h; exact ⟨rfl, rfl⟩
  · split at h
    · split at h <;> cases h; exact ⟨rfl, rfl⟩
    · split at h <;> cases h
      simp only [State.timeoutEvent, State.raise, State.endOp, State.abort]
      split <;> exact ⟨rfl, rfl⟩

/-- Without a step that writes it, `result` stays (R35). -/
theorem reaches_result {s t : State} (h : Reaches s t) (hs : ∀ e ∈ s.cont, ∀ v, e ≠ .writeResult v) : t.result = s.result := by
  have hP : Inline fun e => ∀ v, e ≠ .writeResult v := by constructor <;> simp
  have hH : OfHeader fun e => ∀ v, e ≠ .writeResult v := fun x y sc base _ c wd ht =>
    all_bitmap (fun _ => by simp) (fun c sts => all_draw hP (by simp) (by simp) (by simp) (by simp) (by simp) (by simp)
      (by simp) c sts .ok (by simp)) c x y sc base wd ht
  induction h with
  | refl => rfl
  | step hb ht hr ih =>
    rw [ih (tick_all hP hH hs ht)]
    rcases tick_cases ht with h | ⟨e, k, hc, h⟩
    · exact (envMove_result_win h).1
    · rw [(engineDo_result_win h).1 (hs e (by simp [hc]))]; show State.result (State.dropStay _) = _; simp

/-- Without a step that writes it, nor the reading of a header, `win` stays (R31). -/
theorem reaches_win {s t : State} (h : Reaches s t)
    (hs : ∀ e ∈ s.cont, (∀ w, e ≠ .writeWin w) ∧ ∀ x y sc base, e ≠ .readHeader x y sc base) : t.win = s.win := by
  have hP : Inline fun e => (∀ w, e ≠ .writeWin w) ∧ ∀ x y sc base, e ≠ .readHeader x y sc base := by
    constructor <;> simp
  induction h with
  | refl => rfl
  | step hb ht hr ih =>
    rw [ih (tick_all hP (fun x y sc base h => absurd rfl (h.2 x y sc base)) hs ht)]
    rcases tick_cases ht with h | ⟨e, k, hc, h⟩
    · exact (envMove_result_win h).2
    · rw [(engineDo_result_win h).2 (hs e (by simp [hc])).1]; show State.win (State.dropStay _) = _; simp

end Sys2Proof.Machine
end

