-- ==== Sys2Proof/Machine/Assembler.lean ====
section
/-! DEFINITION. The assembly syntax of 30_encoding.md R93: one operation per line, as a list of characters. It has no
pseudo-operation (R94). What R93 leaves open is settled in log entry 16. -/

namespace Sys2Proof.Machine

/-- An operand as written. -/
inductive AsmOperand where
  | number (n : Nat)
  | text (codes : List Byte)
  deriving DecidableEq, Repr

/-- A `;` outside a quoted string starts a comment. The flag says whether the text stands inside quotes. -/
def stripComment : Bool → List Char → List Char
  | _, [] => []
  | quoted, c :: cs =>
    if c = '"' then c :: stripComment (!quoted) cs
    else if c = ';' && !quoted then []
    else c :: stripComment quoted cs

/-- Splits at the commas outside quoted strings. -/
def splitOperands : Bool → List Char → List (List Char)
  | _, [] => [[]]
  | quoted, c :: cs =>
    let rest := splitOperands (if c = '"' then !quoted else quoted) cs
    if c = ',' && !quoted then [] :: rest
    else
      match rest with
      | [] => [[c]]
      | r :: rs => (c :: r) :: rs

/-- A space or a tab. -/
def isBlank (c : Char) : Bool := c = ' ' || c = '\t'

/-- Drops the blanks at both ends. -/
def trimBlanks (cs : List Char) : List Char := ((cs.dropWhile isBlank).reverse.dropWhile isBlank).reverse

/-- The value of a hexadecimal digit. -/
def hexDigit (c : Char) : Option Nat :=
  let n := c.toNat
  if 48 ≤ n ∧ n ≤ 57 then some (n - 48)
  else if 65 ≤ n ∧ n ≤ 70 then some (n - 55)
  else if 97 ≤ n ∧ n ≤ 102 then some (n - 87)
  else none

/-- The digits of a number in base `base`, read from the left onto `acc`. -/
def readDigits (base : Nat) : Nat → List Char → Option Nat
  | acc, [] => some acc
  | acc, c :: cs =>
    match hexDigit c with
    | none => none
    | some d => if d < base then readDigits base (base * acc + d) cs else none

/-- "Numbers are decimal or `0x` hexadecimal" (R93). -/
def readNumber (cs : List Char) : Option Nat :=
  match cs with
  | [] => none
  | '0' :: 'x' :: [] => none
  | '0' :: 'x' :: ds => readDigits 16 0 ds
  | ds => readDigits 10 0 ds

/-- The characters of a quoted ASCII string, from behind its opening quote. -/
def readText : List Char → Option (List Byte)
  | [] => none
  | ['"'] => some []
  | c :: cs =>
    if c = '"' then none
    else if c.toNat < 128 then (readText cs).map fun r => BitVec.ofNat 8 c.toNat :: r
    else none

/-- An operand. -/
def readOperand (cs : List Char) : Option AsmOperand :=
  match cs with
  | '"' :: rest => (readText rest).map .text
  | _ => (readNumber cs).map .number

/-- All operands, or none when one of them is not well written. -/
def readOperands : List (List Char) → Option (List AsmOperand)
  | [] => some []
  | cs :: rest =>
    match readOperand (trimBlanks cs), readOperands rest with
    | some o, some os => some (o :: os)
    | _, _ => none

/-- A 16-bit operand. -/
def asWord (n : Nat) : Option Word := if n < 65536 then some (BitVec.ofNat 16 n) else none

/-- A character code. -/
def asByte (n : Nat) : Option Byte := if n < 256 then some (BitVec.ofNat 8 n) else none

/-- The numbers of an operand list that is numbers only. -/
def asNumbers : List AsmOperand → Option (List Nat)
  | [] => some []
  | .number n :: os => (asNumbers os).map (n :: ·)
  | .text _ :: _ => none

/-- The 16-bit operands of an operand list that is numbers only. -/
def asWords : List Nat → Option (List Word)
  | [] => some []
  | n :: ns => (asWord n).bind fun w => (asWords ns).map (w :: ·)

/-- The operation of a mnemonic whose operands are 16-bit numbers. -/
def assembleWords (mnemonic : String) (ws : List Word) : Option Instr :=
  match ws with
  | [] => if mnemonic = "FINISH" then some .finish else none
  | [c] =>
    if mnemonic = "CONVERT" then some (.convert c)
    else if mnemonic = "PUSH_PIXEL" then some (.pushPixel c)
    else none
  | [x, y, c] => if mnemonic = "DRAW_PIXEL" then some (.drawPixel x y c) else none
  | [x1, y1, x2, y2] => if mnemonic = "SET_WINDOW" then some (.setWindow x1 y1 x2 y2) else none
  | [a, b, c, d, e] =>
    if mnemonic = "FILL_RECT" then some (.fillRect a b c d e)
    else if mnemonic = "DRAW_FAST_GLYPH" then (asByte c.toNat).map fun ch => .drawFastGlyph a b ch d e
    else none
  | [x, y, c, fg, bg, s] =>
    if mnemonic = "DRAW_GLYPH" then (asByte c.toNat).map fun ch => .drawGlyph x y ch fg bg s else none
  | _ => none

/-- The operation of a mnemonic and its operands (R93, in the order of R86). The address of DRAW_BITMAP is one 32-bit
operand, and the count and the characters of a string are one quoted string. -/
def assembleOperation (mnemonic : String) (os : List AsmOperand) : Option Instr :=
  if mnemonic = "DRAW_BITMAP" then
    match os with
    | [.number x, .number y, .number s, .number a] =>
      match asWords [x, y, s] with
      | some [x, y, s] => if a < 2 ^ 32 then some (.drawBitmap x y s (BitVec.ofNat 32 a)) else none
      | _ => none
    | _ => none
  else if mnemonic = "DRAW_STRING" then
    match os with
    | [.number x, .number y, .number fg, .number bg, .number s, .text chs] =>
      match asWords [x, y, fg, bg, s] with
      | some [x, y, fg, bg, s] => if stringFits chs then some (.drawString x y fg bg s chs) else none
      | _ => none
    | _ => none
  else if mnemonic = "DRAW_FAST_STRING" then
    match os with
    | [.number x, .number y, .number fg, .number bg, .text chs] =>
      match asWords [x, y, fg, bg] with
      | some [x, y, fg, bg] => if stringFits chs then some (.drawFastString x y fg bg chs) else none
      | _ => none
    | _ => none
  else ((asNumbers os).bind asWords).bind (assembleWords mnemonic)

/-- One line: `MNEMONIC operand, operand, ...` (R93). -/
def assembleLine (line : List Char) : Option Instr :=
  let text := trimBlanks (stripComment false line)
  let mnemonic := String.ofList (text.takeWhile fun c => !isBlank c)
  let rest := trimBlanks (text.dropWhile fun c => !isBlank c)
  (if rest = [] then some [] else readOperands (splitOperands false rest)).bind (assembleOperation mnemonic)

end Sys2Proof.Machine
end

