-- ==== Sys2Proof/Tests/Slice0.lean ====
section
/-! SUPPORT. The model's own tests. Expected results are those of 95_test_vectors.md (the vector's name stands with the
test), of the format tables of 30_encoding.md, or worked out by hand from the rule that is named. The second part has, for
every obligation with hypotheses, a state and operands that meet them. -/

namespace Sys2Proof.Tests

open Sys2Proof Sys2Proof.Machine

/-! ## Well-formedness, decoding, assembling -/

/-- The one check of `wellFormed`: 65536 characters do not fit the count word (R83), 65535 do. -/
theorem test_smoke_drawString_too_long :
    (Instr.drawString 0 0 0 0 1 (List.replicate 65536 65)).wellFormed = false ∧
    (Instr.drawString 0 0 0 0 1 (List.replicate 65535 65)).wellFormed = true := by
  simp only [Instr.wellFormed, stringFits, List.length_replicate]
  decide

theorem test_smoke_drawFastString_too_long :
    (Instr.drawFastString 0 0 0 0 (List.replicate 65536 65)).wellFormed = false ∧
    (Instr.drawFastString 0 0 0 0 (List.replicate 65535 65)).wellFormed = true := by
  simp only [Instr.wellFormed, stringFits, List.length_replicate]
  decide

/-- V-PIX-1. -/
theorem test_decode_drawPixel : decode [0x0001, 0x0005, 0x0007, 0x07E0] = .ok (.drawPixel 5 7 0x07E0) := by decide

/-- E7. -/
theorem test_decode_fillRect :
    decode [0x0002, 0x0000, 0x0001, 0x0009, 0x0008, 0xF800] = .ok (.fillRect 0 1 9 8 0xF800) := by decide

/-- V-GLY-3, with operands that differ (R86, FGLYPH). -/
theorem test_decode_drawGlyph :
    decode [0x0003, 1, 2, 0x0041, 0xFFFF, 0x001F, 3] = .ok (.drawGlyph 1 2 65 0xFFFF 0x001F 3) := by decide

/-- E8, with operands that differ (R86, FFGLYPH). -/
theorem test_decode_drawFastGlyph :
    decode [0x0004, 1, 2, 0x0041, 0xFFFF, 0x001F] = .ok (.drawFastGlyph 1 2 65 0xFFFF 0x001F) := by decide

/-- V-DEC-13, with one character (R86, FSTR). -/
theorem test_decode_drawString :
    decode [0x0005, 1, 2, 3, 4, 5, 0x0001, 0x00C8] = .ok (.drawString 1 2 3 4 5 [200]) := by decide

/-- V-STR-1. -/
theorem test_decode_drawFastString :
    decode [0x0006, 0, 0, 0xFFFF, 0, 0x0002, 0x0041, 0x0042] = .ok (.drawFastString 0 0 0xFFFF 0 [65, 66]) := by decide

/-- V-BMP-9: the address is `{addr_hi, addr_lo}` (R84). -/
theorem test_decode_drawBitmap :
    decode [0x0007, 1, 2, 3, 0x0001, 0x0100] = .ok (.drawBitmap 1 2 3 0x00010100) := by decide

/-- E2. -/
theorem test_decode_convert : decode [0x0010, 0xFFFF] = .ok (.convert 0xFFFF) := by decide

/-- E1. -/
theorem test_decode_setWindow : decode [0x0011, 9, 0, 1, 8] = .ok (.setWindow 9 0 1 8) := by decide

/-- R85, FCOL. -/
theorem test_decode_pushPixel : decode [0x0012, 0xF800] = .ok (.pushPixel 0xF800) := by decide

/-- V-DEC-12. -/
theorem test_decode_finish : decode [0x0013] = .ok .finish := by decide

/-- V-DEC-1 to V-DEC-5. -/
theorem test_decode_rejects_header :
    decode [] = .error .emptySequence ∧ decode [0x0101, 1, 2, 3] = .error .reservedHeaderBits ∧
    decode [0x0000] = .error .reservedOpcode ∧ decode [0x0008] = .error .reservedOpcode ∧
    decode [0x00F0] = .error .reservedOpcode := by decide

/-- V-DEC-6 to V-DEC-11. -/
theorem test_decode_rejects_rest :
    decode [0x0006, 0, 0, 0, 0] = .error .noCountWord ∧ decode [0x0006, 0, 0, 0, 0, 1] = .error .wrongLength ∧
    decode [0x0013, 0] = .error .wrongLength ∧ decode [0x0001, 1, 2] = .error .wrongLength ∧
    decode [0x0004, 0, 0, 0x0141, 0, 0] = .error .reservedCharBits ∧
    decode [0x0006, 0, 0, 0xFFFF, 0, 1, 0x0141] = .error .reservedCharBits := by decide

/-- The encoder, on V-BMP-9's words. -/
theorem test_encode_drawBitmap :
    encode (.drawBitmap 1 2 3 0x00010100) = [0x0007, 1, 2, 3, 0x0001, 0x0100] := by decide

/-- The table's bit numbering: DRAW_PIXEL 5, 7, 0x07E0, the first word in the least significant bits. -/
theorem test_decodeTableWord :
    decodeTableWord 64 0x07E0000700050001 = some (.drawPixel 5 7 0x07E0) ∧
    decodeTableWord 16 0x0013 = some .finish ∧ decodeTableWord 16 0x0005 = some (.drawString 0 0 0 0 0 []) := by decide

/-- R93: numbers decimal or hexadecimal, a quoted string, a comment. -/
theorem test_assemble_words :
    assembleLine "  FILL_RECT 0, 0, 9, 9, 0xF800   ; a fill".toList = some (.fillRect 0 0 9 9 0xF800) ∧
    assembleLine "FINISH".toList = some .finish ∧
    assembleLine "DRAW_BITMAP 10, 20, 1, 0x00010110".toList = some (.drawBitmap 10 20 1 0x00010110) ∧
    assembleLine "CONVERT 65536".toList = none := by decide +kernel

theorem test_assemble_string :
    assembleLine "DRAW_FAST_STRING 0, 0, 0xFFFF, 0, \"A;,B\"".toList =
      some (.drawFastString 0 0 0xFFFF 0 [65, 59, 44, 66]) ∧
    assembleLine "DRAW_STRING 0, 0, 0xFFFF, 0, 2, \"\"".toList = some (.drawString 0 0 0xFFFF 0 2 []) := by
  decide +kernel

/-! ## One operation at a time -/

/-- The answer is a next state with a property. -/
def nextHas (o : Host.Outcome State Fault Refusal) (p : State → Bool) : Bool :=
  match o with
  | .next t => p t
  | .fault _ => false
  | .refused _ => false

/-- The answer is this fault. -/
def faultIs (o : Host.Outcome State Fault Refusal) (f : Fault) : Bool :=
  match o with
  | .next _ => false
  | .fault r => r = f
  | .refused _ => false

theorem nextHas_iff {o : Host.Outcome State Fault Refusal} {p : State → Bool} (h : nextHas o p = true) :
    ∃ t, o = .next t ∧ p t = true := by
  unfold nextHas at h
  split at h
  · exact ⟨_, rfl, h⟩
  · cases h
  · cases h

/-- `W(x1,y1,x2,y2)` of 95_test_vectors.md, each bound given as its two bytes. -/
def W (a b c d e f g h : Byte) : List Event :=
  [.cmd 0x2A, .data a, .data b, .data e, .data f, .cmd 0x2B, .data c, .data d, .data g, .data h, .cmd 0x2C, .scopeAcquire]

/-- T0 in a mode, with a capacity. -/
def t0 (m : Mode) (c : Nat) : Config := { Config.testT0 with mode := m, capacity := c }

/-- TG: the two glyphs of 95_test_vectors.md. -/
def withTG (s : State) : State :=
  State.loadGlyph (State.loadGlyph s 65 0 [0x00, 0x18, 0x24, 0x42, 0x42, 0x7E, 0x42, 0x42, 0x42, 0, 0, 0, 0])
    66 0 [0x00, 0x7C, 0x42, 0x42, 0x7C, 0x42, 0x42, 0x42, 0x7C, 0, 0, 0, 0]

/-- TB: the bitmap memory of 95_test_vectors.md. -/
def withTB (s : State) : State :=
  State.loadBitmap (State.loadBitmap (State.loadBitmap (State.loadBitmap (State.loadBitmap s
    0x100 [2, 1, 0xF800, 0x001F]) 0x110 [2, 2, 0xF800, 0x07E0, 0x001F, 0xFFFF]) 0x120 [0, 5]) 0x130 [1, 0]) 0x1FC [3, 3]

/-- An idle core in an open stream with `n` zero bytes staged. -/
def openStream (c : Config) (n : Nat) : State :=
  { State.resetWith c with
    buf0 := (List.range n).map fun k => (k, 0), cursor0 := n, streamOpen := true, trace := [.scopeAcquire] }

/-- An idle ASYNC core in an open stream, a block outstanding at a transport that does not complete it. -/
def asyncBlock : State :=
  { State.resetWith (t0 .async 6) with
    active := .b1, inFlight := true, xfer := some (.b0, 6), streamOpen := true,
    trace := [.scopeAcquire, .block .async [0, 0, 0, 0, 0, 0]], tail := .silent }

/-- V-TMO-1's kind of end: a core that a timeout has made faulted, its block outstanding. -/
def faultedCore : State :=
  { State.resetWith (t0 .async 6) with
    active := .b1, inFlight := true, xfer := some (.b0, 6), faulted := true, status := .busTimeout,
    trace := [.scopeAcquire, .block .async [0, 0, 0, 0, 0, 0], .scopeRelease] }

/-- V-PIX-1. -/
theorem test_drawPixel : nextHas (exec (.drawPixel 5 7 0x07E0) State.reset) (fun t =>
    t.trace = W 0 5 0 7 0 6 0 8 ++ [.block .blocking [0x00, 0xFC, 0x00], .done, .scopeRelease] &&
    t.readReg 6 = 0x00060005 && t.readReg 7 = 0x00080007 && t.readReg 0 = 0 && t.readReg 3 = 0) = true := by
  decide +kernel

/-- V-PIX-3 and V-PIX-4. -/
theorem test_drawPixel_edge :
    nextHas (exec (.drawPixel 319 479 0xFFFF) State.reset) (fun t =>
      t.trace.take 12 = W 0x01 0x3F 0x01 0xDF 0x01 0x40 0x01 0xE0 && t.status = .ok) = true ∧
    nextHas (exec (.drawPixel 320 0 0xFFFF) State.reset) (fun t => t.trace = [] && t.status = .invalidWindow) = true := by
  decide +kernel

/-- V-FILL-4. -/
theorem test_fillRect : nextHas (exec (.fillRect 2 1 5 3 0x07E0) State.reset) (fun t =>
    t.trace = W 0 2 0 1 0 5 0 3 ++
      [.block .blocking (List.replicate 10 [0x00, 0xFC, 0x00]).flatten, .done,
       .block .blocking (List.replicate 2 [0x00, 0xFC, 0x00]).flatten, .done, .scopeRelease] && t.status = .ok) = true := by
  decide +kernel

/-- E7, in ASYNC mode, both bounds swapped (V-FILL-1): 33 events, ENGINE 0 after ten flips. -/
theorem test_fillRect_async : nextHas (exec (.fillRect 9 9 0 0 0xF800) (State.resetWith (t0 .async 30))) (fun t =>
    t.trace.length = 33 && (payloads t.trace).all (· = (List.replicate 10 [0xF8, 0x00, 0x00]).flatten) &&
    t.readReg 3 = 0 && t.readReg 6 = 0x00090000 && t.readReg 7 = 0x00090000) = true := by
  decide +kernel

/-- E8: the second block. -/
theorem test_drawFastGlyph : nextHas (exec (.drawFastGlyph 0 0 65 0xFFFF 0) (withTG State.reset)) (fun t =>
    t.trace.length = 35 && t.trace.take 12 = W 0 0 0 0 0 7 0 12 && t.status = .ok &&
    (payloads t.trace)[1]? = some ([0, 0, 0, 0xF8, 0xFC, 0xF8, 0xF8, 0xFC, 0xF8, 0, 0, 0, 0, 0, 0, 0, 0, 0, 0, 0, 0, 0, 0, 0,
      0xF8, 0xFC, 0xF8, 0, 0, 0])) = true := by
  decide +kernel

/-- V-GLY-10, and V-GLY-15 on row 1 of TG(66) with `GLYPH_MSB_LEFT = false`. -/
theorem test_drawFastGlyph_unsupported :
    nextHas (exec (.drawFastGlyph 0 0 127 0xFFFF 0x001F) (withTG State.reset)) (fun t =>
      t.status = .unsupportedGlyph && (payloads t.trace).flatten = (List.replicate 104 [0x00, 0x00, 0xF8]).flatten) = true ∧
    (List.range 8).map (fun i => glyphBit { Config.testT0 with glyphMsbLeft := false } (withTG State.reset).glyphs 66 i 1) =
      [false, false, true, true, true, true, true, false] := by
  decide +kernel

/-- V-GLY-3 and V-GLY-4: 104 streams; number 11 is source bit (3, 1), which is set, number 0 is not. -/
theorem test_drawGlyph :
    (glyphStreams Config.testT0 (withTG State.reset).glyphs 0 0 65 0xFFFF 0 1)[11]? =
      some ⟨⟨3, 1, 3, 1⟩, [⟨0xF8, 0xFC, 0xF8⟩]⟩ ∧
    (glyphStreams Config.testT0 (withTG State.reset).glyphs 0 0 65 0xFFFF 0 1).length = 104 ∧
    (glyphStreams Config.testT0 (withTG State.reset).glyphs 0 0 65 0xFFFF 0 2).head? =
      some ⟨⟨0, 0, 1, 1⟩, List.replicate 4 ⟨0, 0, 0⟩⟩ := by
  decide +kernel

/-- V-GLY-6 and V-GLY-14. -/
theorem test_drawGlyph_off :
    nextHas (exec (.drawGlyph 0 0 65 0xFFFF 0 0) State.reset) (fun t => t.trace = [] && t.status = .invalidWindow) = true ∧
    nextHas (exec (.drawGlyph 0 0 65 0xFFFF 0 37) State.reset) (fun t => t.trace = [] && t.status = .invalidWindow) = true := by
  decide +kernel

/-- V-STR-3: 208 streams of 2 x 2; the second character starts at x = 18. -/
theorem test_drawString :
    let sts := stringStreams Config.testT0 (withTG State.reset).glyphs 0 0 0xFFFF 0 2 0 [65, 66]
    sts.length = 208 ∧ (sts[104]?).map StreamOf.win = some (⟨18, 0, 19, 1⟩ : Window) ∧ sts.all (·.pixels.length = 4) = true := by
  decide +kernel

/-- V-STR-5, and V-DEC-13's descriptor, whose scale word is 0. -/
theorem test_drawString_scale0 :
    nextHas (exec (.drawString 0 0 0xFFFF 0 0 []) State.reset) (fun t => t.trace = [] && t.status = .invalidWindow) = true ∧
    nextHas (exec (.drawString 0 0 0 0 1 []) State.reset) (fun t => t.trace = [] && t.status = .ok) = true := by
  decide +kernel

/-- V-STR-1. -/
theorem test_drawFastString : nextHas (exec (.drawFastString 0 0 0xFFFF 0 [65, 66]) (withTG State.reset)) (fun t =>
    t.trace.length = 70 && blockCount t.trace = 22 && (t.trace.drop 35).take 12 = W 0 9 0 0 0 16 0 12) = true := by
  decide +kernel

/-- V-STR-7 and V-STR-6. -/
theorem test_drawFastString_edge :
    nextHas (exec (.drawFastString 304 0 0xFFFF 0 [65, 66]) State.reset) (fun t => t.trace = [] && t.status = .invalidWindow) = true ∧
    nextHas (exec (.drawFastString 303 0 0xFFFF 0 [65, 66]) State.reset) (fun t => t.status = .ok) = true := by
  decide +kernel

/-- V-BMP-12 in C = 12. -/
theorem test_drawBitmap : nextHas (exec (.drawBitmap 10 20 2 0x110) (withTB (State.resetWith (t0 .blocking 12)))) (fun t =>
    let even : List Byte := [0xF8, 0, 0, 0xF8, 0, 0, 0, 0xFC, 0, 0, 0xFC, 0]
    let odd : List Byte := [0, 0, 0xF8, 0, 0, 0xF8, 0xF8, 0xFC, 0xF8, 0xF8, 0xFC, 0xF8]
    t.trace.take 12 = W 0 10 0 20 0 13 0 24 && payloads t.trace = [even, even, odd, odd] && t.status = .ok) = true := by
  decide +kernel

/-- V-BMP-6, V-BMP-8, V-EXC-9 and V-EXC-10: the order of the checks. -/
theorem test_drawBitmap_checks :
    let s := withTB State.reset
    let ends := fun i st => nextHas (exec i s) (fun t => t.trace = [] && t.status = st)
    ends (.drawBitmap 0 0 1 0x1FF) .memoryFault = true ∧ ends (.drawBitmap 0 0 1 0x1FC) .memoryFault = true ∧
    ends (.drawBitmap 400 0 1 0x1FC) .invalidWindow = true ∧ ends (.drawBitmap 400 0 1 0x120) .ok = true := by
  decide +kernel

/-- V-CONV-6, and V-EXC-2. -/
theorem test_convert :
    nextHas (exec (.convert 0x1234) State.reset) (fun t => t.readReg 1 = 0x001044A0 && t.trace = []) = true ∧
    nextHas (exec (.convert 0xFFFF) faultedCore) (fun t => t.readReg 1 = 0x00F8FCF8 && t.status = .ok) = true := by
  decide +kernel

/-- E1. -/
theorem test_setWindow : nextHas (exec (.setWindow 9 0 0 9) State.reset) (fun t =>
    t.trace = W 0 0 0 0 0 9 0 9 && t.readReg 6 = 0x00090000 && t.readReg 7 = 0x00090000 && t.readReg 3 = 8) = true := by
  decide +kernel

/-- V-WIN-3's last operation (the stream with one staged pixel is closed first), and V-WIN-5's. -/
theorem test_setWindow_open :
    nextHas (exec (.setWindow 5 5 5 5) (openStream (t0 .blocking 30) 3)) (fun t =>
      t.trace = [.scopeAcquire, .block .blocking [0, 0, 0], .done, .scopeRelease] ++ W 0 5 0 5 0 5 0 5 &&
      t.readReg 3 = 8) = true ∧
    nextHas (exec (.setWindow 0 0 400 0) (openStream (t0 .blocking 30) 3)) (fun t =>
      t.trace = [.scopeAcquire] && t.status = .invalidWindow && t.readReg 3 = 8 && t.readReg 4 = 3) = true := by
  decide +kernel

/-- E4's pushes 1 and 2, C = 7. -/
theorem test_pushPixel :
    nextHas (exec (.pushPixel 0xF800) (openStream (t0 .blocking 7) 0)) (fun t =>
      t.readReg 4 = 3 && t.staged = [0xF8, 0, 0] && t.trace = [.scopeAcquire]) = true ∧
    nextHas (exec (.pushPixel 0xF800) (openStream (t0 .blocking 7) 3)) (fun t =>
      t.readReg 4 = 0 && t.trace = [.scopeAcquire, .block .blocking [0, 0, 0, 0xF8, 0, 0], .done]) = true := by
  decide +kernel

/-- V-STG-14's second push, by the lazy transport: IN_FLIGHT, ACTIVE, STREAM_OPEN. Then V-STG-15. -/
theorem test_pushPixel_async :
    nextHas (exec (.pushPixel 0x07E0) (openStream (t0 .async 6) 3)) (fun t =>
      t.trace = [.scopeAcquire, .block .async [0, 0, 0, 0, 0xFC, 0]] && t.readReg 3 = 0x0E && t.readReg 4 = 0 &&
      t.readReg 5 = 0 && t.xfer = some (.b0, 6)) = true ∧
    nextHas (exec (.pushPixel 0xF800) State.reset) (fun t => t.trace = [] && t.status = .illegalOperation) = true := by
  decide +kernel

/-- V-STG-8's FINISH in small, and V-DEC-12's; V-EXC-5. -/
theorem test_finish :
    nextHas (exec .finish (openStream (t0 .blocking 30) 3)) (fun t =>
      t.trace = [.scopeAcquire, .block .blocking [0, 0, 0], .done, .scopeRelease] && t.readReg 3 = 0) = true ∧
    nextHas (exec .finish State.reset) (fun t => t.trace = [] && t.status = .ok) = true ∧
    nextHas (exec .finish faultedCore) (fun t => t.trace.length = 3 && t.status = .busTimeout) = true := by
  decide +kernel

/-- V-TMO-1: `FILL_RECT 0, 0, 3, 0, 0xF800`, ASYNC, C = 6, a silent transport. -/
theorem test_timeout : nextHas (exec (.fillRect 0 0 3 0 0xF800)
      { State.resetWith { t0 .async 6 with timeoutEnabled := true } with tail := .silent }) (fun t =>
    t.trace = W 0 0 0 0 0 3 0 0 ++ [.block .async [0xF8, 0, 0, 0xF8, 0, 0], .scopeRelease] && t.readReg 0 = 3 &&
    t.readReg 3 = 0x16 && t.readReg 4 = 0 && t.readReg 5 = 6 && t.xfer = some (.b0, 6)) = true := by
  decide +kernel

/-- V-TMO-3: the same in BLOCKING mode without a timeout hangs. -/
theorem test_hang : nextHas (exec (.fillRect 0 0 3 0 0xF800) { State.resetWith (t0 .blocking 6) with tail := .silent }) (fun t =>
    t.readReg 3 = 0x0B && t.stuck && faultIs (step t) .engineStuck) = true := by
  decide +kernel

/-- 3.12: the registers after reset. -/
theorem test_reset_registers :
    (List.range 10).map (State.resetWith (t0 .async 30)).readReg = [0, 0, 0x0001001E, 0, 0, 0, 0, 0, 0x01E00140, 0] ∧
    (State.resetWith { t0 .blocking 30 with timeoutEnabled := true }).readReg 2 = 0x0002001E := by
  decide

/-- `step` runs the descriptor that `withFetchWord` places. -/
theorem test_withFetchWord :
    nextHas (step (State.reset.withFetchWord 32 0x12340010)) (fun t => t.readReg 1 = 0x001044A0 && t.busy = false) = true ∧
    nextHas (step (State.reset.withFetchWord 16 0x0008)) (fun t => t.status = .illegalOperation) = true := by
  decide +kernel

/-- From reset with nothing to submit the run has ended (log entry 8). -/
theorem test_runEnded : faultIs (step State.reset) .runEnded = true := by decide

/-- R248's third condition: with a block outstanding and a silent transport the run has not ended, unless the core is
faulted (V-TMO-1's end). A move that nothing can enable does not hold a lazy transport back. -/
theorem test_runEnded_outstanding :
    faultIs (step asyncBlock) .transportSilent = true ∧ asyncBlock.ended = false ∧
    faultIs (step { faultedCore with tail := .silent }) .runEnded = true ∧
    nextHas (step { asyncBlock with cfg := { asyncBlock.cfg with timeoutEnabled := true }, tail := .lazy, moves := [.timeout] })
      (fun t => t.moves = [] && nextHas (step t) (fun u => u.inFlight = false && faultIs (step u) .runEnded)) = true := by
  decide

/-- R239: a word that the host writes between two operations is what the next one reads. R72: once the host has written it
during the operation, the pixel in the buffer is a free value, and the pixel of the word beside it is not. -/
theorem test_host_writes :
    nextHas (step { withTB State.reset with moves := [.loadWord 0x102 0x07E0] }) (fun t =>
      t.changed = [] && nextHas (exec (.drawBitmap 0 0 1 0x100) t) (fun u =>
        payloads u.trace = [[0, 0xFC, 0, 0, 0, 0xF8]])) = true ∧
    let s : State := { openStream (t0 .blocking 30) 0 with busy := true, moves := [.loadWord 5 0xFFFF] }
    let drawn := fun p => match tick s with
      | .moved t => nextHas (runFor 1 { t with cont := [.store p] }) (fun u => u.draws = t.draws + 1)
      | _ => false
    drawn (.word 5) = true ∧ drawn (.word 6) = false := by
  decide +kernel

/-- Memories are in canonical form: a listed 0 is removed, addresses rise. -/
theorem test_load : Cells.load (Cells.load (Cells.load ([] : Cells 16) 5 7) 3 1) 5 0 = [(3, 1)] ∧
    Memory.write [(3, 1), (7, 2)] 5 0 = [(3, 1), (5, 0), (7, 2)] := by decide

/-- E6's map of `DRAW_BITMAP 10, 20, 2, 0x110`, by the reference receiver: row 22, and no cell of row 24. -/
theorem test_receiver : nextHas (exec (.drawBitmap 10 20 2 0x110) (withTB State.reset)) (fun t =>
    let r := Receiver.start.run Config.testT0 t.trace
    !r.meaningless && (List.range 6).map (fun k => r.at (9 + k) 22) =
      [none, some ⟨0, 0, 0xF8⟩, some ⟨0, 0, 0xF8⟩, some ⟨0xF8, 0xFC, 0xF8⟩, some ⟨0xF8, 0xFC, 0xF8⟩, none] &&
    (List.range 6).all (fun k => r.at (9 + k) 24 = none)) = true := by
  decide +kernel

/-! ## Witnesses: for every obligation with hypotheses, a state and operands that meet them -/

theorem idle_of {s : State} (hb : s.Base s.streamOpen) (hr : s.Closed ∨ s.Opened ∨ s.Faulted) (h : s.busy = false)
    (hc : s.cont = []) (hch : s.changed = [] := by rfl) : s.Idle := by
  refine ⟨?_, h⟩
  simp only [State.Inv, h]
  exact ⟨⟨hb, hr⟩, hc, hch⟩

/-- Where no move is listed, the host changes no resource. -/
theorem steady_of {s : State} (h : s.moves = []) : s.Steady := fun m hm => by rw [h] at hm; cases hm

theorem inv_of {s : State} {p : Phase} (hp : p.Holds s) (h : s.busy = true)
    (hk : Phase.after s.cfg.mode p s.cont = some .ended) : s.Inv := by
  simp only [State.Inv, h]
  exact ⟨p, hp, hk⟩

/-- The reset core, with TG and TB. -/
def core0 : State := withTG (withTB State.reset)

theorem core0_idle : core0.Idle :=
  idle_of
    ⟨by decide, by decide +kernel, by decide +kernel, by decide, by decide, by decide, by decide, by decide, by decide,
      by decide, by decide, by decide, by decide⟩
    (.inl ⟨rfl, rfl, rfl, rfl, rfl⟩) rfl rfl

theorem core0_ready : core0.Ready := ⟨core0_idle, rfl, rfl, (fun h => by cases h), steady_of rfl⟩

theorem openStream_idle : ∀ n ∈ [0, 3, 24, 27], (openStream (t0 .blocking 30) n).Idle := by
  intro n hn
  refine idle_of ⟨?_, ?_, ?_, ?_, ?_, ?_, ?_, ?_, ?_, ?_, ?_, ?_, ?_⟩ (.inr (.inl ⟨rfl, rfl, ?_, rfl, ?_, fun h => by cases h⟩)) rfl rfl <;>
    (revert n; decide +kernel)

theorem openStream_ready {n : Nat} (h : n ∈ [0, 3, 24, 27]) : (openStream (t0 .blocking 30) n).Ready :=
  ⟨openStream_idle n h, rfl, rfl, (fun h => by cases h), steady_of rfl⟩

/-- An open ASYNC stream, C = 6, nothing outstanding, and a silent transport. -/
def asyncOpen (n : Nat) : State := { openStream (t0 .async 6) n with tail := .silent }

theorem asyncOpen_idle : ∀ n ∈ [0, 3], (asyncOpen n).Idle := by
  intro n hn
  refine idle_of ⟨?_, ?_, ?_, ?_, ?_, ?_, ?_, ?_, ?_, ?_, ?_, ?_, ?_⟩ (.inr (.inl ⟨rfl, rfl, ?_, rfl, ?_, fun h => by cases h⟩)) rfl rfl <;>
    (revert n; decide +kernel)

/-- The same with a block outstanding, 3 bytes staged in `buf[1]`. -/
def asyncFlight : State :=
  { State.resetWith (t0 .async 6) with
    buf1 := [(0, 0), (1, 0), (2, 0)], cursor1 := 3, active := .b1, inFlight := true, xfer := some (.b0, 6),
    streamOpen := true, trace := [.scopeAcquire, .block .async [0, 0, 0, 0, 0, 0]], tail := .silent }

theorem asyncFlight_idle : asyncFlight.Idle :=
  idle_of
    ⟨by decide, by decide, by decide, by decide, by decide, by decide, by decide, by decide, by decide, by decide,
      by decide, by decide, by decide⟩
    (.inr (.inl ⟨rfl, rfl, by decide, rfl, by decide, fun _ => ⟨rfl, 6, rfl, by decide, by decide, by decide⟩⟩)) rfl rfl

theorem faultedCore_idle : faultedCore.Idle :=
  idle_of
    ⟨by decide, by decide, by decide, by decide, by decide, by decide, by decide, by decide, by decide, by decide,
      by decide, by decide, by decide⟩
    (.inr (.inr ⟨rfl, rfl, rfl, by decide, fun _ => ⟨6, rfl, by decide, by decide, by decide⟩⟩)) rfl rfl

/-- A busy BLOCKING core with the engine at the wait of a flush (V-TMO-2, V-TMO-3), C = 6, two pixels handed over. -/
def heldCore (timeout : Bool) : State :=
  { State.resetWith { t0 .blocking 6 with timeoutEnabled := timeout } with
    buf0 := [(0, 0), (1, 0), (2, 0), (3, 0), (4, 0), (5, 0)], cursor0 := 6, inFlight := true, xfer := some (.b0, 6),
    streamOpen := true, trace := [.scopeAcquire, .block .blocking [0, 0, 0, 0, 0, 0]], busy := true,
    cont := [.waitIdle, .clearCursor, .finishOp .ok], tail := .silent }

theorem heldCore_inv (timeout : Bool) : (heldCore timeout).Inv := by
  refine inv_of (p := .completing true) ⟨?_, ⟨rfl, rfl, ?_, rfl, ?_⟩, rfl, fun _ => rfl⟩ rfl rfl
  · constructor <;> revert timeout <;> decide
  all_goals revert timeout; decide

/-- The invariant does not look at the other agents' side. -/
theorem heldCore_inv_moves (timeout : Bool) (ms : List Move) (hs : List (List Word)) :
    ({ heldCore timeout with moves := ms, host := hs } : State).Inv :=
  inv_congr (heldCore_inv timeout) rfl rfl rfl rfl

theorem witness_DecodeEncode : (Instr.drawBitmap 1 2 3 0xFFFFFFFF).wellFormed = true := rfl

theorem witness_EncodeDecode : decode [0x0013] = .ok .finish := by decide

/-- Each clause of DecodeChecks has a word sequence of its own. -/
theorem witness_DecodeChecks :
    hi8 0x0101 ≠ 0 ∧ (hi8 0x0008 = 0 ∧ (lo8 0x0008).toNat ∉ [0x01, 0x02, 0x03, 0x04, 0x05, 0x06, 0x07, 0x10, 0x11, 0x12, 0x13]) ∧
    (hi8 0x0005 = 0 ∧ ([0x0005, 0, 0, 0, 0, 0] : List Word).length ≤ 6) ∧
    (([0x0006, 0, 0, 0, 0, 1] : List Word).length ≠ 5 + 1 + 1) ∧ hi8 0x0141 ≠ 0 ∧
    (decode [0x0006, 0, 0, 0, 0, 1, 0x0041]).toOption ≠ none := by decide

theorem witness_MalformedDescriptor : ∃ (s : State) (ws : List Word) (rest : List (List Word)) (e : DecodeError),
    s.Idle ∧ s.envMove = none ∧ s.host = ws :: rest ∧ decode ws = .error e :=
  ⟨{ faultedCore with host := [[0x0008]], tail := .silent }, [0x0008], [], .reservedOpcode,
    ⟨inv_congr faultedCore_idle.1 rfl rfl rfl rfl, rfl⟩, rfl, rfl, by decide⟩

theorem witness_StepRunsDecoded : ∃ (s : State) (ws : List Word) (rest : List (List Word)) (i : Instr),
    s.cfg.Legal ∧ s.busy = false ∧ s.envMove = none ∧ s.host = ws :: rest ∧ decode ws = .ok i :=
  ⟨State.reset.withFetchWord 16 0x0013, [0x0013], [], .finish, by decide, rfl, by decide, by decide, by decide⟩

/-- CONVERT, which never waits, after acceptance and its first step. With a silent transport DRAW_PIXEL is still under way when
the machine rests. -/
theorem witness_LatchHoldsOperation :
    (core0.cfg.Legal ∧ core0.busy = false) ∧
    (∃ t : State, (core0.accept (.convert 5) [.writeResult 7, .finishOp .ok]).busy = true ∧
      tick (core0.accept (.convert 5) [.writeResult 7, .finishOp .ok]) = .moved t ∧ t.busy = true) ∧
    ∃ (i : Instr) (s t : State), exec i s = .next t ∧ t.busy = true := by
  refine ⟨⟨by decide, rfl⟩, ⟨_, rfl, rfl, rfl⟩, ?_⟩
  have h : nextHas (exec (.drawPixel 0 0 0) { State.reset with tail := .silent }) (fun t => t.busy) = true := by
    decide +kernel
  obtain ⟨t, h1, h2⟩ := nextHas_iff h
  exact ⟨_, _, t, h1, h2⟩

theorem witness_RegisterView : ∃ s : State, s.cfg.Legal ∧ s.cursor0 ≤ s.cfg.capacity ∧ s.cursor1 ≤ s.cfg.capacity :=
  ⟨{ State.resetWith (t0 .async 65535) with cursor0 := 65535, cursor1 := 65535 }, by decide, by decide, by decide⟩

theorem witness_HostRead : 8 < 9 ∧ (∃ s : State, s.moves = [.read 9] ∧ s.busy = true) ∧
    ∃ s : State, s.moves = [.read 8] ∧ s.busy = false ∧ s.cfg.Legal :=
  ⟨by decide, ⟨{ heldCore false with moves := [.read 9] }, rfl, rfl⟩, { State.reset with moves := [.read 8] }, rfl, rfl, by decide⟩

/-- The smallest and the largest values of R7. -/
theorem witness_ResetInvariant :
    ({ Config.testT0 with capacity := 3, panelW := 1, panelH := 1, glyphLast := 32, bmemWords := 0 } : Config).Legal ∧
    ({ Config.testT0 with
        capacity := 65535, panelW := 65535, panelH := 65535, glyphLast := 255, bmemWords := 2 ^ 32 } : Config).Legal := by
  decide

theorem witness_ResetMidRun : ∃ (c : Config) (s : State), s.moves = [.done] ∧ s.inFlight = true ∧ s.busy = true ∧
    c.Legal ∧ Memory.wfZero s.bmem ∧ Memory.wfZero s.glyphs :=
  ⟨t0 .async 3, { heldCore false with moves := [.done] }, rfl, rfl, rfl, by decide, by decide, by decide⟩

theorem witness_ConvertFunction : convertColor 0x1234 = convertColor 0x1234 := rfl

theorem witness_ConvertCompletes : (core0.Idle ∧ core0.Steady) ∧ (faultedCore.Idle ∧ faultedCore.Steady) ∧
    asyncFlight.Idle ∧ asyncFlight.Steady :=
  ⟨⟨core0_idle, steady_of rfl⟩, ⟨faultedCore_idle, steady_of rfl⟩, asyncFlight_idle, steady_of rfl⟩

/-- The premises of SetWindowCompletes and WindowNormalised, with no stream open and in one, at the panel's far corner. -/
theorem witness_SetWindowCompletes : core0.Ready ∧ (openStream (t0 .blocking 30) 3).Ready ∧
    max (319 : Word).toNat (0 : Word).toNat < core0.cfg.panelW ∧ max (0 : Word).toNat (479 : Word).toNat < core0.cfg.panelH :=
  ⟨core0_ready, openStream_ready (by decide), by decide, by decide⟩

theorem witness_WindowNormalised : core0.Ready ∧
    max (319 : Word).toNat (0 : Word).toNat < core0.cfg.panelW ∧ max (0 : Word).toNat (479 : Word).toNat < core0.cfg.panelH :=
  ⟨core0_ready, by decide, by decide⟩

/-- The last push that does not fill the buffer, and the one that does, C = 30. -/
theorem witness_PushPixelCompletes :
    ((openStream (t0 .blocking 30) 24).Ready ∧ (openStream (t0 .blocking 30) 24).streamOpen = true ∧ ¬ 30 < 24 + 3 + 3) ∧
    ((openStream (t0 .blocking 30) 27).Ready ∧ (openStream (t0 .blocking 30) 27).streamOpen = true ∧ 30 < 27 + 3 + 3) :=
  ⟨⟨openStream_ready (by decide), rfl, by decide⟩, openStream_ready (by decide), rfl, by decide⟩

theorem witness_FlushTrigger :
    ((openStream (t0 .blocking 30) 24).Ready ∧ 24 + 3 ≠ 3 * (30 / 3)) ∧
    ((openStream (t0 .blocking 30) 27).Ready ∧ 27 + 3 = 3 * (30 / 3)) ∧
    ∃ s t : State, s.Inv ∧ step s = .next t ∧ 3 * (s.cfg.capacity / 3) ≤ 30 := by
  refine ⟨⟨openStream_ready (by decide), by decide⟩, ⟨openStream_ready (by decide), by decide⟩, ?_⟩
  obtain ⟨t, h, _⟩ := nextHas_iff (o := step { core0 with host := [[0x0013]] }) (p := fun _ => true) (by decide +kernel)
  exact ⟨{ core0 with host := [[0x0013]] }, t, inv_congr core0_idle.1 rfl rfl rfl rfl, h, by decide⟩

/-- A `push_pixel` about to test whether to flush, its buffer full and not full, C = 6. -/
theorem witness_FlushTrigger_step : ∀ n ∈ [3, 6],
    let s := { asyncOpen n with busy := true, cont := [.flushIfFull, .finishOp .ok] }
    s.Inv ∧ s.busy = true ∧ s.envMove = none ∧ s.cont = [.flushIfFull, .finishOp .ok] ∧ s.cursor s.active = n := by
  intro n hn
  refine ⟨inv_of (p := .advanced) ⟨?_, ⟨rfl, rfl, ?_, rfl, ?_⟩, fun h => by cases h⟩ rfl rfl, rfl, rfl, rfl, rfl⟩
  · constructor <;> revert n <;> decide
  all_goals revert n; decide

theorem witness_FinishCompletes :
    (core0.Ready ∧ core0.streamOpen = false) ∧
    ((openStream (t0 .blocking 30) 0).Ready ∧ (openStream (t0 .blocking 30) 0).streamOpen = true ∧
      (openStream (t0 .blocking 30) 0).staged = []) ∧
    ((openStream (t0 .blocking 30) 3).Ready ∧ (openStream (t0 .blocking 30) 3).streamOpen = true ∧
      (openStream (t0 .blocking 30) 3).staged ≠ []) :=
  ⟨⟨core0_ready, rfl⟩, ⟨openStream_ready (by decide), rfl, by decide⟩, openStream_ready (by decide), rfl, by decide⟩

/-- C = 6 and three pixels: one whole block, and a remainder. -/
theorem witness_StreamLaw : ∃ (c : Config) (st : Stream), 3 ≤ c.capacity ∧ 0 < st.pixels.length / (c.capacity / 3) ∧
    0 < st.pixels.length % (c.capacity / 3) :=
  ⟨t0 .async 6, ⟨⟨0, 0, 2, 0⟩, List.replicate 3 ⟨0, 0, 0⟩⟩, by decide, by decide, by decide⟩

theorem witness_LowLevelStream : core0.Ready ∧
    max (319 : Word).toNat (0 : Word).toNat < core0.cfg.panelW ∧ max (0 : Word).toNat (479 : Word).toNat < core0.cfg.panelH :=
  ⟨core0_ready, by decide, by decide⟩

theorem witness_DrawPixelCompletes :
    core0.Ready ∧ (319 : Word).toNat < core0.cfg.panelW ∧ (479 : Word).toNat < core0.cfg.panelH :=
  ⟨core0_ready, by decide, by decide⟩

theorem witness_FillRectCompletes : core0.Ready ∧
    max (319 : Word).toNat (0 : Word).toNat < core0.cfg.panelW ∧ max (0 : Word).toNat (479 : Word).toNat < core0.cfg.panelH :=
  ⟨core0_ready, by decide, by decide⟩

/-- V-GLY-2 and V-GLY-8 together; a set bit and a clear one of TG(65). -/
theorem witness_DrawFastGlyphCompletes : core0.Ready ∧ (312 : Word).toNat + 7 < core0.cfg.panelW ∧
    (467 : Word).toNat + 12 < core0.cfg.panelH ∧
    (32 ≤ (65 : Byte).toNat ∧ (65 : Byte).toNat ≤ core0.cfg.glyphLast ∧ (glyphRow core0.glyphs 65 1).getLsbD (7 - 3) = true) ∧
    (glyphRow core0.glyphs 65 0).getLsbD (7 - 3) = false :=
  ⟨core0_ready, by decide, by decide, by decide +kernel, by decide +kernel⟩

/-- V-GLY-13: the largest scale at the origin. -/
theorem witness_DrawGlyphCompletes : core0.Ready ∧ (36 : Word) ≠ 0 ∧
    (0 : Word).toNat + 8 * (36 : Word).toNat - 1 < core0.cfg.panelW ∧
    (11 : Word).toNat + 13 * (36 : Word).toNat - 1 < core0.cfg.panelH :=
  ⟨core0_ready, by decide, by decide, by decide⟩

/-- Scale 1, two characters that end at x = 319 (V-STR-6). -/
theorem witness_DrawStringCompletes : core0.Ready ∧ (1 : Word) ≠ 0 ∧ ([65, 66] : List Byte) ≠ [] ∧
    (303 : Word).toNat + 9 * (1 : Word).toNat * (([65, 66] : List Byte).length - 1) + 8 * (1 : Word).toNat - 1 < core0.cfg.panelW ∧
    (467 : Word).toNat + 13 * (1 : Word).toNat - 1 < core0.cfg.panelH :=
  ⟨core0_ready, by decide, by decide, by decide, by decide⟩

theorem witness_DrawFastStringCompletes : core0.Ready ∧ ([65, 66] : List Byte) ≠ [] ∧
    (303 : Word).toNat + 9 * (([65, 66] : List Byte).length - 1) + 7 < core0.cfg.panelW ∧
    (467 : Word).toNat + 12 < core0.cfg.panelH :=
  ⟨core0_ready, by decide, by decide, by decide⟩

/-- V-BMP-11. -/
theorem witness_DrawBitmapCompletes : core0.Ready ∧ (1 : Word) ≠ 0 ∧ (0x100 : BitVec 32).toNat + 1 < core0.cfg.bmemWords ∧
    (Cells.get core0.bmem 0x100).toNat = 2 ∧ (Cells.get core0.bmem 0x101).toNat = 1 ∧
    (318 : Word).toNat + 2 * 1 - 1 < core0.cfg.panelW ∧ (479 : Word).toNat + 1 * 1 - 1 < core0.cfg.panelH ∧
    0x100 + 2 + 2 * 1 ≤ core0.cfg.bmemWords :=
  ⟨core0_ready, by decide, by decide, by decide +kernel, by decide +kernel, by decide, by decide, by decide⟩

/-- Width 0, height 0, and a header in the last two words. -/
theorem witness_EmptySources : core0.Idle ∧ core0.Steady ∧ core0.faulted = false ∧ (1 : Word) ≠ 0 ∧
    Cells.get core0.bmem 0x120 = 0 ∧ (Cells.get core0.bmem 0x130 ≠ 0 ∧ Cells.get core0.bmem 0x131 = 0) ∧
    (0x1FE + 1 < core0.cfg.bmemWords ∧ Cells.get core0.bmem 0x1FE = 0) :=
  ⟨core0_idle, steady_of rfl, rfl, by decide, by decide +kernel, by decide +kernel, by decide +kernel⟩

theorem witness_FillCount : core0.Ready ∧
    max (319 : Word).toNat (0 : Word).toNat < core0.cfg.panelW ∧ max (0 : Word).toNat (479 : Word).toNat < core0.cfg.panelH :=
  ⟨core0_ready, by decide, by decide⟩

theorem witness_GlyphCounts : core0.Ready ∧ (1 : Word) ≠ 0 ∧ ([65, 66] : List Byte) ≠ [] ∧
    (303 : Word).toNat + 9 * (1 : Word).toNat * (([65, 66] : List Byte).length - 1) + 8 * (1 : Word).toNat - 1 < core0.cfg.panelW ∧
    (467 : Word).toNat + 13 * (1 : Word).toNat - 1 < core0.cfg.panelH ∧
    (303 : Word).toNat + 9 * (([65, 66] : List Byte).length - 1) + 7 < core0.cfg.panelW ∧ (467 : Word).toNat + 12 < core0.cfg.panelH :=
  ⟨core0_ready, by decide, by decide, by decide, by decide, by decide, by decide⟩

/-- The codes next to the range, 31 and 127 (V-GLY-10, V-GLY-11). -/
theorem witness_UnsupportedGlyphBlank : core0.Ready ∧ (31 : Byte).toNat < 32 ∧ core0.cfg.glyphLast < (127 : Byte).toNat ∧
    (312 : Word).toNat + 7 < core0.cfg.panelW ∧ (467 : Word).toNat + 12 < core0.cfg.panelH ∧ (1 : Word) ≠ 0 :=
  ⟨core0_ready, by decide, by decide, by decide, by decide, by decide⟩

theorem witness_FaultedEnds : faultedCore.Idle ∧ faultedCore.Steady ∧ faultedCore.faulted = true ∧ ∀ c, Instr.finish ≠ .convert c :=
  ⟨faultedCore_idle, steady_of rfl, rfl, fun _ h => by cases h⟩

/-- One beyond the panel, in either direction, for each operation. -/
theorem witness_OffPanelEnds : core0.Idle ∧ core0.Steady ∧ core0.faulted = false ∧
    core0.cfg.panelW ≤ (320 : Word).toNat ∧ core0.cfg.panelH ≤ (480 : Word).toNat ∧
    core0.cfg.panelW ≤ (313 : Word).toNat + 7 ∧ core0.cfg.panelH ≤ (468 : Word).toNat + 12 ∧
    core0.cfg.panelH ≤ (0 : Word).toNat + 13 * (37 : Word).toNat - 1 ∧
    core0.cfg.panelW ≤ (304 : Word).toNat + 9 * (1 : Word).toNat * (([65, 66] : List Byte).length - 1) + 8 * (1 : Word).toNat - 1 ∧
    core0.cfg.panelW ≤ (304 : Word).toNat + 9 * (([65, 66] : List Byte).length - 1) + 7 ∧
    (0x100 + 1 < core0.cfg.bmemWords ∧ (Cells.get core0.bmem 0x100).toNat = 2 ∧ (Cells.get core0.bmem 0x101).toNat = 1 ∧
      core0.cfg.panelW ≤ (319 : Word).toNat + 2 * (1 : Word).toNat - 1) :=
  ⟨core0_idle, steady_of rfl, rfl, by decide, by decide, by decide, by decide, by decide, by decide, by decide, by decide +kernel⟩

theorem witness_ScaleZeroEnds : core0.Idle ∧ core0.Steady ∧ core0.faulted = false := ⟨core0_idle, steady_of rfl, rfl⟩

/-- V-BMP-6 and V-BMP-8. -/
theorem witness_MemoryFaultEnds : core0.Idle ∧ core0.Steady ∧ core0.faulted = false ∧ (1 : Word) ≠ 0 ∧ core0.cfg.bmemWords ≤ 0x1FF + 1 ∧
    (0x1FC + 1 < core0.cfg.bmemWords ∧ (Cells.get core0.bmem 0x1FC).toNat = 3 ∧ (Cells.get core0.bmem 0x1FD).toNat = 3 ∧
      0 + 3 * 1 - 1 < core0.cfg.panelW ∧ 0 + 3 * 1 - 1 < core0.cfg.panelH ∧ core0.cfg.bmemWords < 0x1FC + 2 + 3 * 3) :=
  ⟨core0_idle, steady_of rfl, rfl, by decide, by decide, by decide +kernel⟩

theorem witness_PushWithoutStream : core0.Idle ∧ core0.Steady ∧ core0.faulted = false ∧ core0.streamOpen = false := ⟨core0_idle, steady_of rfl, rfl, rfl⟩

theorem witness_StatusTable :
    (∃ (i : Instr) (s t : State), s.Idle ∧ exec i s = .next t ∧ t.busy = false ∧ t.status = .memoryFault) ∧
    ∃ (ws : List Word) (e : DecodeError) (s t : State), s.Idle ∧ decode ws = .error e ∧ submit ws s = .next t := by
  constructor
  · obtain ⟨t, h1, h2⟩ := nextHas_iff (o := exec (.drawBitmap 0 0 1 0x1FF) core0)
      (p := fun t => !t.busy && t.status = .memoryFault) (by decide +kernel)
    simp only [Bool.and_eq_true, Bool.not_eq_true', decide_eq_true_eq] at h2
    exact ⟨_, _, t, core0_idle, h1, h2.1, h2.2⟩
  · exact ⟨[], .emptySequence, core0, _, core0_idle, rfl, rfl⟩

/-- A step of the host, and one of the timeout agent; a single step within an operation; a core that accepts one. -/
theorem witness_StepKeepsInvariant :
    ((∃ s t : State, s.Inv ∧ s.busy = false ∧ step s = .next t) ∧ ∃ s t : State, s.Inv ∧ s.busy = true ∧ step s = .next t) ∧
    (∃ s t : State, s.Inv ∧ s.busy = true ∧ tick s = .moved t) ∧ core0.Idle := by
  obtain ⟨t, h1, _⟩ := nextHas_iff (o := step { core0 with host := [[0x0013]] }) (p := fun _ => true) (by decide +kernel)
  obtain ⟨u, h2, _⟩ := nextHas_iff (o := step { heldCore true with moves := [.timeout] }) (p := fun _ => true) (by decide +kernel)
  exact ⟨⟨⟨{ core0 with host := [[0x0013]] }, t, inv_congr core0_idle.1 rfl rfl rfl rfl, rfl, h1⟩, _, u,
    heldCore_inv_moves _ _ _, rfl, h2⟩,
    ⟨{ heldCore false with moves := [.loadWord 5 1] }, _, heldCore_inv_moves _ _ _, rfl, rfl⟩, core0_idle⟩

theorem asyncBlock_idle : asyncBlock.Idle :=
  idle_of
    ⟨by decide, by decide, by decide, by decide, by decide, by decide, by decide, by decide, by decide, by decide,
      by decide, by decide, by decide⟩
    (.inr (.inl ⟨rfl, rfl, by decide, rfl, by decide, fun _ => ⟨rfl, 6, rfl, by decide, by decide, by decide⟩⟩)) rfl rfl

/-- Each of the four cases, and the run's end with a block that will never be completed. -/
theorem witness_StepOutcomes :
    (∃ s t : State, s.Inv ∧ step s = .next t) ∧
    ((heldCore false).Inv ∧ (heldCore false).busy = true ∧ (heldCore false).held = true ∧ (heldCore false).envMove = none) ∧
    (core0.Inv ∧ core0.ended = true) ∧
    (asyncBlock.Inv ∧ asyncBlock.busy = false ∧ asyncBlock.host = [] ∧ asyncBlock.moves = [] ∧ asyncBlock.tail = .silent ∧
      asyncBlock.inFlight = true ∧ asyncBlock.faulted = false) ∧
    { faultedCore with tail := .silent }.cfg.Legal ∧ { faultedCore with tail := .silent }.ended = true := by
  obtain ⟨⟨⟨s, t, h1, _, h2⟩, _⟩, _⟩ := witness_StepKeepsInvariant
  exact ⟨⟨s, t, h1, h2⟩, ⟨heldCore_inv false, rfl, rfl, rfl⟩, ⟨core0_idle.1, rfl⟩,
    ⟨asyncBlock_idle.1, rfl, rfl, rfl, rfl, rfl, rfl⟩, by decide, rfl⟩

/-- A block outstanding after a step, in either mode. -/
theorem witness_ExclusiveOwnership :
    (∃ s t : State, s.Inv ∧ step s = .next t ∧ t.inFlight = true ∧ t.cfg.mode = .async) ∧
    ∃ s t : State, s.Inv ∧ step s = .next t ∧ t.inFlight = true ∧ t.cfg.mode = .blocking := by
  obtain ⟨t, h1, h2⟩ := nextHas_iff (o := step { asyncOpen 3 with host := [[0x0012, 0]] })
    (p := fun t => t.inFlight && t.cfg.mode = .async) (by decide +kernel)
  obtain ⟨u, h3, h4⟩ := nextHas_iff (o := step { heldCore false with moves := [.read 3] })
    (p := fun t => t.inFlight && t.cfg.mode = .blocking) (by decide +kernel)
  simp only [Bool.and_eq_true, decide_eq_true_eq] at h2 h4
  exact ⟨⟨{ asyncOpen 3 with host := [[0x0012, 0]] }, t,
      inv_congr (asyncOpen_idle 3 (by decide)).1 rfl rfl rfl rfl, h1, h2⟩, _, u, heldCore_inv_moves _ _ _, h3, h4⟩

theorem witness_InFlightNeedsStream : (asyncFlight.Inv ∧ asyncFlight.inFlight = true ∧ asyncFlight.streamOpen = true) ∧
    faultedCore.Inv ∧ faultedCore.inFlight = true ∧ faultedCore.faulted = true :=
  ⟨⟨asyncFlight_idle.1, rfl, rfl⟩, faultedCore_idle.1, rfl, rfl⟩

/-- About to write the last pixel that fits, a block outstanding from the other buffer. -/
theorem witness_BufferWritesInBounds : ∃ (s : State) (p : Ink) (k : List EStep),
    s.Inv ∧ s.busy = true ∧ s.cont = .store p :: k ∧ s.cursor s.active + 3 = s.cfg.capacity ∧ s.inFlight = true :=
  ⟨{ asyncFlight with busy := true, cont := [.store (.word 9), .advance, .flushIfFull, .finishOp .ok] }, .word 9, _,
    inv_of (p := .opened)
      ⟨asyncFlight_idle.rest.1.1.congr rfl, rfl, rfl, by decide, rfl, by decide,
        fun _ => ⟨rfl, 6, rfl, by decide, by decide, by decide⟩⟩ rfl rfl,
    rfl, rfl, rfl, rfl⟩

theorem witness_IssuedBytesWritten : ∃ (s : State) (k : List EStep), s.Inv ∧ s.busy = true ∧ s.cont = .issue :: k ∧
    5 < s.cursor s.flushIx :=
  ⟨{ heldCore false with
      inFlight := false, xfer := none, trace := [.scopeAcquire],
      cont := [.issue, .waitIdle, .clearCursor, .finishOp .ok] }, _,
    inv_of (p := .issuing true)
      ⟨⟨by decide, by decide, by decide, by decide, by decide, by decide, by decide, by decide, by decide, by decide,
        by decide, by decide, by decide⟩, ⟨rfl, rfl, by decide, rfl, by decide⟩, rfl⟩ rfl rfl,
    rfl, rfl, by decide⟩

/-- With a block among the events. -/
theorem witness_CompletionsMatchBlocks : ∃ (i : Instr) (s t : State), s.Ready ∧ exec i s = .next t ∧ blockCount t.trace = 1 := by
  obtain ⟨t, h1, h2⟩ := nextHas_iff (o := exec (.drawPixel 5 7 0) core0) (p := fun t => blockCount t.trace = 1) (by decide +kernel)
  exact ⟨_, _, t, core0_ready, h1, by simpa using h2⟩

/-- For its clauses about reads: a busy core in an open stream, the engine about to take the step `e`. -/
def readCore (e : EStep) (changed : List Source) : State :=
  { openStream (t0 .blocking 30) 0 with busy := true, cont := [e], changed := changed }

/-- Each clause, at the codes next to the glyph range and at the last word; with the cell changed and not. -/
theorem witness_ConfigurationFixed :
    (∃ s t : State, step s = .next t ∧ s.Steady) ∧
    (∃ s : State, Memory.wfZero s.bmem ∧ s.moves = [.loadWord 511 0] ∧ s.busy = true) ∧
    (∃ s : State, Memory.wfZero s.glyphs ∧ s.moves = [.loadRow 255 12 0] ∧ s.busy = false) ∧
    (∀ p : Ink, ∀ l : List Source, (readCore (.store p) l).busy = true ∧ (readCore (.store p) l).envMove = none ∧
      ∃ t, tick (readCore (.store p) l) = .moved t) ∧
    (∀ (x y sc : Word) (base : BitVec 32) (l : List Source), (readCore (.readHeader x y sc base) l).busy = true ∧
      (readCore (.readHeader x y sc base) l).envMove = none) ∧
    Source.word 511 ∉ (readCore (.store (.word 511)) []).changed ∧
    Source.row 126 12 ∈ (readCore (.store (.bit 126 7 12 1 0)) [.row 126 12]).changed ∧
    (31 : Byte).toNat < 32 ∧ Config.testT0.glyphLast < (127 : Byte).toNat ∧
    32 ≤ (126 : Byte).toNat ∧ (126 : Byte).toNat ≤ Config.testT0.glyphLast := by
  obtain ⟨t, h, _⟩ := nextHas_iff (o := step { core0 with host := [[0x0013]] }) (p := fun _ => true) (by decide +kernel)
  exact ⟨⟨{ core0 with host := [[0x0013]] }, t, h, steady_of rfl⟩,
    ⟨{ heldCore false with moves := [.loadWord 511 0] }, by decide, rfl, rfl⟩,
    ⟨{ core0 with moves := [.loadRow 255 12 0] }, core0_idle.rest.1.1.glyphsWf, rfl, rfl⟩,
    fun p l => ⟨rfl, rfl, _, rfl⟩, fun _ _ _ _ _ => ⟨rfl, rfl⟩, by decide, by decide, by decide, by decide, by decide, by decide⟩

theorem witness_ResultAndWindowWriters :
    (∃ s t : State, exec .finish s = .next t) ∧ (∃ (c : Word) (s t : State), exec (.pushPixel c) s = .next t) ∧
    ∃ (c : Word) (s t : State), exec (.convert c) s = .next t := by
  obtain ⟨t, h1, _⟩ := nextHas_iff (o := exec .finish core0) (p := fun _ => true) (by decide +kernel)
  obtain ⟨u, h2, _⟩ := nextHas_iff (o := exec (.pushPixel 5) core0) (p := fun _ => true) (by decide +kernel)
  obtain ⟨v, h3, _⟩ := nextHas_iff (o := exec (.convert 5) core0) (p := fun _ => true) (by decide +kernel)
  exact ⟨⟨_, t, h1⟩, ⟨_, _, u, h2⟩, _, _, v, h3⟩

theorem witness_StatusWrittenAtEnd : (∃ s t : State, step s = .next t ∧ t.busy = true) ∧
    ∃ s t : State, step s = .next t ∧ s.busy = false ∧ s.envMove = some t := by
  constructor
  · obtain ⟨t, h1, h2⟩ := nextHas_iff (o := step { heldCore false with moves := [.read 3] }) (p := fun t => t.busy) (by decide +kernel)
    exact ⟨_, t, h1, h2⟩
  · exact ⟨{ faultedCore with moves := [.done] }, _, rfl, rfl, rfl⟩

theorem witness_BusyPortTakesNothing : (∃ s t : State, s.busy = true ∧ step s = .next t ∧ s.host ≠ []) ∧
    (heldCore false).cfg.Legal ∧ (heldCore false).busy = true := by
  obtain ⟨t, h1, _⟩ := nextHas_iff (o := step { heldCore false with moves := [.done], host := [[0x0013]] }) (p := fun _ => true)
    (by decide +kernel)
  exact ⟨⟨_, t, rfl, h1, by simp⟩, by decide, rfl⟩

/-- Each bound of R7, just missed. -/
theorem witness_IllegalConfigurationRefused :
    (t0 .blocking 2).capacity < 3 ∧ 65535 < (t0 .async 65536).capacity ∧ ({ Config.testT0 with panelW := 0 } : Config).panelW = 0 ∧
    65535 < ({ Config.testT0 with panelW := 65536 } : Config).panelW ∧ ({ Config.testT0 with panelH := 0 } : Config).panelH = 0 ∧
    65535 < ({ Config.testT0 with panelH := 65536 } : Config).panelH ∧
    ({ Config.testT0 with glyphLast := 31 } : Config).glyphLast < 32 ∧
    255 < ({ Config.testT0 with glyphLast := 256 } : Config).glyphLast ∧
    2 ^ 32 < ({ Config.testT0 with bmemWords := 2 ^ 32 + 1 } : Config).bmemWords := by decide

/-- A listed `done`: nothing outstanding, busy, idle. A lazy transport: nothing outstanding, the engine not held, the host with
a descriptor to submit, held, and beside an idle core. -/
theorem witness_TransferDoneStep :
    (∃ s : State, s.moves = [.done] ∧ s.inFlight = false) ∧
    (∃ s : State, s.moves = [.done] ∧ s.inFlight = true ∧ s.busy = true) ∧
    (∃ s : State, s.moves = [.done] ∧ s.inFlight = true ∧ s.busy = false ∧ s.cfg.Legal) ∧
    (∃ s : State, s.moves = [] ∧ s.tail = .lazy ∧ s.inFlight = false) ∧
    (∃ s : State, s.moves = [] ∧ s.tail = .lazy ∧ s.inFlight = true ∧ s.busy = true ∧ s.held = false) ∧
    (∃ s : State, s.moves = [] ∧ s.tail = .lazy ∧ s.inFlight = true ∧ s.busy = false ∧ s.host ≠ []) ∧
    (∃ s : State, s.moves = [] ∧ s.tail = .lazy ∧ s.busy = true ∧ s.held = true) ∧
    ∃ s : State, s.moves = [] ∧ s.tail = .lazy ∧ s.busy = false ∧ s.host = [] ∧ s.inFlight = true ∧ s.cfg.Legal :=
  ⟨⟨{ core0 with moves := [.done] }, rfl, rfl⟩, ⟨{ heldCore false with moves := [.done] }, rfl, rfl, rfl⟩,
    ⟨{ faultedCore with moves := [.done] }, rfl, rfl, rfl, by decide⟩, ⟨core0, rfl, rfl, rfl⟩,
    ⟨{ heldCore false with tail := .lazy, cont := [.finishOp .ok] }, rfl, rfl, rfl, rfl, rfl⟩,
    ⟨{ asyncBlock with tail := .lazy, host := [[0x0013]] }, rfl, rfl, rfl, rfl, by decide⟩,
    ⟨{ heldCore false with tail := .lazy }, rfl, rfl, rfl, rfl⟩,
    { asyncBlock with tail := .lazy }, rfl, rfl, rfl, rfl, rfl, by decide⟩

/-- Without the timeout event; with it, not held, held, and held beside a silent transport. -/
theorem witness_TimeoutAborts :
    (∃ s : State, s.cfg.timeoutEnabled = false ∧ s.moves = [.timeout] ∧ s.held = true) ∧
    (∃ s : State, s.moves = [.timeout] ∧ s.cfg.timeoutEnabled = true ∧ s.held = false) ∧
    (∃ s : State, s.moves = [.timeout] ∧ s.cfg.timeoutEnabled = true ∧ s.held = true ∧ s.cfg.Legal ∧ s.streamOpen = true) ∧
    ∃ s : State, s.moves = [] ∧ s.tail = .silent ∧ s.cfg.timeoutEnabled = true ∧ s.held = true ∧ s.cfg.Legal :=
  ⟨⟨{ heldCore false with moves := [.timeout] }, rfl, rfl, rfl⟩,
    ⟨{ heldCore true with moves := [.timeout], cont := [.finishOp .ok] }, rfl, rfl, rfl⟩,
    ⟨{ heldCore true with moves := [.timeout] }, rfl, rfl, rfl, by decide, rfl⟩, heldCore true, rfl, rfl, rfl, rfl, by decide⟩

theorem witness_OnlyTimeoutFaults : (∃ s t : State, step s = .next t ∧ s.faulted = true) ∧
    ∃ s t : State, step s = .next t ∧ s.faulted = false ∧ t.faulted = true := by
  constructor
  · exact ⟨{ faultedCore with moves := [.done] }, _, rfl, rfl⟩
  · obtain ⟨t, h1, h2⟩ := nextHas_iff (o := step { heldCore true with moves := [.timeout] }) (p := fun t => t.faulted) (by decide +kernel)
    exact ⟨_, t, h1, rfl, h2⟩

theorem witness_HangIsStuck :
    (heldCore false).cfg.Legal ∧ (heldCore false).held = true ∧ (heldCore false).moves = [] ∧
    (heldCore false).tail = .silent ∧ (heldCore false).cfg.timeoutEnabled = false :=
  ⟨by decide, rfl, rfl, rfl, rfl⟩

theorem witness_SilentTransportHangs : ∃ s : State, s.Idle ∧ s.faulted = false ∧ s.streamOpen = false ∧ s.moves = [] ∧
    s.tail = .silent ∧ s.cfg.timeoutEnabled = false ∧ (319 : Word).toNat < s.cfg.panelW ∧ (479 : Word).toNat < s.cfg.panelH :=
  ⟨{ core0 with tail := .silent }, ⟨inv_congr core0_idle.1 rfl rfl rfl rfl, rfl⟩, rfl, rfl, rfl, rfl, rfl, by decide, by decide⟩

/-- SilentTransportHangs' own case in small, worked out by hand from R131: C = 3 in BLOCKING mode. -/
theorem test_silent_drawPixel :
    nextHas (exec (.drawPixel 1 2 0xF800) { State.resetWith (t0 .blocking 3) with tail := .silent }) (fun t =>
      t.busy && t.inFlight && t.trace = W 0 1 0 2 0 2 0 3 ++ [.block .blocking [0xF8, 0, 0]] &&
      faultIs (step t) .engineStuck) = true := by
  decide +kernel

/-- Not full, full with nothing outstanding, full with a block outstanding. -/
theorem witness_Backpressure :
    ((asyncOpen 0).Idle ∧ (asyncOpen 0).streamOpen = true ∧ (asyncOpen 0).tail = .silent ∧ ¬ 6 < 0 + 3 + 3) ∧
    ((asyncOpen 3).Idle ∧ 6 < 3 + 3 + 3 ∧ (asyncOpen 3).inFlight = false) ∧
    (asyncFlight.Idle ∧ asyncFlight.faulted = false ∧ asyncFlight.streamOpen = true ∧ asyncFlight.cfg.mode = .async ∧
      asyncFlight.moves = [] ∧ asyncFlight.tail = .silent ∧ asyncFlight.cfg.timeoutEnabled = false ∧
      asyncFlight.cfg.capacity < asyncFlight.cursor asyncFlight.active + 3 + 3 ∧ asyncFlight.inFlight = true) :=
  ⟨⟨asyncOpen_idle 0 (by decide), rfl, rfl, by decide⟩, ⟨asyncOpen_idle 3 (by decide), by decide, rfl⟩,
    asyncFlight_idle, rfl, rfl, rfl, rfl, rfl, rfl, by decide, rfl⟩

/-- Two states that differ in the schedule, and in whether the outstanding block has been completed. -/
theorem witness_ScheduleIndependence : ∃ s s' : State, s.Idle ∧ s'.Idle ∧ s.Quiet ∧ s'.Quiet ∧ s.calm = s'.calm ∧
    s.inFlight ≠ s'.inFlight ∧ s.moves ≠ s'.moves :=
  ⟨{ asyncFlight with tail := .lazy },
    { asyncFlight with
      tail := .lazy, moves := [.stay, .read 3], inFlight := false, xfer := none, trace := asyncFlight.trace ++ [.done] },
    ⟨inv_congr asyncFlight_idle.1 rfl rfl rfl rfl, rfl⟩,
    idle_of
      ⟨by decide, by decide, by decide, by decide, by decide, by decide, by decide, by decide, by decide, by decide,
        by decide, by decide, by decide⟩
      (.inr (.inl ⟨rfl, rfl, by decide, rfl, by decide, fun h => by cases h⟩)) rfl rfl,
    ⟨rfl, (fun h => by cases h), steady_of rfl⟩, ⟨rfl, (fun h => by cases h), fun m hm => by simp only [List.mem_cons, List.not_mem_nil, or_false] at hm; rcases hm with rfl | rfl <;> rfl⟩,
    by decide, by decide, by decide⟩

/-- A window of one cell in the panel's corner, full. -/
theorem witness_StreamLands : ∃ (c : Config) (st : Stream), 3 ≤ c.capacity ∧ CommandsDistinct c ∧
    st.win.x1.toNat ≤ st.win.x2.toNat ∧ st.win.y1.toNat ≤ st.win.y2.toNat ∧ st.win.x2.toNat < c.panelW ∧
    st.win.y2.toNat < c.panelH ∧
    st.pixels.length = (st.win.x2.toNat - st.win.x1.toNat + 1) * (st.win.y2.toNat - st.win.y1.toNat + 1) :=
  ⟨Config.testT0, ⟨⟨319, 479, 319, 479⟩, [⟨0, 0, 0⟩]⟩, by decide, ⟨by decide, by decide, by decide⟩, by decide, by decide,
    by decide, by decide, by decide⟩

theorem witness_PixelLands : core0.Ready ∧ CommandsDistinct core0.cfg ∧ (318 : Word).toNat + 1 < core0.cfg.panelW ∧
    (478 : Word).toNat + 1 < core0.cfg.panelH :=
  ⟨core0_ready, ⟨by decide, by decide, by decide⟩, by decide, by decide⟩

theorem witness_BitmapLands : core0.Ready ∧ CommandsDistinct core0.cfg ∧ (1 : Word) ≠ 0 ∧
    (0x100 : BitVec 32).toNat + 1 < core0.cfg.bmemWords ∧ (Cells.get core0.bmem 0x100).toNat = 2 ∧
    (Cells.get core0.bmem 0x101).toNat = 1 ∧ (318 : Word).toNat + 2 * 1 - 1 < core0.cfg.panelW ∧
    (478 : Word).toNat + 1 * 1 < core0.cfg.panelH ∧ 0x100 + 2 + 2 * 1 ≤ core0.cfg.bmemWords :=
  ⟨core0_ready, ⟨by decide, by decide, by decide⟩, by decide, by decide, by decide +kernel, by decide +kernel, by decide,
    by decide, by decide⟩

end Sys2Proof.Tests
end

section
/-! PROOF. What a step of the machine comes to, and where the invariant lets the engine stand. -/

namespace Sys2Proof.Machine

/-! ## Moves of the other agents -/

/-- What a move of another agent does: besides its place in the list of moves, nothing, or TransferDone (R127), or the
timeout at a wait (R213), or one of the host's reads and writes (R37, R239). -/
theorem envMove_cases {s t : State} (h : s.envMove = some t) : ∃ ms : List Move, ms <:+ s.moves ∧
    (t = { s with moves := ms } ∨
     (s.inFlight = true ∧ t = State.transferDone { s with moves := ms }) ∨
     (s.held = true ∧ t = State.timeoutEvent { s with moves := ms }) ∨
     (∃ n, t = State.hostRead { s with moves := ms } n) ∨
     (∃ a w, Move.loadWord a w ∈ s.moves ∧ t = State.hostWord { s with moves := ms } a w) ∨
     (∃ code j v, Move.loadRow code j v ∈ s.moves ∧ t = State.hostRow { s with moves := ms } code j v)) := by
  unfold State.envMove at h
  split at h
  case h_1 ms hm =>
    split at h <;> cases h
    exact ⟨ms, ⟨[_], hm.symm⟩, .inr (.inl ⟨by assumption, rfl⟩)⟩
  case h_2 ms hm =>
    refine ⟨ms, ⟨[_], hm.symm⟩, ?_⟩
    split at h
    · split at h <;> cases h
      exact .inr (.inr (.inl ⟨by assumption, rfl⟩))
    · cases h
      exact .inl rfl
  case h_3 n ms hm =>
    cases h
    exact ⟨ms, ⟨[_], hm.symm⟩, .inr (.inr (.inr (.inl ⟨n, rfl⟩)))⟩
  case h_4 a w ms hm =>
    cases h
    exact ⟨ms, ⟨[_], hm.symm⟩, .inr (.inr (.inr (.inr (.inl ⟨a, w, by simp [hm], rfl⟩))))⟩
  case h_5 code j v ms hm =>
    cases h
    exact ⟨ms, ⟨[_], hm.symm⟩, .inr (.inr (.inr (.inr (.inr ⟨code, j, v, by simp [hm], rfl⟩))))⟩
  case h_6 ms hm =>
    split at h <;> cases h
    exact ⟨ms, ⟨[_], hm.symm⟩, .inl rfl⟩
  case h_7 hm =>
    refine ⟨s.moves, List.suffix_refl _, ?_⟩
    split at h
    · split at h <;> cases h
      next hc => exact .inr (.inl ⟨(Bool.and_eq_true_iff.1 hc).2, rfl⟩)
    · split at h <;> cases h
      next hc => exact .inr (.inr (.inl ⟨(Bool.and_eq_true_iff.1 hc).2, rfl⟩))

/-- A busy machine takes the move that is next and enabled (R20). -/
theorem tick_of_envMove {s t : State} (h : s.envMove = some t) : tick s = .moved t := by
  simp only [tick, h]

/-- So does an idle one. -/
theorem step_of_envMove {s t : State} (hl : s.cfg.Legal) (hb : s.busy = false) (h : s.envMove = some t) :
    step s = .next t := by
  rw [step, if_pos hl, if_neg (by simp [hb])]
  simp only [idleStep, h]

theorem held_busy {s : State} (h : s.held = true) : s.busy = true := by
  unfold State.held at h
  simp only [Bool.and_eq_true] at h
  exact h.1.1

/-- Beside an idle core no other agent starts an operation or writes `status`. -/
theorem envMove_idle {s t : State} (hb : s.busy = false) (h : s.envMove = some t) :
    t.busy = false ∧ t.status = s.status := by
  obtain ⟨ms, -, rfl | ⟨-, rfl⟩ | ⟨hh, -⟩ | ⟨n, rfl⟩ | ⟨a, w, -, rfl⟩ | ⟨code, j, v, -, rfl⟩⟩ := envMove_cases h
  · exact ⟨hb, rfl⟩
  · exact ⟨hb, rfl⟩
  · exact absurd (held_busy hh) (by simp [hb])
  · exact ⟨hb, rfl⟩
  · exact ⟨hb, rfl⟩
  · exact ⟨hb, rfl⟩

/-- While the host leaves the resources alone, no other agent's move changes them. -/
theorem envMove_resources {s t : State} (hs : s.Steady) (h : s.envMove = some t) :
    t.bmem = s.bmem ∧ t.glyphs = s.glyphs := by
  obtain ⟨ms, -, rfl | ⟨-, rfl⟩ | ⟨-, rfl⟩ | ⟨n, rfl⟩ | ⟨a, w, hm, -⟩ | ⟨code, j, v, hm, -⟩⟩ := envMove_cases h
  · exact ⟨rfl, rfl⟩
  · exact ⟨rfl, rfl⟩
  · simp
  · exact ⟨rfl, rfl⟩
  · cases hs _ hm
  · cases hs _ hm

/-! ## The submit step -/

/-- Dropping a `stay` changes the list of moves alone. -/
theorem dropStay_eq (s : State) : ∃ ms, ms <:+ s.moves ∧ s.dropStay = { s with moves := ms } := by
  unfold State.dropStay
  split
  next ms hm => exact ⟨ms, ⟨[_], hm.symm⟩, rfl⟩
  next => exact ⟨s.moves, List.suffix_refl _, rfl⟩

@[simp] theorem rejectDescriptor_cfg (ws : List Word) (s : State) : (rejectDescriptor ws s).cfg = s.cfg := by
  cases ws <;> rfl
@[simp] theorem rejectDescriptor_bmem (ws : List Word) (s : State) : (rejectDescriptor ws s).bmem = s.bmem := by
  cases ws <;> rfl
@[simp] theorem rejectDescriptor_glyphs (ws : List Word) (s : State) : (rejectDescriptor ws s).glyphs = s.glyphs := by
  cases ws <;> rfl
@[simp] theorem rejectDescriptor_faulted (ws : List Word) (s : State) : (rejectDescriptor ws s).faulted = s.faulted := by
  cases ws <;> rfl
@[simp] theorem rejectDescriptor_busy (ws : List Word) (s : State) : (rejectDescriptor ws s).busy = false := rfl

theorem rejectDescriptor_inv {s : State} (h : s.Idle) (ws : List Word) : (rejectDescriptor ws s).Inv := by
  refine (inv_iff _).2 (.inr (endOp_atRest _ ?_))
  exact h.rest.1.congr (latch_view s ws)

/-- The host's submit finds the core with a `stay` used up and the descriptor gone from the queue. -/
theorem submit_idle {s : State} (h : s.Inv) (hb : s.busy = false) (ms : List Move) (rest : List (List Word)) :
    ({ s with moves := ms, host := rest } : State).Idle := ⟨inv_congr h rfl rfl rfl rfl, hb⟩

/-! ## What a step comes to -/

/-- What a step that answers a next state has done: a busy machine ran on until it stopped; an idle one took another
agent's move, or passed one over, or rejected a descriptor, or accepted one and ran its operation until it stopped. -/
inductive Stepped (s t : State) : Prop
  | ran (hb : s.busy = true) (hr : Reaches s t) (hst : Stopped t)
  | moved (hb : s.busy = false) (h : s.envMove = some t)
  | passed (hb : s.busy = false) (ms : List Move) (ht : t = { s with moves := ms })
  | rejected (hb : s.busy = false) (ws : List Word) (ms : List Move) (rest : List (List Word))
      (ht : t = rejectDescriptor ws { s with moves := ms, host := rest })
  | accepted (hb : s.busy = false) (i : Instr) (steps : List EStep) (ms : List Move) (rest : List (List Word))
      (hms : ms <:+ s.moves) (hty : Phase.after s.cfg.mode .start steps = some .ended)
      (hr : Reaches (State.accept { s with moves := ms, host := rest } i steps) t) (hst : Stopped t)

theorem step_stepped {s t : State} (h : step s = .next t) : Stepped s t := by
  obtain ⟨-, ⟨hb, u, hu, hr, hst⟩ | ⟨hb, hu⟩ | ⟨hb, -, -, m, ms, -, ht⟩ | ⟨hb, -, ws, rest, -, hs⟩⟩ := step_next h
  · exact .ran hb (.step hb hu hr) hst
  · exact .moved hb hu
  · exact .passed hb ms ht
  · obtain ⟨ms, hms, hd⟩ := dropStay_eq s
    rw [hd] at hs
    obtain ⟨e, -, ht⟩ | ⟨i, -, hi⟩ := hs
    · exact .rejected hb ws ms rest ht
    · obtain ⟨-, -, steps, -, hty, hr, hst⟩ := exec_next hi
      exact .accepted hb i steps ms rest hms hty hr hst

theorem step_inv {s t : State} (hs : s.Inv) (h : step s = .next t) : t.Inv := by
  cases step_stepped h with
  | ran hb hr hst => exact reaches_inv hr hs
  | moved hb h => exact envMove_inv hs h
  | passed hb ms ht => exact ht ▸ inv_congr hs rfl rfl rfl rfl
  | rejected hb ws ms rest ht => exact ht ▸ rejectDescriptor_inv (submit_idle hs hb ms rest) ws
  | accepted hb i steps ms rest hms hty hr hst =>
    exact reaches_inv hr (accepted_inv (submit_idle hs hb ms rest) hty)

theorem tick_inv {s t : State} (hs : s.Inv) (hb : s.busy = true) (h : tick s = .moved t) : t.Inv := by
  have hg := tick_good hs hb
  rw [h] at hg
  exact (inv_iff t).2 hg

/-- After a step the machine has stopped: no operation is under way, or no agent has a step within it. -/
theorem step_stopped {s t : State} (h : step s = .next t) : Stopped t := by
  cases step_stepped h with
  | ran hb hr hst => exact hst
  | moved hb h => exact .inl (envMove_idle hb h).1
  | passed hb ms ht => exact .inl (ht ▸ hb)
  | rejected hb ws ms rest ht => exact .inl (ht ▸ rfl)
  | accepted hb i steps ms rest hms hty hr hst => exact hst

/-! ## Where the invariant lets the engine stand -/

/-- The invariant at a busy state, by the engine's next step. -/
theorem inv_next {s : State} {e : EStep} {k : List EStep} (h : s.Inv) (hb : s.busy = true) (hc : s.cont = e :: k) :
    ∃ p q : Phase, p.Holds s ∧ p.next s.cfg.mode e = some q := by
  obtain ⟨-, p, hp, hk⟩ : Running s := ((inv_iff s).1 h).resolve_right fun hr => by simp [hr.1] at hb
  rw [hc, Phase.after] at hk
  cases hn : p.next s.cfg.mode e with
  | none => simp [hn] at hk
  | some q => exact ⟨p, q, hp, hn⟩

/-- A pixel is written only where a stream is open and the pixel fits (R121). -/
theorem inv_store {s : State} {p : Ink} {k : List EStep} (h : s.Inv) (hb : s.busy = true)
    (hc : s.cont = .store p :: k) : s.Opened := by
  obtain ⟨ph, q, hp, hn⟩ := inv_next h hb hc
  cases ph <;> simp [Phase.next] at hn
  exact hp.2

/-- A block is issued only where the active buffer holds a pixel and none is outstanding (R123, R124). -/
theorem inv_issue {s : State} {k : List EStep} (h : s.Inv) (hb : s.busy = true) (hc : s.cont = .issue :: k) :
    s.Base true ∧ s.Filled ∧ s.inFlight = false := by
  obtain ⟨ph, q, hp, hn⟩ := inv_next h hb hc
  cases ph <;> simp [Phase.next] at hn
  exact hp

theorem rest_inFlight {s : State} (h : s.Rest) (hf : s.inFlight = true) : s.Opened ∨ s.Faulted :=
  h.2.resolve_left fun ⟨_, _, hc, _⟩ => by simp [hf] at hc

/-- At every phase, a block is outstanding only in an open stream or after a fault. -/
theorem Phase.Holds.open_or_faulted {p : Phase} {s : State} (h : p.Holds s) (hf : s.inFlight = true) :
    s.streamOpen = true ∨ s.faulted = true := by
  have notClosed : ¬ s.Closed := fun ⟨_, _, hc, _⟩ => by simp [hf] at hc
  cases p with
  | start => exact (rest_inFlight h hf).imp (fun ho => ho.2.1) (fun hx => hx.1)
  | live => exact .inl (h.2.resolve_left notClosed).2.1
  | closed | acquired => exact absurd h.2 notClosed
  | opened => exact .inl h.2.2.1
  | stored | advanced | waiting | issuing | clearing | completing | emptying => exact .inl h.2.1.2.1
  | flipping | drain => exact .inl h.2.2.1
  | drained | released => simp [h.2.2.2.2.2] at hf
  | ended => exact h.elim

/-- Where a busy machine has stopped, the engine is held. -/
theorem held_of_blocked {s : State} (h : s.Inv) (hb : s.busy = true) (ht : tick s = .blocked) : s.held = true := by
  unfold tick at ht
  split at ht
  · cases ht
  · have hd : s.dropStay.Inv := inv_congr h (dropStay_view s) (by simp) (by simp) (by simp)
    simpa [State.held] using engineStep_blocked hd (by simpa using hb) ht

/-- Which buffer is in flight where the engine is held (R39). -/
theorem held_flight {s : State} (h : s.Inv) (hh : s.held = true) (hf : s.inFlight = true) :
    s.FlightAway ∨ s.cfg.mode = .blocking ∧ s.xfer = some (.b0, s.cursor0) := by
  obtain ⟨k, p, -, hp, ⟨b, rfl⟩ | ⟨b, rfl⟩ | rfl⟩ := held_phase h hh
  · exact .inl hp.2.2.1
  · exact .inr ⟨hp.2.2.1, hp.2.2.2 hf⟩
  · exact .inl hp.2.2.2.2.2

/-- R39, of a machine that has stopped. -/
theorem stopped_ownership {t : State} (h : t.Inv) (hst : Stopped t) (hf : t.inFlight = true) :
    (t.cfg.mode = .async → ∃ len, t.xfer = some (t.active.other, len)) ∧
    (t.cfg.mode = .blocking → (∃ len, t.xfer = some (.b0, len)) ∧
      (t.faulted = true ∨ (t.busy = true ∧ ∃ k, t.cont = .waitIdle :: k))) := by
  have away : t.FlightAway → t.cfg.mode = .async ∧ ∃ len, t.xfer = some (t.active.other, len) := fun ha => by
    obtain ⟨hm, len, hx, -⟩ := ha hf
    exact ⟨hm, len, hx⟩
  cases hb : t.busy with
  | false =>
    have hr : t.Rest := (State.Idle.rest ⟨h, hb⟩).1
    obtain ho | ⟨hfl, -, -, -, hx⟩ := rest_inFlight hr hf
    · obtain ⟨hm, hx⟩ := away ho.2.2.2.2.2
      exact ⟨fun _ => hx, fun hm' => by simp [hm] at hm'⟩
    · obtain ⟨len, hx, -⟩ := hx hf
      exact ⟨fun hm => ⟨len, by simpa [hm] using hx⟩, fun hm => ⟨⟨len, by simpa [hm] using hx⟩, .inl hfl⟩⟩
  | true =>
    have hh := held_of_blocked h hb (hst.resolve_left (by simp [hb]))
    obtain ⟨k, -, hc, -⟩ := held_phase h hh
    obtain ha | ⟨hm, hx⟩ := held_flight h hh hf
    · obtain ⟨hm, hx⟩ := away ha
      exact ⟨fun _ => hx, fun hm' => by simp [hm] at hm'⟩
    · exact ⟨fun hm' => by simp [hm] at hm', fun _ => ⟨⟨_, hx⟩, .inr ⟨rfl, k, hc⟩⟩⟩

/-! ## Acceptance -/

/-- In a legal configuration an idle core accepts an operation, and runs it. -/
theorem operate_accepts {i : Instr} {steps : List EStep} {s : State} (hl : s.cfg.Legal) (hb : s.busy = false) :
    operate i steps s = runOp (s.accept i steps) := by
  unfold operate
  rw [if_pos hl, if_neg (by simp [hb])]

/-- A busy core accepts none (R33). -/
theorem operate_busy {i : Instr} {steps : List EStep} {s : State} (hl : s.cfg.Legal) (hb : s.busy = true) :
    operate i steps s = .fault .portBusy := by
  unfold operate
  rw [if_pos hl, if_pos hb]

/-- An operation that answers a next state was accepted and has run. -/
theorem operate_next {i : Instr} {steps : List EStep} {s t : State} (h : operate i steps s = .next t) :
    Reaches (s.accept i steps) t ∧ Stopped t := by
  unfold operate at h
  split at h
  · split at h
    · cases h
    · exact runOp_next h
  · cases h

/-! ## What a step leaves of `status`, `faulted`, the configuration and the resources -/

/-- No step writes `status` but the one that ends an operation (R34). -/
theorem step_status {s t : State} (h : step s = .next t) (htb : t.busy = true) : t.status = s.status := by
  cases step_stepped h with
  | ran hb hr hst => exact ((reaches_ticked hr).1 htb).2.2
  | moved hb h => exact (envMove_idle hb h).2
  | passed hb ms ht => exact ht ▸ rfl
  | rejected hb ws ms rest ht => simp [ht] at htb
  | accepted hb i steps ms rest hms hty hr hst =>
    have := ((reaches_ticked hr).1 htb).2.2
    simpa using this

/-- No step clears `faulted`, and none sets it but a timeout event (R32, R213). -/
theorem step_faulted {s t : State} (h : step s = .next t) :
    (s.faulted = true → t.faulted = true) ∧
    (s.faulted = false → t.faulted = true →
      s.cfg.timeoutEnabled = true ∧ (Move.timeout ∈ s.moves ∨ s.tail = .silent) ∧ t.status = .busTimeout ∧
        t.busy = false) := by
  cases step_stepped h with
  | ran hb hr hst => exact (reaches_ticked hr).2
  | moved hb h => exact (envMove_ticked h).2
  | passed hb ms ht => exact ⟨fun hs => by simpa [ht] using hs, fun hs hf => by simp [ht, hs] at hf⟩
  | rejected hb ws ms rest ht => exact ⟨fun hs => by simpa [ht] using hs, fun hs hf => by simp [ht, hs] at hf⟩
  | accepted hb i steps ms rest hms hty hr hst =>
    obtain ⟨-, hkeep, hset⟩ := reaches_ticked hr
    refine ⟨fun hs => hkeep (by simpa using hs), fun hs ht => ?_⟩
    obtain ⟨hto, hwhy, hend⟩ := hset (by simpa using hs) ht
    refine ⟨by simpa using hto, ?_, hend⟩
    exact hwhy.imp (fun hm => hms.subset (by simpa using hm)) (by simpa using ·)

/-- No step changes the configuration (R21). -/
theorem step_cfg {s t : State} (h : step s = .next t) : t.cfg = s.cfg := by
  cases step_stepped h with
  | ran hb hr hst => exact congrArg (·.1) (reaches_fixed hr)
  | moved hb h => exact congrArg (·.1) (envMove_fixed h)
  | passed hb ms ht => exact ht ▸ rfl
  | rejected hb ws ms rest ht => simp [ht]
  | accepted hb i steps ms rest hms hty hr hst =>
    have hc := congrArg (·.1) (reaches_fixed hr)
    simpa [State.fixed] using hc

/-- No step changes the resources, unless the host does (R43). -/
theorem step_resources {s t : State} (hs : s.Steady) (h : step s = .next t) :
    t.bmem = s.bmem ∧ t.glyphs = s.glyphs := by
  cases step_stepped h with
  | ran hb hr hst =>
    obtain ⟨hbm, hgl, -⟩ := reaches_resources hs hr
    exact ⟨hbm, hgl⟩
  | moved hb h => exact envMove_resources hs h
  | passed hb ms ht => exact ht ▸ ⟨rfl, rfl⟩
  | rejected hb ws ms rest ht => simp [ht]
  | accepted hb i steps ms rest hms hty hr hst =>
    have hsub : (State.accept { s with moves := ms, host := rest } i steps).Steady := fun m hm =>
      hs m (hms.subset (by simpa using hm))
    obtain ⟨hbm, hgl, -⟩ := reaches_resources hsub hr
    exact ⟨by simpa using hbm, by simpa using hgl⟩

/-! ## What the host's writes and the core's reads do -/

theorem glyphKey_inj {c code : Byte} {i j : Fin 13} : glyphKey c i = glyphKey code j ↔ c = code ∧ i = j := by
  refine ⟨fun h => ?_, fun ⟨hc, hi⟩ => by rw [hc, hi]⟩
  simp only [glyphKey, Config.glyphH] at h
  have hi := i.isLt
  have hj := j.isLt
  exact ⟨BitVec.eq_of_toNat_eq (by omega), Fin.ext (by omega)⟩

/-- A cell that the host changes is no longer stable while an operation runs. -/
theorem mem_change_iff (s : State) (src x : Source) :
    x ∈ (s.change src).changed ↔ x ∈ s.changed ∨ s.busy = true ∧ x = src := by
  cases hb : s.busy with
  | false => simp [State.change_changed_idle src hb]
  | true => simp [State.mem_change hb, or_comm]

/-- Where no other agent moves, the engine takes its next step. -/
theorem tick_engine {s : State} {e : EStep} {k : List EStep} (henv : s.envMove = none) (hc : s.cont = e :: k) :
    tick s = engineDo e { s.dropStay with cont := k } := by
  simp [tick, henv, engineStep, hc]

/-- The step that writes a pixel puts the three bytes of its colour at the cursor. -/
theorem storePixel_bytes {s t : State} {d : DeviceColor} (h : storePixel s d = .moved t) :
    (List.range 3).map (fun n => Memory.read? (t.buf s.active) (s.cursor s.active + n)) = d.bytes.map some ∧
      t.draws = s.draws := by
  unfold storePixel at h
  split at h <;> cases h
  simp [List.range_succ, Memory.read?_writePixel, DeviceColor.bytes]

/-- So does the engine, with the colour and the free draw of the state it starts from. -/
theorem tick_store {s t : State} {p : Ink} {k : List EStep} (henv : s.envMove = none) (hc : s.cont = .store p :: k)
    (h : tick s = .moved t) :
    (List.range 3).map (fun n => Memory.read? (t.buf s.active) (s.cursor s.active + n)) =
      (convertColor (s.ink p)).bytes.map some ∧ t.draws = s.inkDraws p := by
  obtain ⟨ms, -, hd⟩ := dropStay_eq s
  rw [tick_engine henv hc, hd] at h
  have hink : State.ink { s with moves := ms, cont := k } p = s.ink p := by cases p <;> rfl
  have hdraws : State.inkDraws { s with moves := ms, cont := k } p = s.inkDraws p := by cases p <;> rfl
  have hs := storePixel_bytes h
  rw [hink, hdraws] at hs
  exact hs

/-- The colour of a source bit of a supported code, by its row (R157). -/
theorem rowBit_supported {c : Config} {code row : Byte} {i : Nat} (h : supported c code = true) :
    rowBit c code row i = row.getLsbD (if c.glyphMsbLeft then 7 - i else i) := by
  unfold rowBit
  rw [if_neg (by simp [h])]
  cases c.glyphMsbLeft <;> rfl

theorem unsupported_of_range {c : Config} {code : Byte} (h : code.toNat < 32 ∨ c.glyphLast < code.toNat) :
    supported c code = false := by
  refine Bool.eq_false_iff.2 fun hs => ?_
  obtain ⟨h1, h2⟩ := (supported_iff c code).1 hs
  omega

theorem drawsAfter_stable {s : State} {src : Source} (h : src ∉ s.changed) : s.drawsAfter src = s.draws := if_neg h
theorem drawsAfter_changed {s : State} {src : Source} (h : src ∈ s.changed) : s.drawsAfter src = s.draws + 1 := if_pos h

/-- The background's colour, where a code is not supported; its row is not read (R158). -/
theorem ink_unsupported {s : State} {code : Byte} {i j : Nat} {fg bg : Word} (h : supported s.cfg code = false) :
    s.ink (.bit code i j fg bg) = bg ∧ s.inkDraws (.bit code i j fg bg) = s.draws := by
  simp [State.ink, State.inkDraws, rowBit, h]

theorem ink_supported {s : State} {code : Byte} {i j : Nat} {fg bg : Word} (h : supported s.cfg code = true) :
    s.ink (.bit code i j fg bg) =
      (if (s.readRow code j).getLsbD (if s.cfg.glyphMsbLeft then 7 - i else i) = true then fg else bg) ∧
    s.inkDraws (.bit code i j fg bg) = s.drawsAfter (.row code j) := by
  simp [State.ink, State.inkDraws, rowBit_supported h, h]

/-- The host's write of a word changes that word alone. -/
theorem envMove_loadWord {s : State} {ms : List Move} {a : Nat} {w : Word} (hwf : Memory.wfZero s.bmem)
    (hm : s.moves = .loadWord a w :: ms) :
    ∃ t, s.envMove = some t ∧ (∀ b, memRead t.bmem b = if b = a then w else memRead s.bmem b) ∧
      (∀ x, x ∈ t.changed ↔ x ∈ s.changed ∨ s.busy = true ∧ x = .word a) ∧
      { t with bmem := s.bmem, changed := s.changed, moves := s.moves } = s :=
  ⟨State.hostWord { s with moves := ms } a w, by simp [State.envMove, hm], fun b => Cells.get_load hwf.1 a w b,
    fun x => mem_change_iff _ _ x, rfl⟩

/-- The host's write of a glyph's row changes that row alone. -/
theorem envMove_loadRow {s : State} {ms : List Move} {code : Byte} {j : Fin 13} {v : Byte}
    (hwf : Memory.wfZero s.glyphs) (hm : s.moves = .loadRow code j v :: ms) :
    ∃ t, s.envMove = some t ∧
      (∀ (c : Byte) (i : Fin 13), glyphRow t.glyphs c i = if c = code ∧ i = j then v else glyphRow s.glyphs c i) ∧
      (∀ x, x ∈ t.changed ↔ x ∈ s.changed ∨ s.busy = true ∧ x = .row code j) ∧
      { t with glyphs := s.glyphs, changed := s.changed, moves := s.moves } = s := by
  refine ⟨State.hostRow { s with moves := ms } code j v, by simp [State.envMove, hm], fun c i => ?_,
    fun x => mem_change_iff _ _ x, rfl⟩
  simp only [glyphRow, State.hostRow_glyphs, Cells.get_load hwf.1, glyphKey_inj]

/-- What the reading of a bitmap's header puts in line, and the free values it draws. -/
theorem tick_readHeader {s : State} {x y sc : Word} {base : BitVec 32} {k : List EStep} (henv : s.envMove = none)
    (hc : s.cont = .readHeader x y sc base :: k) :
    tick s = .moved { s.dropStay with
      cont := bitmapSteps s.cfg x y sc base (s.readWord base.toNat)
        (State.readWord { s with draws := s.drawsAfter (.word base.toNat) } (base.toNat + 1)) ++ k
      draws := State.drawsAfter { s with draws := s.drawsAfter (.word base.toNat) } (.word (base.toNat + 1)) } := by
  obtain ⟨ms, -, hd⟩ := dropStay_eq s
  rw [tick_engine henv hc, hd]
  rfl

/-! ## The register view -/

/-- A register number above 8 reads 0 (R37). -/
theorem readReg_above (s : State) {n : Nat} (h : 8 < n) : s.readReg n = 0 := by
  obtain ⟨k, rfl⟩ := Nat.exists_eq_add_of_le' h
  rfl

/-- The host's read of a register, when it is next (R37). -/
theorem envMove_read {s : State} {n : Nat} {ms : List Move} (hm : s.moves = .read n :: ms) :
    s.envMove = some { s with moves := ms, hostReads := s.hostReads ++ [(n, s.readReg n)] } := by
  simp only [State.envMove, hm]
  rfl

/-- The value of a concatenation, its fields at their places. -/
theorem toNat_append_add {m n : Nat} (x : BitVec m) (y : BitVec n) :
    (x ++ y).toNat = x.toNat * 2 ^ n + y.toNat := by
  rw [BitVec.toNat_append, ← Nat.shiftLeft_add_eq_or_of_lt y.isLt, Nat.shiftLeft_eq]

theorem toNat_append_words (lo hi : Word) : (hi ++ lo).toNat = lo.toNat + 2 ^ 16 * hi.toNat := by
  rw [toNat_append_add]
  omega

/-- A field of 16 bits holds a number in the ranges of R7. -/
theorem toNat_field {n : Nat} (h : n ≤ 65535) : (BitVec.ofNat 16 n).toNat = n := by
  rw [BitVec.toNat_ofNat, Nat.mod_eq_of_lt (by omega)]

theorem ofBool_toNat (b : Bool) : (BitVec.ofBool b).toNat = if b = true then 1 else 0 := by cases b <;> rfl

theorem modeBit_iff (m : Mode) : modeBit m = true ↔ m = .async := by cases m <;> decide

theorem bit_iff (i : BufIx) : i.bit = true ↔ i = .b1 := by cases i <;> decide

theorem regConfig_toNat (s : State) (hc : s.cfg.capacity ≤ 65535) : s.regConfig.toNat =
    s.cfg.capacity + 2 ^ 16 * (if s.cfg.mode = .async then 1 else 0)
      + 2 ^ 17 * (if s.cfg.timeoutEnabled = true then 1 else 0) := by
  rw [State.regConfig, BitVec.toNat_setWidth_of_le (by decide)]
  simp only [toNat_append_add, ofBool_toNat, modeBit_iff, toNat_field hc]
  omega

theorem regEngine_toNat (s : State) : s.regEngine.toNat =
    (if s.busy = true then 1 else 0) + 2 * (if s.inFlight = true then 1 else 0)
      + 4 * (if s.active = .b1 then 1 else 0) + 8 * (if s.streamOpen = true then 1 else 0)
      + 16 * (if s.faulted = true then 1 else 0) := by
  rw [State.regEngine, BitVec.toNat_setWidth_of_le (by decide)]
  simp only [toNat_append_add, ofBool_toNat, bit_iff]
  omega

theorem regCursor1_toNat (s : State) (hc : s.cursor1 ≤ 65535) :
    s.regCursor1.toNat = if s.cfg.mode = .async then s.cursor1 else 0 := by
  unfold State.regCursor1
  cases s.cfg.mode with
  | blocking => rfl
  | async => exact (BitVec.toNat_setWidth_of_le (by decide)).trans (toNat_field hc)

/-- After reset every register reads 0 but CONFIG and PANEL, which mirror the configuration. -/
theorem readReg_reset (c : Config) {n : Nat} (h2 : n ≠ 2) (h8 : n ≠ 8) : (State.resetWith c).readReg n = 0 := by
  match n, h2, h8 with
  | 0, _, _ | 1, _, _ | 4, _, _ => rfl
  | 3, _, _ => exact BitVec.eq_of_toNat_eq (regEngine_toNat _)
  | 5, _, _ => exact BitVec.eq_of_toNat_eq ((regCursor1_toNat _ (Nat.zero_le _)).trans (ite_self 0))
  | 6, _, _ | 7, _, _ => exact BitVec.eq_of_toNat_eq (toNat_append_words 0 0)
  | n + 9, _, _ => rfl

/-! ## Which steps write `result` and `win` -/

/-- Nothing a drawing operation does behind its checks writes `result`. -/
theorem drawSteps_noResult (c : Config) (sts : List Plan) (st : Status) :
    ∀ e ∈ drawSteps c sts st, ∀ v, e ≠ .writeResult v :=
  all_draw (by constructor <;> simp) (by simp) (by simp) (by simp) (by simp) (by simp) (by simp) (by simp) c sts st (by simp)

theorem checked_noResult {bad : Bool} {code : Status} {rest : List EStep} (h : ∀ e ∈ rest, ∀ v, e ≠ .writeResult v) :
    ∀ e ∈ checked bad code rest, ∀ v, e ≠ .writeResult v := all_checked (by simp) h

/-- Every operation but CONVERT begins with the fault check (R214), and none of its steps writes `result` (R35). -/
theorem exec_noResult {i : Instr} (s : State) (h : ∀ c, i ≠ .convert c) :
    ∃ steps, exec i s = operate i steps s ∧ ∀ e ∈ steps, ∀ v, e ≠ .writeResult v := by
  have afterCheck : ∀ {rest : List EStep}, (∀ e ∈ rest, ∀ v, e ≠ .writeResult v) →
      ∀ e ∈ EStep.faultCheck :: rest, ∀ v, e ≠ .writeResult v := fun hr => List.forall_mem_cons.2 ⟨by simp, hr⟩
  cases i with
  | drawPixel | fillRect | drawFastGlyph =>
    exact ⟨_, rfl, afterCheck (checked_noResult (drawSteps_noResult _ _ _))⟩
  | drawGlyph => exact ⟨_, rfl, afterCheck (checked_noResult (checked_noResult (drawSteps_noResult _ _ _)))⟩
  | drawString x y fg bg sc chs =>
    refine ⟨_, rfl, afterCheck (checked_noResult ?_)⟩
    split
    · simp
    · exact checked_noResult (drawSteps_noResult _ _ _)
  | drawFastString x y fg bg chs =>
    refine ⟨_, rfl, afterCheck ?_⟩
    split
    · simp
    · exact checked_noResult (drawSteps_noResult _ _ _)
  | drawBitmap => exact ⟨_, rfl, afterCheck (checked_noResult (checked_noResult (by simp)))⟩
  | convert c => exact absurd rfl (h c)
  | setWindow => exact ⟨_, rfl, afterCheck (checked_noResult (by simp [windowSteps]))⟩
  | pushPixel => exact ⟨_, rfl, afterCheck (by simp [pushSteps])⟩
  | finish => exact ⟨_, rfl, afterCheck (by simp)⟩

/-- The three operations that send no window have no step that writes `win` (R31), and read no header. -/
theorem exec_noWindow {i : Instr} (s : State) (h : i = .finish ∨ (∃ c, i = .pushPixel c) ∨ ∃ c, i = .convert c) :
    ∃ steps, exec i s = operate i steps s ∧
      ∀ e ∈ steps, (∀ w, e ≠ .writeWin w) ∧ ∀ x y sc base, e ≠ .readHeader x y sc base := by
  obtain rfl | ⟨c, rfl⟩ | ⟨c, rfl⟩ := h
  · exact ⟨_, rfl, by simp⟩
  · exact ⟨_, rfl, by simp [pushSteps]⟩
  · exact ⟨_, rfl, by simp⟩

end Sys2Proof.Machine
end

section
namespace Sys2Proof.Proofs
open Sys2Proof.Machine

/-- Settles O39: each step comes to single steps of the agents, which keep the invariant, from the state itself or from
the state in which an accepted operation starts. -/
theorem stepKeepsInvariant : Obligations.StepKeepsInvariant := by
  refine ⟨fun s t hs h => step_inv hs h, fun s t hs hb h => tick_inv hs hb h, fun i s hs => ?_⟩
  obtain ⟨steps, hex, hty⟩ := exec_operate i s
  exact ⟨steps, hex.trans (operate_idle hs), accepted_inv hs hty⟩

/-- Settles O41: after a step the machine is idle, or held at a wait. -/
theorem exclusiveOwnership : Obligations.ExclusiveOwnership :=
  fun _ _ hs h hf => stopped_ownership (step_inv hs h) (step_stopped h) hf

/-- Settles O42, phase by phase. -/
theorem inFlightNeedsStream : Obligations.InFlightNeedsStream := by
  intro s hs hf
  obtain ⟨-, p, hp, -⟩ | ⟨-, hr, -, -⟩ := (inv_iff s).1 hs
  · exact hp.open_or_faulted hf
  · exact Phase.Holds.open_or_faulted (p := .start) hr hf

/-- Settles O43: the engine writes a pixel in an open stream only, whose block in flight is the other buffer's. -/
theorem bufferWritesInBounds : Obligations.BufferWritesInBounds := by
  intro s p k hs hb hc
  obtain ⟨-, -, hfit, -, -, haway⟩ := inv_store hs hb hc
  refine ⟨hfit, fun ⟨hf, len, hx⟩ => ?_⟩
  obtain ⟨-, len', hx', -⟩ := haway hf
  have hix : s.active.other = s.active := congrArg Prod.fst (Option.some.inj (hx'.symm.trans hx))
  exact BufIx.other_ne _ hix

/-- Settles O44: the engine issues the active buffer only, whose bytes below the cursor have been written. -/
theorem issuedBytesWritten : Obligations.IssuedBytesWritten := by
  intro s k hs hb hc
  obtain ⟨hbase, ⟨-, -, hge, -, hw⟩, hf⟩ := inv_issue hs hb hc
  rw [flushIx_eq_active hbase]
  exact ⟨hf, hge, fun a ha => Option.isSome_iff_exists.1 (hw a ha)⟩

/-- Settles O7: acceptance writes the latch, and each single step keeps it while the operation is under way. -/
theorem latchHoldsOperation : Obligations.LatchHoldsOperation := by
  refine ⟨fun i s steps => by simp, fun i s hl hb => ?_, fun s t _ h htb => ?_, fun i s t h htb => ?_⟩
  · obtain ⟨steps, hex, -⟩ := exec_operate i s
    exact ⟨steps, hex.trans (operate_accepts hl hb)⟩
  · obtain ⟨hcode, hwords, -⟩ := (tick_ticked h).1 htb
    exact ⟨hcode, hwords⟩
  · obtain ⟨steps, hex, -⟩ := exec_operate i s
    obtain ⟨hr, -⟩ := operate_next (hex.symm.trans h)
    obtain ⟨hcode, hwords, -⟩ := (reaches_ticked hr).1 htb
    exact ⟨by simpa using hcode, by simpa using hwords⟩

/-- Settles O48: a step that does not end the operation keeps `status`, and so does a move beside an idle core. -/
theorem statusWrittenAtEnd : Obligations.StatusWrittenAtEnd :=
  fun _ _ h => ⟨step_status h, fun hb hu => (envMove_idle hb hu).2⟩

/-- Settles O49: the steps of a run leave the host's queue. -/
theorem busyPortTakesNothing : Obligations.BusyPortTakesNothing := by
  refine ⟨fun s t hb h => ?_, fun i s hl hb => ?_⟩
  · cases step_stepped h with
    | ran _ hr _ => exact congrArg (·.2.1) (reaches_fixed hr)
    | moved hi | passed hi | rejected hi | accepted hi => simp [hb] at hi
  · obtain ⟨steps, hex, -⟩ := exec_operate i s
    exact hex.trans (operate_busy hl hb)

/-- Settles O53: of all that a step comes to, only the timeout event sets `faulted`. -/
theorem onlyTimeoutFaults : Obligations.OnlyTimeoutFaults := fun _ _ h => step_faulted h

/-- Settles O46: nothing but the host's two moves writes the resources, and the two engine steps that read them read the
cell, or draw a free value. -/
theorem configurationFixed : Obligations.ConfigurationFixed := by
  refine ⟨fun s t h => ⟨step_cfg h, fun hs => step_resources hs h⟩, fun c s => ⟨rfl, rfl, rfl⟩,
    fun s ms a w hwf hm => envMove_loadWord hwf hm, fun s ms code j v hwf hm => envMove_loadRow hwf hm,
    fun s t p k hb henv hc h => ?_, fun s x y sc base k hb henv hc => tick_readHeader henv hc⟩
  intro stored
  obtain ⟨hstored, hdraws⟩ := tick_store henv hc h
  have reads : ∀ {c : Word} {n : Nat}, s.ink p = c → s.inkDraws p = n → stored c ∧ t.draws = n :=
    fun hi hn => ⟨hi ▸ hstored, hdraws.trans hn⟩
  refine ⟨?_, ?_, ?_⟩
  · rintro c rfl
    exact reads rfl rfl
  · rintro a rfl
    exact ⟨fun ha => reads (State.readWord_stable ha) (drawsAfter_stable ha),
      fun ha => reads (State.readWord_changed ha) (drawsAfter_changed ha)⟩
  · rintro code i j fg bg rfl colour
    refine ⟨fun hout => ?_, fun h1 h2 => ?_⟩
    · obtain ⟨hi, hn⟩ := ink_unsupported (unsupported_of_range hout)
      exact reads hi hn
    · obtain ⟨hi, hn⟩ := ink_supported (s := s) (i := i) (j := j) (fg := fg) (bg := bg)
        ((supported_iff _ _).2 ⟨h1, h2⟩)
      exact ⟨fun hr => reads (hi.trans (by rw [State.readRow_stable hr])) (hn.trans (drawsAfter_stable hr)),
        fun hr => reads (hi.trans (by rw [State.readRow_changed hr])) (hn.trans (drawsAfter_changed hr))⟩

/-- Settles O9: a listed read is enabled in a busy and in an idle machine. -/
theorem hostRead : Obligations.HostRead := by
  refine ⟨fun s n hn => readReg_above s hn, fun s n ms hm => ?_⟩
  have henv := envMove_read hm
  refine ⟨henv, fun hb => ?_, fun hb hl => ?_⟩
  · exact tick_of_envMove henv
  · exact step_of_envMove hl hb henv

/-- Settles O10, by the definition of `resetWith`, for each of the two buffers. -/
theorem resetValues : Obligations.ResetValues := by
  intro c s
  refine ⟨fun i k => ?_, fun i => ?_, rfl, rfl, rfl, rfl, rfl, rfl, rfl, rfl, rfl, rfl⟩
  · cases i <;> rfl
  · cases i <;> rfl

/-- Settles O8: each register is a concatenation of fields, whose value is the sum of the fields at their places. -/
theorem registerView : Obligations.RegisterView := by
  refine ⟨rfl, fun c n hl h2 h8 => readReg_reset c h2 h8, fun s hl h0 h1 => ?_⟩
  obtain ⟨-, hcap, -, hpw, -, hph, -⟩ := hl
  refine ⟨BitVec.toNat_setWidth_of_le (by decide), BitVec.toNat_setWidth_of_le (by decide), regConfig_toNat s hcap,
    regEngine_toNat s, ?_, regCursor1_toNat s (h1.trans hcap), toNat_append_words .., toNat_append_words .., ?_⟩
  · exact (BitVec.toNat_setWidth_of_le (by decide)).trans (toNat_field (h0.trans hcap))
  · exact (toNat_append_words ..).trans (by rw [toNat_field hpw, toNat_field hph])

/-- Settles O47: of the steps of an operation, only CONVERT's write `result`, and only a window's or those behind a bitmap's
header write `win`. -/
theorem resultAndWindowWriters : Obligations.ResultAndWindowWriters := by
  refine fun i s t h => ⟨fun hi => ?_, fun hi => ?_⟩
  · obtain ⟨steps, hex, hno⟩ := exec_noResult s hi
    obtain ⟨hr, -⟩ := operate_next (hex.symm.trans h)
    simpa using reaches_result hr hno
  · obtain ⟨steps, hex, hno⟩ := exec_noWindow s hi
    obtain ⟨hr, -⟩ := operate_next (hex.symm.trans h)
    simpa using reaches_win hr hno

end Sys2Proof.Proofs
end

section
/-! PROOF. Operations submitted one after the other, each of which ends OK, as one run (20_memory.md R69;
42_staging_manager.md R126); and what the reference receiver makes of a whole stream (R60). -/

namespace Sys2Proof.Machine

/-! ## What some operations have come to -/

theorem settled_of_calm {t u : State} {st : Status} (h : t.calm = u.endOp st) : t.settled = u.trace := by
  simpa using congrArg State.trace h

theorem active_of_calm {t u : State} {st : Status} (h : t.calm = u.endOp st) : t.active = u.active := by
  simpa using congrArg State.active h

theorem win_of_calm {t u : State} {st : Status} (h : t.calm = u.endOp st) : t.win = u.win := by
  simpa using congrArg State.win h

theorem streamOpen_of_calm {t u : State} {st : Status} (h : t.calm = u.endOp st) : t.streamOpen = u.streamOpen := by
  simpa using congrArg State.streamOpen h

/-- Some operations other than CONVERT, each ending OK, have led from `s` to `t`: up to the outstanding block they put `es`
on the bus, and they wrote no buffer byte from address `m` on. -/
structure Performed (s t : State) (es : List Event) (m : Nat) : Prop where
  ready : t.Ready
  status : t.status = .ok
  settled : t.settled = s.settled ++ es
  active : t.active = activeAfter s.cfg.mode (blockCount es) s.active
  lasting : t.lasting = s.lasting
  result : t.result = s.result
  bufs : ∀ i a, m ≤ a → Memory.read? (t.buf i) a = Memory.read? (s.buf i) a

namespace Performed

variable {s t u : State} {es fs : List Event} {m n : Nat}

theorem cfg (h : Performed s t es m) : t.cfg = s.cfg := congrArg (·.1) h.lasting
theorem bmem (h : Performed s t es m) : t.bmem = s.bmem := congrArg (·.2.1) h.lasting
theorem glyphs (h : Performed s t es m) : t.glyphs = s.glyphs := congrArg (·.2.2.1) h.lasting
theorem host (h : Performed s t es m) : t.host = s.host := congrArg (·.2.2.2.1) h.lasting

theorem refl (h : s.Ready) (hst : s.status = .ok) (m : Nat) : Performed s s [] m :=
  ⟨h, hst, by simp, (activeAfter_zero ..).symm, rfl, rfl, fun _ _ _ => rfl⟩

theorem trans (h : Performed s t es m) (h' : Performed t u fs m) : Performed s u (es ++ fs) m where
  ready := h'.ready
  status := h'.status
  settled := by rw [h'.settled, h.settled, List.append_assoc]
  active := by rw [h'.active, h.active, h.cfg, activeAfter_add, blockCount_append]
  lasting := h'.lasting.trans h.lasting
  result := h'.result.trans h.result
  bufs := fun i a ha => (h'.bufs i a ha).trans (h.bufs i a ha)

theorem weaken (h : Performed s t es m) (hmn : m ≤ n) : Performed s t es n :=
  { h with bufs := fun i a ha => h.bufs i a (hmn.trans ha) }

/-- Operations that have drawn one stream and left none open leave what a drawing operation leaves. -/
theorem drawn {st : Stream} (h : Performed s t (s.closeEvents ++ streamEvents s.cfg st) m) (hw : t.win = st.win)
    (ho : t.streamOpen = false) : s.Drawn t [st] .ok m := by
  obtain ⟨hidle, hf, -⟩ := h.ready
  obtain ⟨-, -, hfl, h0, h1⟩ := idle_closed hidle hf ho
  obtain ⟨⟨hbase, -⟩, hcont⟩ := hidle.rest
  have hx : t.xfer.isSome = false := hbase.xferIff.trans hfl
  exact
    { status := h.status
      trace := by rw [← State.settled_of_idle hfl, h.settled, List.append_assoc]; simp
      win := hw
      active := by rw [h.active]; simp
      busy := hidle.2
      cont := hcont
      faulted := hf
      streamOpen := ho
      inFlight := hfl
      xfer := by simpa using hx
      cursor0 := h0
      cursor1 := h1
      result := h.result
      cfg := h.cfg
      bmem := h.bmem
      glyphs := h.glyphs
      host := h.host
      bufs := h.bufs }

end Performed

/-- An operation that passes its checks does what the engine's run of its other steps does. -/
theorem operate_performed {i : Instr} {steps k : List EStep} {s u : State} {es : List Event} {m : Nat} (h : s.Ready)
    (hty : Phase.after s.cfg.mode .start steps = some .ended) (hp : Passes s.streamOpen s.cfg s.bmem k steps)
    (hr : Ran (accepted s (encode i) k).calm u es m) (hu : u.cont = [.finishOp .ok]) :
    ∃ t, operate i steps s = .next t ∧ t.calm = u.endOp .ok ∧ Performed s t es m := by
  obtain ⟨hi, hf, hq⟩ := h
  obtain ⟨t, h1, h2, h3, h4⟩ := operate_ran hi hf hq hty hp hr hu
  refine ⟨t, h1, h2, h3, by simpa using congrArg State.status h2, ?_, ?_, h4, ?_, fun i a ha => ?_⟩
  · rw [settled_of_calm h2, hr.trace, accepted_trace]
  · rw [active_of_calm h2, hr.active, accepted_active, State.calm_cfg, accepted_cfg]
  · rw [show t.result = u.result by simpa using congrArg State.result h2, accepted_result hr.frame]
  · rw [buf_of_calm h2, hr.others i a ha, accepted_buf]

/-! ## SET_WINDOW, PUSH_PIXEL, FINISH -/

/-- SET_WINDOW within the panel closes an open stream and opens one with nothing staged (R110, R113). -/
theorem setWindow_performed {s : State} {x1 y1 x2 y2 : Word} (h : s.Ready)
    (hx : max x1.toNat x2.toNat < s.cfg.panelW) (hy : max y1.toNat y2.toNat < s.cfg.panelH) :
    let w := normWindow x1.toNat y1.toNat x2.toNat y2.toNat
    ∃ t, exec (.setWindow x1 y1 x2 y2) s = .next t ∧ Performed s t (s.closeEvents ++ windowEvents s.cfg w) 0 ∧
      t.win = w ∧ t.streamOpen = true ∧ t.staged = [] := by
  intro w
  have ⟨hi, hf, _⟩ := h
  have hty : Phase.after s.cfg.mode .start (.faultCheck :: checked
      (offPanel s.cfg (max x1.toNat x2.toNat) (max y1.toNat y2.toNat)) .invalidWindow
      (windowSteps s.cfg w ++ [.finishOp .ok])) = some .ended :=
    after_faultCheck (after_checked fun _ => by rw [after_append, after_windowSteps]; rfl)
  have hp := Passes.pass (passes_checked (o := s.streamOpen) (c := s.cfg) (b := s.bmem) (code := .invalidWindow)
    (offPanel_false hx hy) (.refl (k := windowSteps s.cfg w ++ [.finishOp .ok])))
  obtain ⟨u, hr, huk, huw, hui⟩ := run_window (w := w) (k := [.finishOp .ok])
    (accepted_calmed (ws := encode (.setWindow x1 y1 x2 y2)) (steps := windowSteps s.cfg w ++ [.finishOp .ok]) hi)
    (accepted_settled hi hf) rfl
  rw [accepted_closeEvents, State.calm_cfg, accepted_cfg] at hr
  obtain ⟨t, ht, htu, hst⟩ := operate_performed h hty hp hr huk
  exact ⟨t, ht, hst, (win_of_calm htu).trans huw, (streamOpen_of_calm htu).trans hui.isOpen, staged_of_calm hui htu⟩

theorem accepted_pixel_color (s : State) (ws : List Word) (k : List EStep) (c : Word) :
    (accepted s ws k).calm.pixel (.color c) = convertColor c := rfl

/-- PUSH_PIXEL in an open stream stages its pixel, and hands the staged bytes over when they fill the buffer (R121, R132). -/
theorem pushPixel_performed {s : State} (c : Word) {m : Nat} (h : s.Ready) (ho : s.streamOpen = true)
    (hm : s.staged.length + 3 ≤ m) :
    ∃ t, exec (.pushPixel c) s = .next t ∧ Performed s t (pushEvents s.cfg s.staged (convertColor c)).1 m ∧
      t.win = s.win ∧ t.streamOpen = true ∧ t.staged = (pushEvents s.cfg s.staged (convertColor c)).2 := by
  have ⟨hi, hf, _⟩ := h
  have hp : Passes s.streamOpen s.cfg s.bmem (pushSteps (.color c) ++ [.finishOp .ok])
      (.faultCheck :: .requireStream :: (pushSteps (.color c) ++ [.finishOp .ok])) := .pass (.stream ho .refl)
  obtain ⟨u, hr, huk, huw, hui, -⟩ := run_push (p := .color c) (k := [.finishOp .ok]) (m := m)
    (accepted_calmed (ws := encode (.pushPixel c)) (steps := pushSteps (.color c) ++ [.finishOp .ok]) hi)
    (inStream_of_open hi hf ho) (staged_room hi hf ho) hm rfl
  rw [accepted_pixel_color, State.calm_cfg, accepted_cfg] at hr hui
  obtain ⟨t, ht, htu, hst⟩ := operate_performed h rfl hp hr huk
  exact ⟨t, ht, hst, (win_of_calm htu).trans (huw.trans (accepted_win ..)), (streamOpen_of_calm htu).trans hui.isOpen,
    staged_of_calm hui htu⟩

/-- FINISH closes an open stream, and does nothing else (R125, R133). -/
theorem finish_performed {s : State} (h : s.Ready) :
    ∃ t, exec .finish s = .next t ∧ Performed s t s.closeEvents 0 ∧ t.win = s.win ∧ t.streamOpen = false := by
  have ⟨hi, hf, _⟩ := h
  have hp : Passes s.streamOpen s.cfg s.bmem [.closeStream, .finishOp .ok]
      [.faultCheck, .closeStream, .finishOp .ok] := .pass .refl
  obtain ⟨u, hr, huk, huw, hui⟩ := run_close (k := [.finishOp .ok])
    (accepted_calmed (ws := encode .finish) (steps := [.closeStream, .finishOp .ok]) hi)
    (accepted_settled hi hf) rfl
  rw [accepted_closeEvents] at hr
  obtain ⟨t, ht, htu, hst⟩ := operate_performed h rfl hp hr huk
  exact ⟨t, ht, hst, (win_of_calm htu).trans (huw.trans (accepted_win ..)), (streamOpen_of_calm htu).trans hui.isOpen⟩

/-! ## One after the other -/

theorem execAll_cons {i : Instr} {is : List Instr} {s t : State} (h : exec i s = .next t) :
    execAll (i :: is) s = execAll is t := by rw [execAll, h]

theorem execAll_append {js : List Instr} : ∀ {is : List Instr} {s t : State}, execAll is s = .next t →
    execAll (is ++ js) s = execAll js t
  | [], _, _, h => by cases h; rfl
  | i :: is, s, t, h => by
    rw [execAll] at h
    split at h
    · rename_i u hu
      exact (execAll_cons hu).trans (execAll_append h)
    · cases h
    · cases h

/-- PUSH_PIXELs in an open stream put on the bus what the pushes of their pixels stand for. -/
theorem pushPixels_performed {m : Nat} : ∀ (cs : List Word) {s : State}, s.Ready → s.status = .ok → s.streamOpen = true →
    min (s.staged.length + 3 * cs.length) s.cfg.capacity ≤ m →
    ∃ t, execAll (cs.map .pushPixel) s = .next t ∧
      Performed s t (pushAllEvents s.cfg s.staged (cs.map convertColor)).1 m ∧ t.win = s.win ∧ t.streamOpen = true ∧
      t.staged = (pushAllEvents s.cfg s.staged (cs.map convertColor)).2
  | [], s, h, hst, ho, _ => ⟨s, rfl, .refl h hst m, rfl, ho, rfl⟩
  | c :: cs, s, h, _, ho, hm => by
    have ⟨hi, hf, _⟩ := h
    have hroom := staged_room hi hf ho
    rw [List.length_cons] at hm
    obtain ⟨t, ht, htp, htw, hto, hts⟩ := pushPixel_performed c (m := m) h ho (by omega)
    have hle := pushEvents_length_le s.cfg s.staged (convertColor c)
    obtain ⟨u, hu, hup, huw, huo, hus⟩ := pushPixels_performed (m := m) cs htp.ready htp.status hto
      (by rw [hts, htp.cfg]; omega)
    rw [hts, htp.cfg] at hup hus
    exact ⟨u, (execAll_cons ht).trans hu, htp.trans hup, huw.trans htw, huo, hus⟩

/-- SET_WINDOW, any PUSH_PIXELs and FINISH perform one whole stream (R126). -/
theorem lowLevel_performed {s : State} {x1 y1 x2 y2 : Word} (cs : List Word) (h : s.Ready)
    (hx : max x1.toNat x2.toNat < s.cfg.panelW) (hy : max y1.toNat y2.toNat < s.cfg.panelH) :
    let st : Stream := ⟨normWindow x1.toNat y1.toNat x2.toNat y2.toNat, cs.map convertColor⟩
    ∃ t, execAll (.setWindow x1 y1 x2 y2 :: (cs.map .pushPixel ++ [.finish])) s = .next t ∧
      Performed s t (s.closeEvents ++ streamEvents s.cfg st) (min (3 * cs.length) s.cfg.capacity) ∧
      t.win = st.win ∧ t.streamOpen = false := by
  intro st
  obtain ⟨t, ht, htp, htw, hto, hts⟩ := setWindow_performed h hx hy
  obtain ⟨u, hu, hup, huw, huo, hus⟩ := pushPixels_performed (m := min (3 * cs.length) s.cfg.capacity) cs htp.ready
    htp.status hto (by rw [hts, htp.cfg]; simp)
  obtain ⟨v, hv, hvp, hvw, hvo⟩ := finish_performed hup.ready
  have hclose : u.closeEvents = finishEvents s.cfg (pushAllEvents s.cfg [] st.pixels).2 := by
    rw [State.closeEvents, if_pos huo, hus, hup.cfg, htp.cfg, hts]
  rw [hts, htp.cfg] at hup
  rw [hclose] at hvp
  refine ⟨v, ?_, ?_, hvw.trans (huw.trans htw), hvo⟩
  · rw [execAll_cons ht, execAll_append hu, execAll_cons hv]
    rfl
  · have hall := (htp.weaken (Nat.zero_le _)).trans (hup.trans (hvp.weaken (Nat.zero_le _)))
    simpa [streamEvents, st] using hall

/-! ## A stream at the reference receiver -/

/-- The blocks of a stream carry its pixels' bytes in push order (R126). -/
theorem stream_payload (c : Config) (ds : List DeviceColor) :
    ((pushAllEvents c [] ds).1 ++ finishEvents c (pushAllEvents c [] ds).2).flatMap Event.payload =
      ds.flatMap DeviceColor.bytes := by
  have hrest : (payloads (finishEvents c (pushAllEvents c [] ds).2)).flatten = (pushAllEvents c [] ds).2 := by
    rw [payloads_finishEvents]
    split <;> simp [*]
  rw [flatMap_payload, payloads_append, List.flatten_append, hrest, pushAll_bytes, List.nil_append]

/-- After its window a stream puts neither a command nor a single data byte on the bus (R57). -/
theorem stream_only_blocks (c : Config) (ds : List DeviceColor) :
    ∀ e ∈ (pushAllEvents c [] ds).1 ++ finishEvents c (pushAllEvents c [] ds).2, ∀ b, e ≠ .cmd b ∧ e ≠ .data b := by
  intro e he b
  rcases List.mem_append.1 he with he | he
  · obtain rfl | ⟨p, rfl⟩ := pushAll_only c ds [] e he <;> simp
  · unfold finishEvents at he
    split at he
    · obtain rfl : e = .scopeRelease := by simpa using he
      simp
    · obtain rfl | rfl | rfl : e = _ ∨ e = .done ∨ e = .scopeRelease := by simpa using he
      all_goals simp

namespace Receiver

/-- A whole stream is its pixels, at a receiver that stands at the first cell of its window (R60). -/
theorem run_streamEvents {c : Config} (hc : CommandsDistinct c) (r : Receiver) (st : Stream) :
    r.run c (streamEvents c st) = st.pixels.foldl (Receiver.pixel c) (r.run c (windowEvents c st.win)) := by
  rw [streamEvents, List.append_assoc, run_append, run_payloads c _ _ (stream_only_blocks c st.pixels), stream_payload]
  exact foldl_bytes c st.pixels _ (by rw [run_window hc])

/-- After a window inside the panel the receiver stands at its cell number 0. -/
theorem stands_window {c : Config} (hc : CommandsDistinct c) (r : Receiver) {w : Window}
    (hx : w.x1.toNat ≤ w.x2.toNat) (hy : w.y1.toNat ≤ w.y2.toNat) (hpx : w.x2.toNat < c.panelW)
    (hpy : w.y2.toNat < c.panelH) :
    Stands c (r.run c (windowEvents c w)) (w.x2.toNat - w.x1.toNat + 1) (w.y2.toNat - w.y1.toNat + 1) 0 := by
  rw [run_window hc]
  refine ⟨?_, ?_, hpx, hpy, by simp, by simp⟩ <;> dsimp only <;> omega

end Receiver

end Sys2Proof.Machine
end

section
namespace Sys2Proof.Proofs
open Sys2Proof.Machine

/-- Settles O21: the three operations perform one stream, and a run that performed one stream and left none open is the
normal end of a drawing operation. -/
theorem lowLevelStream : Obligations.LowLevelStream := by
  intro s x1 y1 x2 y2 cs h hx hy
  obtain ⟨t, ht, hp, hw, ho⟩ := lowLevel_performed cs h hx hy
  exact ⟨t, ht, hp.ready, hp.drawn hw ho⟩

/-- Settles O58: the window puts the receiver at its first cell, and from there the stream's bytes are its pixels, which
land in row-major order. -/
theorem streamLands : Obligations.StreamLands := by
  intro c r st _ hc hx hy hpx hpy w h hn
  have hstands := Receiver.stands_window hc r hx hy hpx hpy
  obtain ⟨hflag, hat⟩ := Receiver.foldl_pixels c (w := w) (h := h) (Nat.succ_pos _) st.pixels _ 0 hstands
    (by rwa [Nat.zero_add])
  rw [← Receiver.run_streamEvents hc, Receiver.run_window hc] at hflag hat
  refine ⟨hflag, fun x y => (hat x y).trans ?_⟩
  have hin : x < st.win.x1.toNat + w ↔ x ≤ st.win.x2.toNat := by omega
  simp only [Nat.zero_le, true_and, Nat.zero_add, Nat.sub_zero, hin]
  rfl

end Sys2Proof.Proofs
end

section
/-! PROOF. What the decoder answers for every word sequence, and that it and the encoder are inverse to each other
(30_encoding.md R80 to R91); and what a step makes of the host's next descriptor (R81). -/

namespace Sys2Proof.Laws
open Sys2Proof.Machine

/-! ## Words -/

@[simp] theorem lo8_toNat (w : Word) : (lo8 w).toNat = w.toNat % 256 := by
  rw [lo8, BitVec.extractLsb'_toNat, Nat.shiftRight_zero]

@[simp] theorem hi8_toNat (w : Word) : (hi8 w).toNat = w.toNat / 256 := by
  have := w.isLt
  rw [hi8, BitVec.extractLsb'_toNat, Nat.shiftRight_eq_div_pow]
  omega

@[simp] theorem charWord_toNat (ch : Byte) : (charWord ch).toNat = ch.toNat := BitVec.toNat_setWidth_of_le (by decide)

@[simp] theorem lo8_charWord (ch : Byte) : lo8 (charWord ch) = ch := by
  apply BitVec.eq_of_toNat_eq
  rw [lo8_toNat, charWord_toNat]
  exact Nat.mod_eq_of_lt ch.isLt

@[simp] theorem hi8_charWord (ch : Byte) : hi8 (charWord ch) = 0 := by
  apply BitVec.eq_of_toNat_eq
  rw [hi8_toNat, charWord_toNat]
  exact Nat.div_eq_of_lt ch.isLt

/-- A word is its low byte when the bits above are 0 (R82, R83). -/
theorem charWord_lo8 {w : Word} (h : hi8 w = 0) : charWord (lo8 w) = w := by
  have hhi : w.toNat / 256 = 0 := (hi8_toNat w).symm.trans (congrArg BitVec.toNat h)
  apply BitVec.eq_of_toNat_eq
  rw [charWord_toNat, lo8_toNat]
  omega

theorem map_charWord_lo8 {ws : List Word} (h : ∀ w ∈ ws, hi8 w = 0) : (ws.map lo8).map charWord = ws := by
  rw [List.map_map]
  exact (List.map_congr_left fun w hw => charWord_lo8 (h w hw)).trans (List.map_id ws)

theorem map_lo8_charWord (chs : List Byte) : (chs.map charWord).map lo8 = chs := by
  rw [List.map_map]
  exact (List.map_congr_left fun ch _ => lo8_charWord ch).trans (List.map_id chs)

/-- The two words of a bitmap's base address are its halves (R86). -/
theorem addrHi_append_addrLo (base : BitVec 32) : base.extractLsb' 16 16 ++ base.extractLsb' 0 16 = base :=
  (BitVec.extractLsb'_append_extractLsb'_eq_extractLsb' (w := 32) (start₁ := 0) (len₁ := 16) rfl).trans
    BitVec.extractLsb'_eq_self

/-! ## The opcode map -/

/-- The opcode map has one row per operation (R85). -/
theorem opOf_eq_some_iff {code : Byte} {op : Op} : opOf code = some op ↔ code = op.code := by
  constructor
  · intro h
    unfold opOf at h
    split at h <;> cases h <;> exact BitVec.eq_of_toNat_eq ‹_›
  · rintro rfl
    cases op <;> rfl

theorem mem_opcodes_iff {code : Byte} :
    code.toNat ∈ [0x01, 0x02, 0x03, 0x04, 0x05, 0x06, 0x07, 0x10, 0x11, 0x12, 0x13] ↔ ∃ op, opOf code = some op := by
  constructor
  · intro h
    refine Option.ne_none_iff_exists'.1 fun hno => ?_
    unfold opOf at hno
    split at hno <;> simp_all
  · rintro ⟨op, h⟩
    obtain rfl := opOf_eq_some_iff.1 h
    cases op <;> decide

/-- A first word that passes the header checks is the header of the operation it selects (R82). -/
theorem eq_header {h : Word} {op : Op} (hh : hi8 h = 0) (hop : opOf (lo8 h) = some op) : h = header op := by
  rw [header, ← opOf_eq_some_iff.1 hop]
  exact (charWord_lo8 hh).symm

/-! ## The decode checks -/

section Checks
variable {h : Word} {rest : List Word} {op : Op} {len : Nat}

theorem decode_reservedHeader (hh : hi8 h ≠ 0) : decode (h :: rest) = .error .reservedHeaderBits := by
  rw [decode, if_pos hh]

theorem decode_reservedOpcode (hh : hi8 h = 0) (hop : opOf (lo8 h) = none) :
    decode (h :: rest) = .error .reservedOpcode := by
  simp [decode, hh, hop]

theorem decode_noCount (hh : hi8 h = 0) (hop : opOf (lo8 h) = some op) (hl : descriptorLength op (h :: rest) = none) :
    decode (h :: rest) = .error .noCountWord := by
  simp [decode, hh, hop, hl]

theorem decode_wrongLength (hh : hi8 h = 0) (hop : opOf (lo8 h) = some op)
    (hl : descriptorLength op (h :: rest) = some len) (hlen : (h :: rest).length ≠ len) :
    decode (h :: rest) = .error .wrongLength := by
  simp only [decode, hh, hop, hl, ne_eq, not_true_eq_false, if_false, if_pos hlen]

theorem decode_reservedChar (hh : hi8 h = 0) (hop : opOf (lo8 h) = some op)
    (hl : descriptorLength op (h :: rest) = some (h :: rest).length)
    (hc : ∃ c ∈ charWords op (h :: rest), hi8 c ≠ 0) : decode (h :: rest) = .error .reservedCharBits := by
  have hany : (charWords op (h :: rest)).any (fun c => hi8 c ≠ 0) = true := by simpa using hc
  simp only [decode, hh, hop, hl, ne_eq, not_true_eq_false, if_false, if_pos hany]

theorem decode_checked (hh : hi8 h = 0) (hop : opOf (lo8 h) = some op)
    (hl : descriptorLength op (h :: rest) = some (h :: rest).length)
    (hc : ∀ c ∈ charWords op (h :: rest), hi8 c = 0) : decode (h :: rest) = .ok (assemble op (h :: rest)) := by
  have hany : ¬ (charWords op (h :: rest)).any (fun c => hi8 c ≠ 0) = true := by simpa using hc
  simp only [decode, hh, hop, hl, ne_eq, not_true_eq_false, if_false, if_neg hany]

end Checks

/-- What passes the checks: a header of the opcode map, the length `L` that goes with it, and no reserved bit in a `char`
word. The operation is then assembled from the words. -/
theorem decode_ok_iff {ws : List Word} {i : Instr} : decode ws = .ok i ↔
    ∃ op rest, ws = header op :: rest ∧ descriptorLength op ws = some ws.length ∧
      (∀ c ∈ charWords op ws, hi8 c = 0) ∧ assemble op ws = i := by
  constructor
  · intro hd
    cases ws with
    | nil => cases hd
    | cons h rest =>
      by_cases hh : hi8 h = 0
      case neg => cases (decode_reservedHeader hh).symm.trans hd
      cases hop : opOf (lo8 h) with
      | none => cases (decode_reservedOpcode hh hop).symm.trans hd
      | some op =>
        cases hl : descriptorLength op (h :: rest) with
        | none => cases (decode_noCount hh hop hl).symm.trans hd
        | some len =>
          by_cases hlen : (h :: rest).length = len
          case neg => cases (decode_wrongLength hh hop hl hlen).symm.trans hd
          subst hlen
          by_cases hc : ∀ c ∈ charWords op (h :: rest), hi8 c = 0
          case neg => cases (decode_reservedChar hh hop hl (by simpa using hc)).symm.trans hd
          exact ⟨op, rest, by rw [eq_header hh hop], hl, hc,
            Except.ok.inj ((decode_checked hh hop hl hc).symm.trans hd)⟩
  · rintro ⟨op, rest, rfl, hl, hc, rfl⟩
    exact decode_checked (header_reserved op) (opOf_header op) hl hc

/-! ## Decoding what is encoded -/

/-- The descriptor of a well-formed operation has the length of its header's row (R85, R90). -/
theorem descriptorLength_encode {i : Instr} (h : i.wellFormed = true) :
    descriptorLength i.op (encode i) = some (encode i).length := by
  cases i with
  | drawString x y fg bg s chs =>
    obtain ⟨-, -, -, hl⟩ := Encoding.drawString x y fg bg s chs h
    exact hl
  | drawFastString x y fg bg chs =>
    obtain ⟨-, -, -, hl⟩ := Encoding.drawFastString x y fg bg chs h
    exact hl
  | _ => rfl

/-- The encoder sets no reserved bit of a `char` word (R83). -/
theorem charWords_encode (i : Instr) : ∀ c ∈ charWords i.op (encode i), hi8 c = 0 := by
  cases i with
  | drawGlyph x y ch fg bg s => exact List.forall_mem_singleton.2 (hi8_charWord ch)
  | drawFastGlyph x y ch fg bg => exact List.forall_mem_singleton.2 (hi8_charWord ch)
  | drawString x y fg bg s chs => exact List.forall_mem_map.2 fun ch _ => hi8_charWord ch
  | drawFastString x y fg bg chs => exact List.forall_mem_map.2 fun ch _ => hi8_charWord ch
  | _ => exact nofun

/-- Assembly reads every operand back from its place in the descriptor (R84, R86). -/
theorem assemble_encode (i : Instr) : assemble i.op (encode i) = i := by
  cases i with
  | drawGlyph x y ch fg bg s => exact congrArg (Instr.drawGlyph x y · fg bg s) (lo8_charWord ch)
  | drawFastGlyph x y ch fg bg => exact congrArg (Instr.drawFastGlyph x y · fg bg) (lo8_charWord ch)
  | drawString x y fg bg s chs => exact congrArg (Instr.drawString x y fg bg s) (map_lo8_charWord chs)
  | drawFastString x y fg bg chs => exact congrArg (Instr.drawFastString x y fg bg) (map_lo8_charWord chs)
  | drawBitmap x y s base => exact congrArg (Instr.drawBitmap x y s) (addrHi_append_addrLo base)
  | _ => rfl

/-! ## Encoding what is decoded -/

/-- The count word of a string is the number of its characters (R90), and each character its word (R83). -/
theorem count_cons_charWords {n : Word} {ws : List Word} {k : Nat} (h : k + n.toNat = ws.length + k)
    (hc : ∀ c ∈ ws, hi8 c = 0) : BitVec.ofNat 16 (ws.map lo8).length :: (ws.map lo8).map charWord = n :: ws := by
  have hlen : (ws.map lo8).length = n.toNat := by
    rw [List.length_map]
    omega
  rw [hlen, BitVec.ofNat_toNat, BitVec.setWidth_eq, map_charWord_lo8 hc]

/-- The count word bounds the number of characters (R83). -/
theorem stringFits_of_length {n : Word} {ws : List Word} {k : Nat} (h : k + n.toNat = ws.length + k) :
    stringFits (ws.map lo8) = true := by
  have := n.isLt
  simp only [stringFits, List.length_map, decide_eq_true_eq]
  omega

/-- Words with the length of their format and no reserved bit set are the descriptor of what is assembled from them. -/
theorem encode_assemble {op : Op} {rest : List Word}
    (hl : descriptorLength op (header op :: rest) = some (header op :: rest).length)
    (hc : ∀ c ∈ charWords op (header op :: rest), hi8 c = 0) :
    encode (assemble op (header op :: rest)) = header op :: rest ∧
      (assemble op (header op :: rest)).wellFormed = true := by
  cases op with
  | drawPixel =>
    match rest, hl with
    | [_, _, _], _ => exact ⟨rfl, rfl⟩
  | fillRect =>
    match rest, hl with
    | [_, _, _, _, _], _ => exact ⟨rfl, rfl⟩
  | drawGlyph =>
    match rest, hl with
    | [x, y, ch, fg, bg, s], _ =>
      exact ⟨congrArg (header .drawGlyph :: x :: y :: · :: [fg, bg, s]) (charWord_lo8 (hc ch (.head _))), rfl⟩
  | drawFastGlyph =>
    match rest, hl with
    | [x, y, ch, fg, bg], _ =>
      exact ⟨congrArg (header .drawFastGlyph :: x :: y :: · :: [fg, bg]) (charWord_lo8 (hc ch (.head _))), rfl⟩
  | drawString =>
    match rest, hl with
    | x :: y :: fg :: bg :: s :: n :: chs, hl =>
      have hlen := Option.some.inj hl
      exact ⟨congrArg (header .drawString :: x :: y :: fg :: bg :: s :: ·) (count_cons_charWords hlen hc),
        stringFits_of_length hlen⟩
  | drawFastString =>
    match rest, hl with
    | x :: y :: fg :: bg :: n :: chs, hl =>
      have hlen := Option.some.inj hl
      exact ⟨congrArg (header .drawFastString :: x :: y :: fg :: bg :: ·) (count_cons_charWords hlen hc),
        stringFits_of_length hlen⟩
  | drawBitmap =>
    match rest, hl with
    | [x, y, s, hi, lo], _ =>
      exact ⟨congrArg₂ (fun hi lo => [header .drawBitmap, x, y, s, hi, lo]) BitVec.extractLsb'_append_eq_left
        BitVec.extractLsb'_append_eq_right, rfl⟩
  | convert =>
    match rest, hl with
    | [_], _ => exact ⟨rfl, rfl⟩
  | setWindow =>
    match rest, hl with
    | [_, _, _, _], _ => exact ⟨rfl, rfl⟩
  | pushPixel =>
    match rest, hl with
    | [_], _ => exact ⟨rfl, rfl⟩
  | finish =>
    match rest, hl with
    | [], _ => exact ⟨rfl, rfl⟩

/-! ## The tables of lengths and of `char` words -/

theorem assemble_op (op : Op) (ws : List Word) : (assemble op ws).op = op := by cases op <;> rfl

/-- A string's length needs its count word (R90). -/
theorem countedLength_none {ws : List Word} {k m : Nat} (h : ws.length ≤ k) :
    ((ws[k]?).map fun n => m + n.toNat) = none := by
  rw [List.getElem?_eq_none h, Option.map_none]

theorem countedLength_some {ws : List Word} {k m : Nat} (h : k < ws.length) :
    ((ws[k]?).map fun n => m + n.toNat) = some (m + (ws.getD k 0).toNat) := by
  rw [List.getElem?_eq_getElem h, Option.map_some, List.getD_eq_getElem _ _ h]

/-- The checks behind the header (R91), for an operation whose length and `char` words are known. -/
theorem decode_operandChecks {op : Op} {rest : List Word} {isString : Bool} {count len : Nat} {chars : List Word}
    (hnone : isString = true → (header op :: rest).length ≤ count → descriptorLength op (header op :: rest) = none)
    (hsome : (isString = true → count < (header op :: rest).length) →
      descriptorLength op (header op :: rest) = some len)
    (hchars : charWords op (header op :: rest) = chars) :
    (isString = true → (header op :: rest).length ≤ count → decode (header op :: rest) = .error .noCountWord) ∧
      ((isString = true → count < (header op :: rest).length) →
        ((header op :: rest).length ≠ len → decode (header op :: rest) = .error .wrongLength) ∧
        ((header op :: rest).length = len → (∃ c ∈ chars, hi8 c ≠ 0) →
          decode (header op :: rest) = .error .reservedCharBits) ∧
        ((header op :: rest).length = len → (∀ c ∈ chars, hi8 c = 0) →
          ∃ i, decode (header op :: rest) = .ok i ∧ i.op.code = lo8 (header op))) := by
  have hh := header_reserved op
  have hop := opOf_header op
  subst hchars
  refine ⟨fun hs hl => decode_noCount hh hop (hnone hs hl),
    fun hl => ⟨fun hne => ?_, fun he hc => ?_, fun he hc => ?_⟩⟩
  · exact decode_wrongLength hh hop (hsome hl) hne
  · exact decode_reservedChar hh hop (he ▸ hsome hl) hc
  · refine ⟨_, decode_checked hh hop (he ▸ hsome hl) hc, ?_⟩
    rw [assemble_op, opOf_eq_some_iff.1 hop]

end Sys2Proof.Laws

namespace Sys2Proof.Machine

/-! ## The host's next descriptor -/

/-- An idle machine whose other agents wait takes the host's next descriptor (R20, R81). -/
theorem step_submit {s : State} {ws : List Word} {rest : List (List Word)} (hl : s.cfg.Legal) (hb : s.busy = false)
    (henv : s.envMove = none) (hh : s.host = ws :: rest) : step s = submit ws { s.dropStay with host := rest } := by
  rw [step, if_pos hl, if_neg (by simp [hb])]
  simp only [idleStep, henv, hh]

theorem submit_ok {ws : List Word} {i : Instr} (h : decode ws = .ok i) (s : State) : submit ws s = exec i s := by
  simp only [submit, h]

theorem submit_error {ws : List Word} {e : DecodeError} (h : decode ws = .error e) (s : State) :
    submit ws s = .next (rejectDescriptor ws s) := by
  simp only [submit, h]

/-- A rejection at an idle core writes the status and the latch, and draws the free value the latch then has (R23). -/
theorem rejectDescriptor_frame {s : State} (h : s.Idle) (ws : List Word) :
    { rejectDescriptor ws s with status := s.status, opCode := s.opCode, opWords := s.opWords, draws := s.draws } = s := by
  have hb := h.2
  have hc := h.rest.2
  have hch := h.stable
  cases s
  subst hb hc hch
  cases ws <;> rfl

end Sys2Proof.Machine
end

section
namespace Sys2Proof.Proofs
open Sys2Proof.Machine Sys2Proof.Laws

/-- Settles O2: the descriptor passes every check, and assembly undoes the encoder. -/
theorem decodeEncode : Obligations.DecodeEncode := fun i h =>
  decode_ok_iff.2 ⟨i.op, operandWords i, rfl, descriptorLength_encode h, charWords_encode i, assemble_encode i⟩

/-- Settles O3: what passes the checks is the descriptor of what is assembled from it. -/
theorem encodeDecode : Obligations.EncodeDecode := by
  intro ws i h
  obtain ⟨op, rest, rfl, hl, hc, rfl⟩ := decode_ok_iff.1 h
  exact encode_assemble hl hc

/-- Settles O4: the header checks, then for each row of the opcode map the checks of its length and `char` words. -/
theorem decodeChecks : Obligations.DecodeChecks := by
  refine ⟨rfl, fun h rest => ⟨decode_reservedHeader, fun hh hno => decode_reservedOpcode hh ?_, fun hh hmem => ?_⟩⟩
  · exact Option.eq_none_iff_forall_ne_some.2 fun op hop => hno (mem_opcodes_iff.2 ⟨op, hop⟩)
  · obtain ⟨op, hop⟩ := mem_opcodes_iff.1 hmem
    obtain rfl := eq_header hh hop
    cases op with
    | drawString =>
      exact decode_operandChecks (fun _ => countedLength_none) (fun hl => countedLength_some (hl rfl)) rfl
    | drawFastString =>
      exact decode_operandChecks (fun _ => countedLength_none) (fun hl => countedLength_some (hl rfl)) rfl
    | _ => exact decode_operandChecks nofun (fun _ => rfl) rfl

/-- Settles O5: the step is a rejection, which leaves the rest of an idle core as it was. -/
theorem malformedDescriptor : Obligations.MalformedDescriptor := by
  intro s ws rest e h henv hh he
  obtain ⟨ms, -, hd⟩ := dropStay_eq s
  refine ⟨_, (step_submit h.legal h.2 henv hh).trans (submit_error he _), rfl, ?_, ?_⟩
  · cases ws <;> rfl
  · rw [hd]
    exact congrArg (fun u : State => { u with host := s.host, moves := s.moves })
      (rejectDescriptor_frame (submit_idle h.1 h.2 ms rest) ws)

/-- Settles O1: each descriptor by evaluation of the decoder. -/
theorem sampleWords : Obligations.SampleWords := by
  unfold Obligations.SampleWords
  decide

/-- Settles O6: the step is the host's submit, and a descriptor that decodes runs its operation. -/
theorem stepRunsDecoded : Obligations.StepRunsDecoded := fun _ _ _ _ hl hb henv hh hi =>
  (step_submit hl hb henv hh).trans (submit_ok hi _)

end Sys2Proof.Proofs
end

section
/-! PROOF. The colour conversion as arithmetic on its fields (40_color_converter.md R100, R101, R103), and CONVERT's
frame (R102). -/

namespace Sys2Proof.Machine

/-! ## The colour conversion -/

/-- A field of a word as arithmetic (R10). -/
theorem toNat_extractLsb' (c : Word) (start len : Nat) :
    (c.extractLsb' start len).toNat = c.toNat / 2 ^ start % 2 ^ len := by
  rw [BitVec.extractLsb'_toNat, Nat.shiftRight_eq_div_pow]

theorem convertColor_r_toNat (c : Word) : (convertColor c).r.toNat = c.toNat / 2048 * 8 := by
  have hc : c.toNat / 2 ^ 11 < 2 ^ 5 := Nat.div_lt_of_lt_mul c.isLt
  rw [convertColor, toNat_append_add, toNat_extractLsb', Nat.mod_eq_of_lt hc]
  rfl

theorem convertColor_g_toNat (c : Word) : (convertColor c).g.toNat = c.toNat / 32 % 64 * 4 := by
  rw [convertColor, toNat_append_add, toNat_extractLsb']
  rfl

theorem convertColor_b_toNat (c : Word) : (convertColor c).b.toNat = c.toNat % 32 * 8 := by
  rw [convertColor, toNat_append_add, toNat_extractLsb', Nat.pow_zero, Nat.div_one]
  rfl

/-- No bit of a colour is lost: the word is the sum of its three fields at their places (R103). -/
theorem convertColor_injective {c c' : Word} (h : convertColor c = convertColor c') : c = c' := by
  have hr : c.toNat / 2048 * 8 = c'.toNat / 2048 * 8 := by rw [← convertColor_r_toNat, h, convertColor_r_toNat]
  have hg : c.toNat / 32 % 64 * 4 = c'.toNat / 32 % 64 * 4 := by
    rw [← convertColor_g_toNat, h, convertColor_g_toNat]
  have hb : c.toNat % 32 * 8 = c'.toNat % 32 * 8 := by rw [← convertColor_b_toNat, h, convertColor_b_toNat]
  apply BitVec.eq_of_toNat_eq
  omega

/-- `{R, G, B}` (R35): a byte each. -/
theorem packed_toNat (d : DeviceColor) : d.packed.toNat = 65536 * d.r.toNat + 256 * d.g.toNat + d.b.toNat := by
  rw [DeviceColor.packed, toNat_append_add, toNat_append_add]
  omega

theorem convertColor_packed_toNat (c : Word) : (convertColor c).packed.toNat =
    65536 * (c.toNat / 2048 * 8) + 256 * (c.toNat / 32 % 64 * 4) + c.toNat % 32 * 8 := by
  rw [packed_toNat, convertColor_r_toNat, convertColor_g_toNat, convertColor_b_toNat]

/-! ## CONVERT -/

/-- The end of an operation that has left an idle core as it was: only the status and the latch differ, and the draw of
the free value the latch then has (R23, R205). -/
theorem endOp_calm_frame {s : State} (h : s.Idle) (st : Status) :
    { (s.endOp st).calm with status := s.status, opCode := s.opCode, opWords := s.opWords, draws := s.draws } =
      s.calm := by
  have hb := h.2
  have hc := h.rest.2
  have hch := h.stable
  cases s
  subst hb hc hch
  rfl

/-- The end of CONVERT: `result` differs as well (R102). -/
theorem endOp_result_frame {s t : State} {v : BitVec 24} {st : Status} (h : s.Idle)
    (ht : t.calm = ({ s with result := v } : State).calm.endOp st) :
    { t.calm with status := s.status, result := s.result, opCode := s.opCode, opWords := s.opWords, draws := s.draws } =
      s.calm := by
  rw [ht]
  exact endOp_calm_frame h st

end Sys2Proof.Machine
end

section
namespace Sys2Proof.Proofs
open Sys2Proof.Machine

/-- Settles O13: each byte is a field with zeros appended, and the three fields make up the word. -/
theorem convertFunction : Obligations.ConvertFunction :=
  ⟨fun c => ⟨convertColor_r_toNat c, convertColor_g_toNat c, convertColor_b_toNat c⟩,
    fun _ _ h => convertColor_injective h⟩

/-- Settles O14: CONVERT is the write of `result` and the end, which the engine alone decides; neither step waits, so no
other agent has a part in them. -/
theorem convertCompletes : Obligations.ConvertCompletes := by
  intro s c h hst
  obtain ⟨t, hex, hcalm, -⟩ := operate_convert (i := .convert c) (v := (convertColor c).packed) h hst
  have hstatus : t.status = .ok := congrArg State.status hcalm
  have hresult : t.result = (convertColor c).packed := congrArg State.result hcalm
  exact ⟨t, hex, hstatus, hresult ▸ convertColor_packed_toNat c, endOp_result_frame h hcalm⟩

end Sys2Proof.Proofs
end

section
/-! PROOF. What SET_WINDOW leaves (41_window_sequencer.md R110, R111, R113), and that its window does not depend on the
order of the bounds (R112). -/

namespace Sys2Proof.Machine

/-! ## Normalised bounds -/

/-- The two bounds of an axis come out in order, swapped if need be, and never changed (R112). -/
theorem bounds_ordered (a b : Word) :
    let lo := bound (min a.toNat b.toNat)
    let hi := bound (max a.toNat b.toNat)
    lo.toNat ≤ hi.toNat ∧ ((lo = a ∧ hi = b) ∨ (lo = b ∧ hi = a)) := by
  rw [bound_min, bound_max]
  by_cases hab : a.toNat ≤ b.toNat
  · rw [if_pos hab, if_pos hab]
    exact ⟨hab, .inl ⟨rfl, rfl⟩⟩
  · rw [if_neg hab, if_neg hab]
    exact ⟨Nat.le_of_not_le hab, .inr ⟨rfl, rfl⟩⟩

theorem normWindow_swap_x (x1 y1 x2 y2 : Nat) : normWindow x2 y1 x1 y2 = normWindow x1 y1 x2 y2 := by
  rw [normWindow, normWindow, Nat.min_comm x2, Nat.max_comm x2]

theorem normWindow_swap_y (x1 y1 x2 y2 : Nat) : normWindow x1 y2 x2 y1 = normWindow x1 y1 x2 y2 := by
  rw [normWindow, normWindow, Nat.min_comm y2, Nat.max_comm y2]

/-! ## What operations that perform some events leave -/

/-- While a block is outstanding, the settled trace ends in its completion. -/
theorem settled_getLast?_of_inFlight {s : State} (h : s.inFlight = true) : s.settled.getLast? = some .done := by
  simp [State.settled, h]

theorem Performed.kept {s t : State} {es : List Event} {m : Nat} (h : Performed s t es m) (hf : s.faulted = false) :
    s.Kept t :=
  { result := h.result
    faulted := h.ready.2.1.trans hf.symm
    cfg := h.cfg
    bmem := h.bmem
    glyphs := h.glyphs
    host := h.host
    tail := congrArg (·.2.2.2.2) h.lasting
    busy := h.ready.1.2
    cont := h.ready.1.rest.2 }

/-- An open stream with nothing staged has both cursors at 0 (R26). -/
theorem cursors_of_staged_nil {t : State} (h : t.Ready) (ho : t.streamOpen = true) (hst : t.staged = []) :
    t.cursor0 = 0 ∧ t.cursor1 = 0 := by
  obtain ⟨hi, hf, -⟩ := h
  have hs : InStream (accepted t [] []).calm [] := hst ▸ inStream_of_open hi hf ho
  exact cursors_zero hs.length hs.away

/-! ## An opened window -/

/-- SET_WINDOW has led from `s` to `t`, with the normalised window `w`. -/
structure WindowOpened (s t : State) (w : Window) : Prop where
  performed : Performed s t (s.closeEvents ++ windowEvents s.cfg w) 0
  win : t.win = w
  isOpen : t.streamOpen = true
  staged : t.staged = []

theorem setWindow_opens {s : State} {x1 y1 x2 y2 : Word} (h : s.Ready)
    (hx : max x1.toNat x2.toNat < s.cfg.panelW) (hy : max y1.toNat y2.toNat < s.cfg.panelH) :
    ∃ t, exec (.setWindow x1 y1 x2 y2) s = .next t ∧
      WindowOpened s t (normWindow x1.toNat y1.toNat x2.toNat y2.toNat) := by
  obtain ⟨t, ht, hp, hw, ho, hst⟩ := setWindow_performed h hx hy
  exact ⟨t, ht, hp, hw, ho, hst⟩

namespace WindowOpened

variable {s t u : State} {w : Window}

/-- The last event is the scope's acquisition, so no block is outstanding: its completion would be the last. -/
theorem inFlight (h : WindowOpened s t w) : t.inFlight = false := by
  by_contra hfl
  have hlast := settled_getLast?_of_inFlight (Bool.eq_true_of_not_eq_false hfl)
  rw [h.performed.settled, ← List.append_assoc] at hlast
  simp [windowEvents] at hlast

theorem xfer (h : WindowOpened s t w) : t.xfer = none := by
  have hx := h.performed.ready.1.rest.1.1.xferIff
  rw [h.inFlight] at hx
  simpa using hx

theorem trace (h : WindowOpened s t w) : t.trace = s.settled ++ s.closeEvents ++ windowEvents s.cfg w := by
  rw [← State.settled_of_idle h.inFlight, h.performed.settled, List.append_assoc]

/-- Only the blocks of the implicit `finish` flip `active` (R110, R124). -/
theorem active (h : WindowOpened s t w) : t.active = activeAfter s.cfg.mode (blockCount s.closeEvents) s.active := by
  rw [h.performed.active, blockCount_append]
  rfl

/-- What is observed of an opened window is determined by the window. -/
theorem agree (ht : WindowOpened s t w) (hu : WindowOpened s u w) : u.status = t.status ∧ u.trace = t.trace ∧
    u.win = t.win ∧ u.active = t.active ∧ u.streamOpen = t.streamOpen :=
  ⟨hu.performed.status.trans ht.performed.status.symm, hu.trace.trans ht.trace.symm, hu.win.trans ht.win.symm,
    hu.active.trans ht.active.symm, hu.isOpen.trans ht.isOpen.symm⟩

end WindowOpened

end Sys2Proof.Machine
end

section
namespace Sys2Proof.Proofs
open Sys2Proof.Machine

/-- Settles O15: the operation ends on the scope's acquisition, so no block is outstanding and the trace is settled; the
rest is what the engine's run of `set_window` leaves. -/
theorem setWindowCompletes : Obligations.SetWindowCompletes := by
  intro s x1 y1 x2 y2 h hx hy ax1 ax2 ay1 ay2
  have hw : normWindow x1.toNat y1.toNat x2.toNat y2.toNat = ⟨ax1, ay1, ax2, ay2⟩ := by
    rw [normWindow, bound_min, bound_min, bound_max, bound_max]
  obtain ⟨t, ht, ho⟩ := setWindow_opens h hx hy
  rw [hw] at ho
  obtain ⟨h0, h1⟩ := cursors_of_staged_nil ho.performed.ready ho.isOpen ho.staged
  exact ⟨t, ht, ho.performed.ready, ho.performed.status, ho.trace, ho.win, ho.isOpen, ho.staged, h0, h1, ho.inFlight,
    ho.xfer, ho.active, ho.performed.kept h.2.1, fun i a => ho.performed.bufs i a a.zero_le⟩

/-- Settles O16: each axis is ordered on its own; and what SET_WINDOW leaves is determined by the window, which is the
same for any order of the bounds. -/
theorem windowNormalised : Obligations.WindowNormalised := by
  refine ⟨fun x1 y1 x2 y2 => ?_, fun s x1 y1 x2 y2 h hx hy => ?_⟩
  · obtain ⟨hxle, hxs⟩ := bounds_ordered x1 x2
    obtain ⟨hyle, hys⟩ := bounds_ordered y1 y2
    exact ⟨hxle, hyle, hxs, hys, normWindow_swap_x .., normWindow_swap_y ..⟩
  · obtain ⟨t, ht, ho⟩ := setWindow_opens h hx hy
    refine ⟨t, ht, ho.win, fun i hi => ?_⟩
    have hx' : max x2.toNat x1.toNat < s.cfg.panelW := Nat.max_comm .. ▸ hx
    have hy' : max y2.toNat y1.toNat < s.cfg.panelH := Nat.max_comm .. ▸ hy
    have hopen : ∃ u, exec i s = .next u ∧
        WindowOpened s u (normWindow x1.toNat y1.toNat x2.toNat y2.toNat) := by
      simp only [List.mem_cons, List.not_mem_nil, or_false] at hi
      obtain rfl | rfl | rfl := hi
      · rw [← normWindow_swap_x]
        exact setWindow_opens h hx' hy
      · rw [← normWindow_swap_y]
        exact setWindow_opens h hx hy'
      · rw [← normWindow_swap_x, ← normWindow_swap_y]
        exact setWindow_opens h hx' hy'
    obtain ⟨u, hu, huo⟩ := hopen
    exact ⟨u, hu, ho.agree huo⟩

end Sys2Proof.Proofs
end

section
/-! PROOF. PUSH_PIXEL and FINISH at the staging buffers (42_staging_manager.md R121 to R133), the blocks of a stream
(R126), and the transport's step (R127, R128). -/

namespace Sys2Proof.Machine

/-! ## The configuration -/

theorem step_illegal {s : State} (h : ¬ s.cfg.Legal) : step s = .refused .illegalConfiguration := if_neg h

theorem exec_illegal {s : State} (h : ¬ s.cfg.Legal) (i : Instr) : exec i s = .refused .illegalConfiguration := by
  obtain ⟨steps, hex, -⟩ := exec_operate i s
  exact hex.trans (if_neg h)

/-! ## TransferDone -/

theorem envMove_done {s : State} {ms : List Move} (hm : s.moves = .done :: ms) :
    s.envMove = if s.inFlight then some (State.transferDone { s with moves := ms }) else none := by
  simp only [State.envMove, hm]

/-- Once the listed moves are used up, a lazy transport completes a block when no other step is left. -/
theorem envMove_lazy {s : State} (hm : s.moves = []) (ht : s.tail = .lazy) :
    s.envMove = if s.coreBlocked && s.inFlight then some s.transferDone else none := by
  simp only [State.envMove, hm, ht]

/-- The engine is held at a wait behind an outstanding block (R13). -/
theorem held_iff {s : State} :
    s.held = true ↔ s.busy = true ∧ s.inFlight = true ∧ ∃ k, s.cont = .waitIdle :: k := by
  unfold State.held
  split <;> simp_all

theorem held_inFlight {s : State} (h : s.held = true) : s.inFlight = true := (held_iff.1 h).2.1

theorem coreBlocked_of_held {s : State} (h : s.held = true) : s.coreBlocked = true := by
  rw [State.coreBlocked, if_pos (held_busy h), h]

/-! ## Which steps write a buffer byte -/

/-- No other agent writes a buffer. -/
theorem envMove_buf {s t : State} (h : s.envMove = some t) (i : BufIx) : t.buf i = s.buf i := by
  obtain ⟨ms, -, rfl | ⟨-, rfl⟩ | ⟨-, rfl⟩ | ⟨n, rfl⟩ | ⟨a, w, -, rfl⟩ | ⟨code, j, v, -, rfl⟩⟩ := envMove_cases h
  all_goals cases i <;> simp [State.buf]

/-- Of the engine's steps only the one that stores a pixel writes a buffer (R121). -/
theorem engineDo_buf {s t : State} {e : EStep} (he : ∀ p, e ≠ .store p) (h : engineDo e s = .moved t) (i : BufIx) :
    t.buf i = s.buf i := by
  cases e with
  | store p => exact absurd rfl (he p)
  | faultCheck | raiseIf | requireStream | closeStream | flushIfFull | flushIfAny => cases h; split <;> rfl
  | waitIdle =>
    simp only [engineDo] at h
    split at h <;> cases h
    rfl
  | issue =>
    simp only [engineDo, issueStep] at h
    split at h <;> cases h
    rfl
  | advance | clearCursor => cases h; exact State.buf_setCursor ..
  | emit | writeWin | openStream | readHeader | flipActive | shutStream | writeResult | finishOp => cases h; rfl

theorem BufIx.eq_or_other (i j : BufIx) : i = j ∨ i = j.other := by cases i <;> cases j <;> decide

/-- The store of a pixel writes its three bytes at the active buffer's cursor, and nothing else (R121). -/
theorem storePixel_buf {s t : State} {d : DeviceColor} (h : storePixel s d = .moved t) (i : BufIx) :
    t.buf i = if i = s.active then Memory.writePixel (s.buf i) (s.cursor i) d else s.buf i := by
  unfold storePixel at h
  split at h <;> cases h
  obtain rfl | rfl := BufIx.eq_or_other i s.active
  · rw [if_pos rfl, State.buf_setBuf_same]
  · rw [if_neg (BufIx.other_ne _), State.buf_setBuf_other]

/-- A buffer is full of pixels at `3k`, `k = floor(C/3)`, which is where another pixel would pass `C` (R122). -/
theorem full_iff {n c : Nat} (hmod : n % 3 = 0) (hle : n ≤ c) : n = 3 * (c / 3) ↔ c < n + 3 := by omega

/-- A step of a busy machine writes no buffer byte from `3k` on: the cursor is a multiple of 3 and the pixel fits. -/
theorem tick_buf_beyond {s t : State} (hs : s.Inv) (hb : s.busy = true) (h : tick s = .moved t) (i : BufIx) {a : Nat}
    (ha : 3 * (s.cfg.capacity / 3) ≤ a) : Memory.read? (t.buf i) a = Memory.read? (s.buf i) a := by
  obtain henv | ⟨e, k, hc, he⟩ := tick_cases h
  · rw [envMove_buf henv]
  obtain ⟨ms, -, hd⟩ := dropStay_eq s
  rw [hd] at he
  by_cases hst : ∃ p, e = .store p
  · obtain ⟨p, rfl⟩ := hst
    obtain ⟨ph, q, hp, -⟩ := inv_next hs hb hc
    obtain ⟨o, hbase⟩ := hp.base
    have hmod := hbase.cursorMod
    obtain ⟨-, -, hfit, -⟩ := inv_store hs hb hc
    rw [storePixel_buf he i]
    show Memory.read? (if i = s.active then Memory.writePixel (s.buf i) (s.cursor i) _ else s.buf i) a = _
    split
    next hi =>
      subst hi
      rw [Memory.read?_writePixel, if_neg (by omega), if_neg (by omega), if_neg (by omega)]
    next => rfl
  · rw [engineDo_buf (fun p hp => hst ⟨p, hp⟩) he i]
    rfl

theorem tick_cfg {s t : State} (h : tick s = .moved t) : t.cfg = s.cfg := congrArg (·.1) (tick_fixed h)

theorem reaches_buf_beyond {s t : State} (hr : Reaches s t) (hs : s.Inv) (i : BufIx) {a : Nat}
    (ha : 3 * (s.cfg.capacity / 3) ≤ a) : Memory.read? (t.buf i) a = Memory.read? (s.buf i) a := by
  induction hr with
  | refl => rfl
  | step hb ht _ ih =>
    rw [ih (tick_inv hs hb ht) (by rwa [tick_cfg ht]), tick_buf_beyond hs hb ht i ha]

theorem rejectDescriptor_buf (ws : List Word) (s : State) (i : BufIx) : (rejectDescriptor ws s).buf i = s.buf i := by
  cases ws <;> rfl

theorem accept_buf (s : State) (i : Instr) (k : List EStep) (j : BufIx) : (s.accept i k).buf j = s.buf j := by
  cases j <;> simp [State.buf]

/-- So does no step of the machine. -/
theorem step_buf_beyond {s t : State} (hs : s.Inv) (h : step s = .next t) (i : BufIx) {a : Nat}
    (ha : 3 * (s.cfg.capacity / 3) ≤ a) : Memory.read? (t.buf i) a = Memory.read? (s.buf i) a := by
  cases step_stepped h with
  | ran hb hr hst => exact reaches_buf_beyond hr hs i ha
  | moved hb h => rw [envMove_buf h]
  | passed hb ms ht => rw [ht]; rfl
  | rejected hb ws ms rest ht => rw [ht, rejectDescriptor_buf]; rfl
  | accepted hb j steps ms rest hms hty hr hst =>
    rw [reaches_buf_beyond hr (accepted_inv (submit_idle hs hb ms rest) hty) i (by simpa using ha), accept_buf]
    rfl

/-! ## PUSH_PIXEL -/

/-- A push that leaves no room for another pixel hands the staged bytes over (R121). -/
theorem pushEvents_full {c : Config} {staged : List Byte} (d : DeviceColor) (h : c.capacity < staged.length + 3 + 3) :
    pushEvents c staged d = ([.block c.mode (staged ++ d.bytes), .done], []) :=
  if_pos (by simpa [DeviceColor.bytes] using h)

theorem pushEvents_room_left {c : Config} {staged : List Byte} (d : DeviceColor)
    (h : ¬ c.capacity < staged.length + 3 + 3) : pushEvents c staged d = ([], staged ++ d.bytes) :=
  if_neg (by simpa [DeviceColor.bytes] using h)

/-- Where the cursors stand in an open stream (R26). -/
theorem open_cursors {s : State} (h : s.Idle) (hf : s.faulted = false) (ho : s.streamOpen = true) :
    s.cursor s.active = s.staged.length ∧ s.cursor s.active.other = 0 := by
  have hs : InStream (accepted s [] []).calm s.staged := inStream_of_open h hf ho
  exact ⟨hs.length, hs.away⟩

/-- A push brings the cursor to `3k` exactly where it leaves no room for another pixel (R122). -/
theorem push_fills_iff {s : State} (h : s.Idle) (hf : s.faulted = false) (ho : s.streamOpen = true) :
    s.cursor s.active + 3 = 3 * (s.cfg.capacity / 3) ↔ s.cfg.capacity < s.cursor s.active + 3 + 3 := by
  obtain ⟨⟨hbase, -⟩, -⟩ := h.rest
  have hmod := hbase.cursorMod
  have hfit := staged_room h hf ho
  rw [← (open_cursors h hf ho).1] at hfit
  exact full_iff (by omega) hfit

/-- PUSH_PIXEL writes the pixel's bytes at the cursor of the active buffer, and no other byte (R121). -/
theorem pushPixel_buf {s t : State} {c : Word} (h : s.Ready) (ho : s.streamOpen = true)
    (ht : exec (.pushPixel c) s = .next t) (i : BufIx) (a : Nat) :
    Memory.read? (t.buf i) a =
      if i = s.active then Memory.read? (Memory.writePixel (s.buf i) (s.cursor i) (convertColor c)) a
      else Memory.read? (s.buf i) a := by
  obtain ⟨hi, hf, hq⟩ := h
  have hp : Passes s.streamOpen s.cfg s.bmem (pushSteps (.color c) ++ [.finishOp .ok])
      (.faultCheck :: .requireStream :: (pushSteps (.color c) ++ [.finishOp .ok])) := .pass (.stream ho .refl)
  obtain ⟨u, hr, huk, -, -, hbuf⟩ := run_push (p := .color c) (k := [.finishOp .ok])
    (accepted_calmed (ws := encode (.pushPixel c)) (steps := pushSteps (.color c) ++ [.finishOp .ok]) hi)
    (inStream_of_open hi hf ho) (staged_room hi hf ho) le_rfl rfl
  obtain ⟨t', ht', htu, -⟩ := operate_ran hi hf hq rfl hp hr huk
  obtain rfl : t' = t := Host.Outcome.next.inj (ht'.symm.trans ht)
  rw [buf_of_calm htu, hbuf i a, accepted_buf]
  rfl

/-! ## FINISH -/

theorem closeEvents_of_shut {s : State} (ho : s.streamOpen = false) : s.closeEvents = [] := by
  simp [State.closeEvents, ho]

theorem closeEvents_of_empty {s : State} (ho : s.streamOpen = true) (hst : s.staged = []) :
    s.closeEvents = [.scopeRelease] := by
  simp [State.closeEvents, finishEvents, ho, hst]

theorem closeEvents_of_staged {s : State} (ho : s.streamOpen = true) (hst : s.staged ≠ []) :
    s.closeEvents = [.block s.cfg.mode s.staged, .done, .scopeRelease] := by
  simp [State.closeEvents, finishEvents, ho, hst]

/-! ## The blocks of a stream -/

/-- The blocks of a stream: those of its pushes, and the remainder's (R126). -/
theorem payloads_stream (c : Config) (st : Stream) :
    payloads (streamEvents c st) = payloads (pushAllEvents c [] st.pixels).1 ++
      if (pushAllEvents c [] st.pixels).2 = [] then [] else [(pushAllEvents c [] st.pixels).2] := by
  rw [streamEvents, payloads_append, payloads_append, payloads_windowEvents, payloads_finishEvents, List.nil_append]

/-- Together the blocks of a stream carry its pixels' bytes in push order (R58, R126). -/
theorem payloads_stream_flatten (c : Config) (st : Stream) :
    (payloads (streamEvents c st)).flatten = st.pixels.flatMap DeviceColor.bytes := by
  rw [streamEvents, List.append_assoc, payloads_append, payloads_windowEvents, List.nil_append, ← flatMap_payload,
    stream_payload]

theorem pushEvents_mode (c : Config) (m : Mode) (staged : List Byte) (d : DeviceColor) :
    payloads (pushEvents { c with mode := m } staged d).1 = payloads (pushEvents c staged d).1 ∧
      (pushEvents { c with mode := m } staged d).2 = (pushEvents c staged d).2 := by
  simp only [pushEvents]
  split <;> simp

/-- The mode is in the events, and not in the payloads (R126). -/
theorem pushAllEvents_mode (c : Config) (m : Mode) : ∀ (ds : List DeviceColor) (staged : List Byte),
    payloads (pushAllEvents { c with mode := m } staged ds).1 = payloads (pushAllEvents c staged ds).1 ∧
      (pushAllEvents { c with mode := m } staged ds).2 = (pushAllEvents c staged ds).2
  | [], _ => ⟨rfl, rfl⟩
  | d :: ds, staged => by
    obtain ⟨h1, h2⟩ := pushEvents_mode c m staged d
    obtain ⟨i1, i2⟩ := pushAllEvents_mode c m ds (pushEvents c staged d).2
    simp only [pushAllEvents, payloads_append, h1, h2, i1, i2, and_self]

theorem payloads_stream_mode (c : Config) (m : Mode) (st : Stream) :
    payloads (streamEvents { c with mode := m } st) = payloads (streamEvents c st) := by
  obtain ⟨h1, h2⟩ := pushAllEvents_mode c m st.pixels []
  rw [payloads_stream, payloads_stream, h1, h2]

/-- `ceil(n/k)` is `floor(n/k)`, and one more if there is a remainder. -/
theorem ceil_div (n : Nat) {k : Nat} (hk : 0 < k) : (n + k - 1) / k = n / k + if n % k = 0 then 0 else 1 := by
  have hr := Nat.mod_lt n hk
  have hn := Nat.div_add_mod n k
  split
  next h0 =>
    rw [show n + k - 1 = k * (n / k) + (k - 1) by omega, Nat.mul_add_div hk,
      Nat.div_eq_of_lt (show k - 1 < k by omega)]
  next h0 =>
    rw [show n + k - 1 = k * (n / k + 1) + (n % k - 1) by rw [Nat.mul_succ]; omega, Nat.mul_add_div hk,
      Nat.div_eq_of_lt (show n % k - 1 < k by omega)]

/-- The blocks of `n` pixels of `k` to a buffer: `floor(n/k)` of `3k` bytes, then one of the remainder. -/
structure BlocksOf (k n : Nat) (ps : List (List Byte)) : Prop where
  count : ps.length = (n + k - 1) / k
  full : ∀ j, j < n / k → ∃ p, ps[j]? = some p ∧ p.length = 3 * k
  rest : 0 < n % k → ∃ p, ps[n / k]? = some p ∧ p.length = 3 * (n % k)

theorem blocksOf_append {k n : Nat} {ps : List (List Byte)} {last : List Byte} (hk : 0 < k) (hn : ps.length = n / k)
    (hl : last.length = 3 * (n % k)) (hps : ∀ p ∈ ps, p.length = 3 * k) :
    BlocksOf k n (ps ++ if last = [] then [] else [last]) where
  count := by
    have hlast : last = [] ↔ n % k = 0 := by rw [← List.length_eq_zero_iff]; omega
    rw [List.length_append, hn, ceil_div n hk]
    simp only [hlast]
    split <;> rfl
  full := fun j hj => by
    rw [← hn] at hj
    exact ⟨ps[j], by rw [List.getElem?_append_left hj, List.getElem?_eq_getElem hj], hps _ (List.getElem_mem hj)⟩
  rest := fun hr => by
    have hlast : last ≠ [] := List.ne_nil_of_length_pos (by omega)
    exact ⟨last, by rw [if_neg hlast, List.getElem?_append_right hn.le, hn]; simp, hl⟩

theorem stream_blocksOf {c : Config} (hc : 3 ≤ c.capacity) (st : Stream) :
    BlocksOf (c.capacity / 3) st.pixels.length (payloads (streamEvents c st)) := by
  have hk : 0 < c.capacity / 3 := by omega
  obtain ⟨h1, h2, h3⟩ := pushAll_blocks c st.pixels [] 0 rfl hk
  rw [Nat.zero_add] at h1 h2
  rw [payloads_stream]
  exact blocksOf_append hk h1 h2 h3

end Sys2Proof.Machine
end

section
namespace Sys2Proof.Proofs
open Sys2Proof.Machine

/-- Settles O50: each listed bound contradicts one of the ranges of `Config.Legal`. -/
theorem illegalConfigurationRefused : Obligations.IllegalConfigurationRefused := by
  intro s h
  have hl : ¬ s.cfg.Legal := by unfold Config.Legal; omega
  exact ⟨step_illegal hl, exec_illegal hl⟩

/-- Settles O51: where TransferDone is next it is the machine's step, in a busy and in an idle machine; and it is next
exactly as `envMove` says of a listed one and of a lazy transport. -/
theorem transferDoneStep : Obligations.TransferDoneStep := by
  refine ⟨fun s ms hm => ?_, fun s hm ht => ?_⟩
  · have henv := envMove_done hm
    refine ⟨fun hf => ?_, fun hf => ⟨fun _ => ?_, fun hb hl => ?_⟩⟩
    · rw [henv, hf]; rfl
    · rw [hf] at henv
      exact tick_of_envMove henv
    · rw [hf] at henv
      exact step_of_envMove hl hb henv
  · have henv := envMove_lazy hm ht
    refine ⟨fun h => ?_, fun hb hh => ?_, fun hb hho hf hl => ?_⟩
    · rw [henv]
      refine if_neg ?_
      rcases h with hf | ⟨hb, hh⟩ | ⟨hb, hho⟩
      · simp [hf]
      · simp [State.coreBlocked, hb, hh]
      · simp [State.coreBlocked, hb, hho]
    · rw [coreBlocked_of_held hh, held_inFlight hh] at henv
      exact tick_of_envMove henv
    · have hblk : s.coreBlocked = true := by simp [State.coreBlocked, hb, hho]
      rw [hblk, hf] at henv
      exact step_of_envMove hl hb henv

/-- Settles O17: the engine's run of `push_pixel` tells the events and what is staged after it; where the buffer was not
filled, no block flipped `active` or cleared a cursor. -/
theorem pushPixelCompletes : Obligations.PushPixelCompletes := by
  intro s c h ho d at0 bytes full
  obtain ⟨t, ht, hp, hw, hto, hts⟩ := pushPixel_performed c h ho le_rfl
  obtain ⟨hcur, haway⟩ := open_cursors h.1 h.2.1 ho
  obtain ⟨htcur, htaway⟩ := open_cursors hp.ready.1 hp.ready.2.1 hto
  refine ⟨t, ht, hp.ready, hp.status, hto, hw, hp.kept h.2.1, fun hfull => ?_, fun hfull => ?_, fun i a => ?_⟩
  · have hev := pushEvents_room_left d (c := s.cfg) (staged := s.staged) (hcur ▸ hfull)
    have hact : t.active = s.active := by
      rw [hp.active, hev]
      exact activeAfter_zero ..
    rw [hev] at hts
    refine ⟨by rw [hp.settled, hev, List.append_nil], hts, hact, ?_, ?_⟩
    · rw [← hact, htcur, hts]
      simp [DeviceColor.bytes, at0, hcur]
    · rw [← hact, htaway, hact, haway]
  · have hev := pushEvents_full d (c := s.cfg) (staged := s.staged) (hcur ▸ hfull)
    rw [hev] at hts
    obtain ⟨h0, h1⟩ := cursors_of_staged_nil hp.ready hto hts
    refine ⟨by rw [hp.settled, hev]; rfl, hts, ?_, h0, h1⟩
    rw [hp.active, hev]
    rfl
  · rw [pushPixel_buf h ho ht i a]
    by_cases hi : i = s.active
    · subst hi
      simp only [true_and, if_true]
      exact Memory.read?_writePixel ..
    · simp only [hi, false_and, if_false]

/-- Settles O18: at the push's test the cursor is a multiple of 3 within `C`, so to be at `3k` is to have no room for
another pixel; and the only step that writes a buffer is a store, which fits. -/
theorem flushTrigger : Obligations.FlushTrigger := by
  refine ⟨fun s k hs hb henv hc => ?_, fun s c h ho => ?_,
    fun s t hs hstep i a ha => step_buf_beyond hs hstep i ha⟩
  · obtain ⟨o, hbase⟩ : ∃ o, s.Base o := by
      obtain ⟨p, q, hp, -⟩ := inv_next hs hb hc
      exact hp.base
    have hiff := full_iff hbase.cursorMod hbase.cursorLe
    obtain ⟨ms, -, hd⟩ := dropStay_eq s
    rw [tick_engine henv hc, hd]
    refine ⟨hiff, fun hfull => ?_, fun hroom => ?_⟩
    · exact congrArg Tick.moved (if_pos (hiff.1 hfull))
    · exact congrArg Tick.moved (if_neg (mt hiff.2 hroom))
  · obtain ⟨t, ht, hp, -⟩ := pushPixel_performed c h ho le_rfl
    have hiff := push_fills_iff h.1 h.2.1 ho
    obtain ⟨hcur, -⟩ := open_cursors h.1 h.2.1 ho
    rw [hcur] at hiff ⊢
    refine ⟨t, ht, fun hroom => ?_, fun hfull => ?_⟩
    · rw [hp.settled, pushEvents_room_left _ (mt hiff.2 hroom), List.append_nil]
    · exact ⟨s.staged ++ (convertColor c).bytes, by rw [hp.settled, pushEvents_full _ (hiff.1 hfull)],
        by rw [List.length_append, ← hfull]; rfl⟩

/-- Settles O19: FINISH performs the events of closing the stream, and leaves the core with no stream open. -/
theorem finishCompletes : Obligations.FinishCompletes := by
  intro s h
  obtain ⟨t, ht, hp, hw, ho⟩ := finish_performed h
  obtain ⟨-, -, hfl, h0, h1⟩ := idle_closed hp.ready.1 hp.ready.2.1 ho
  obtain ⟨⟨hbase, -⟩, -⟩ := hp.ready.1.rest
  have hx : t.xfer.isSome = false := hbase.xferIff.trans hfl
  have htr : t.trace = s.settled ++ s.closeEvents := (State.settled_of_idle hfl).symm.trans hp.settled
  have hact := hp.active
  refine ⟨t, ht, hp.ready, hp.status, fun hso => ?_, fun hso hst => ?_, fun hso hst => ?_, ho, hfl,
    by simpa using hx, h0, h1, hw, hp.kept h.2.1, fun i a => hp.bufs i a a.zero_le⟩
  · rw [closeEvents_of_shut hso] at htr hact
    exact ⟨htr.trans (List.append_nil _), hact.trans (activeAfter_zero ..)⟩
  · rw [closeEvents_of_empty hso hst] at htr hact
    exact ⟨htr, hact.trans (activeAfter_zero ..)⟩
  · rw [closeEvents_of_staged hso hst] at htr hact
    exact ⟨htr, hact⟩

/-- Settles O20: the blocks of the pushes are full ones, and `finish` adds one of the remainder; the low-level
operations perform the events of the whole stream. -/
theorem streamLaw : Obligations.StreamLaw := by
  refine ⟨fun c st hc => ?_, fun s x1 y1 x2 y2 cs h hx hy => ?_⟩
  · obtain ⟨hcount, hfull, hrest⟩ := stream_blocksOf hc st
    exact ⟨hcount, hfull, hrest, payloads_stream_flatten c st, fun m => payloads_stream_mode c m st⟩
  · obtain ⟨t, ht, hp, hw, ho⟩ := lowLevel_performed cs h hx hy
    refine ⟨t, _, ht, ?_, rfl⟩
    rw [(hp.drawn hw ho).trace]
    simp

/-- Settles O37: behind the fault check the stream check ends the operation, which has then done nothing. -/
theorem pushWithoutStream : Obligations.PushWithoutStream := by
  intro s c h hst hf ho
  have he : EndsAt s.faulted s.streamOpen s.cfg s.bmem .illegalOperation
      (.faultCheck :: .requireStream :: (pushSteps (.color c) ++ [.finishOp .ok])) := .pass hf (.stream _ ho rfl)
  obtain ⟨t, ht, hcalm, -⟩ := operate_ends (i := .pushPixel c) h hst rfl he
  exact ⟨t, ht, endsPrecisely_of_calm h hcalm, fun i a => by rw [← State.calm_buf t, hcalm]; cases i <;> rfl⟩

end Sys2Proof.Proofs
end

section
/-! PROOF. The engine beside a silent transport and no timeout (R131, R212): no other agent has a step, so the machine
does what the engine does, and stops at the first wait behind a block. -/

namespace Sys2Proof.Machine

theorem Reaches.trans {s t u : State} (h : Reaches s t) (h' : Reaches t u) : Reaches s u := by
  induction h with
  | refl => exact h'
  | step hb ht _ ih => exact .step hb ht (ih h')

/-- No other agent will ever move: no move is listed, the transport is silent, and there is no timeout event. -/
structure Unattended (s : State) : Prop where
  moves : s.moves = []
  tail : s.tail = .silent
  noTimeout : s.cfg.timeoutEnabled = false

/-- An operation is under way in a machine that no other agent attends to. -/
structure Solo (s : State) : Prop extends Unattended s where
  busy : s.busy = true

theorem Solo.tick_eq {s : State} {e : EStep} {k : List EStep} (h : Solo s) (hc : s.cont = e :: k) :
    tick s = engineDo e { s with cont := k } := by
  have henv : s.envMove = none := by simp [State.envMove, h.moves, h.tail, h.noTimeout]
  have hd : s.dropStay = s := by simp [State.dropStay, h.moves]
  rw [tick_engine henv hc, hd]

/-- Held behind a block, it stays so (R212). -/
theorem Solo.blocked {s : State} (h : Solo s) (hh : s.held = true) : tick s = .blocked := by
  obtain ⟨-, hf, k, hc⟩ := held_iff.1 hh
  rw [h.tick_eq hc]
  exact if_pos hf

theorem Solo.stuck {s : State} (h : Solo s) (hl : s.cfg.Legal) (hh : s.held = true) :
    step s = .fault .engineStuck := by
  rw [step, if_pos hl, if_pos h.busy, resume, h.blocked hh]

/-- The engine's steps lead from `s` to `t` within one operation. -/
structure SoloRun (s t : State) : Prop where
  reaches : Reaches s t
  solo : Solo t

theorem SoloRun.trans {s t u : State} (h : SoloRun s t) (h' : SoloRun t u) : SoloRun s u :=
  ⟨h.reaches.trans h'.reaches, h'.solo⟩

/-- One step that does not end the operation. -/
theorem Solo.move {s t : State} {e : EStep} {k : List EStep} (h : Solo s) (hc : s.cont = e :: k)
    (he : engineDo e { s with cont := k } = .moved t) (hb : t.busy = true) : SoloRun s t := by
  have ht := (h.tick_eq hc).trans he
  have hfix := tick_fixed ht
  refine ⟨.step h.busy ht (.refl t), ⟨?_, (congrArg (·.2.2) hfix).trans h.tail, ?_⟩, hb⟩
  · exact List.suffix_nil.1 (h.moves ▸ tick_moves ht)
  · rw [tick_cfg ht, h.noTimeout]

/-- The step that ends it. -/
theorem Solo.finish {s : State} {st : Status} {k : List EStep} (h : Solo s) (hc : s.cont = .finishOp st :: k) :
    Reaches s (State.endOp { s with cont := k } st) := .step h.busy (h.tick_eq hc) (.refl _)

/-- Where the engine starts. -/
theorem accept_solo {s : State} (h : Unattended s) (i : Instr) (k : List EStep) : Solo (s.accept i k) :=
  ⟨⟨by simpa using h.moves, by simpa using h.tail, by simpa using h.noTimeout⟩, rfl⟩

/-- The fault check of a core that is not faulted (R214). -/
theorem solo_faultCheck {s : State} {k : List EStep} (h : Solo s) (hf : s.faulted = false)
    (hc : s.cont = .faultCheck :: k) : SoloRun s { s with cont := k } :=
  h.move hc (congrArg Tick.moved (if_neg (by simp [hf]))) h.busy

/-! ## Procedures -/

/-- Command and data bytes, one after the other. -/
theorem solo_emits {k : List EStep} : ∀ (es : List Event) {s : State}, Solo s → s.cont = es.map .emit ++ k →
    SoloRun s { s with trace := s.trace ++ es, cont := k }
  | [], s, h, hc => by
    have hs : ({ s with trace := s.trace ++ [], cont := k } : State) = s := by
      rw [List.append_nil, ← hc.trans (List.nil_append k)]
    rw [hs]
    exact ⟨.refl s, h⟩
  | e :: es, s, h, hc => by
    have h1 : SoloRun s { s with trace := s.trace ++ [e], cont := es.map .emit ++ k } := h.move hc rfl h.busy
    have h2 := solo_emits es h1.solo rfl
    rw [show s.trace ++ e :: es = s.trace ++ [e] ++ es by simp]
    exact h1.trans h2

/-- `set_window` with no stream open. -/
theorem solo_window {s : State} {w : Window} {k : List EStep} (h : Solo s) (ho : s.streamOpen = false)
    (hc : s.cont = windowSteps s.cfg w ++ k) : SoloRun s { s with
      trace := s.trace ++ windowEvents s.cfg w, win := w, streamOpen := true, cont := k } := by
  have h1 : SoloRun s { s with cont := (windowSteps s.cfg w).tail ++ k } :=
    h.move hc (congrArg Tick.moved (if_neg (by simp [ho]))) h.busy
  have h2 := solo_emits (k := .writeWin w :: .emit .scopeAcquire :: .openStream :: k)
    [.cmd s.cfg.cmdHRange, .data (hi8 w.x1), .data (lo8 w.x1), .data (hi8 w.x2), .data (lo8 w.x2),
      .cmd s.cfg.cmdVRange, .data (hi8 w.y1), .data (lo8 w.y1), .data (hi8 w.y2), .data (lo8 w.y2),
      .cmd s.cfg.cmdMemWrite] h1.solo rfl
  have hwin := h2.solo.move rfl rfl h.busy
  have hacquire := hwin.solo.move rfl rfl h.busy
  have hopen := hacquire.solo.move rfl rfl h.busy
  have hall := h1.trans (h2.trans (hwin.trans (hacquire.trans hopen)))
  simpa [windowEvents, State.emit] using hall

/-- The store of a pixel and the cursor's advance (R121). -/
def State.pushed (s : State) (d : DeviceColor) : State :=
  (s.setBuf s.active (Memory.writePixel (s.buf s.active) (s.cursor s.active) d)).setCursor s.active
    (s.cursor s.active + 3)

theorem InStream.pushed {s : State} {bytes : List Byte} (h : InStream s bytes) (d : DeviceColor) (k : List EStep) :
    InStream { s.pushed d with cont := k } (bytes ++ d.bytes) where
  isOpen := by simpa [State.pushed] using h.isOpen
  activeOk := by
    have := h.activeOk
    simpa [ActiveOk, State.pushed] using this
  staged := by
    have := Memory.readBlock_writePixel d h.staged
    show Memory.readBlock ((s.pushed d).buf (s.pushed d).active) 0 ((s.pushed d).cursor (s.pushed d).active) = _
    simpa [State.pushed] using this
  away := by
    show (s.pushed d).cursor (s.pushed d).active.other = 0
    simpa [State.pushed] using h.away

/-- `push_pixel`, up to its test (R121). -/
theorem solo_push {s : State} {bytes : List Byte} {c : Word} {k : List EStep} (h : Solo s) (hi : InStream s bytes)
    (hfit : bytes.length + 3 ≤ s.cfg.capacity) (hc : s.cont = pushSteps (.color c) ++ k) :
    SoloRun s { s.pushed (convertColor c) with cont := .flushIfFull :: k } := by
  have h1 : SoloRun s (State.setBuf { s with cont := .advance :: .flushIfFull :: k } s.active
      (Memory.writePixel (s.buf s.active) (s.cursor s.active) (convertColor c))) :=
    h.move hc (if_pos (by rw [← hi.length] at hfit; exact hfit)) (by simpa using h.busy)
  have h2 := h1.solo.move (e := .advance) (k := .flushIfFull :: k) (by simp) rfl (by simpa using h.busy)
  refine h1.trans ?_
  convert h2 using 1
  cases ha : s.active <;> simp [State.pushed, ha, State.setBuf, State.setCursor, State.cursor]

theorem State.setCursor_withCont (s : State) (i : BufIx) (n : Nat) (k : List EStep) :
    State.setCursor { s with cont := k } i n = { s.setCursor i n with cont := k } := by cases i <;> rfl

/-- A flush in ASYNC mode: the block is issued, the cursor cleared and the other buffer made active (R124). -/
def State.flushed (s : State) (bytes : List Byte) : State :=
  { (s.issueBlock bytes).setCursor s.active 0 with active := s.active.other }

@[simp] theorem State.flushed_busy (s : State) (bytes : List Byte) : (s.flushed bytes).busy = s.busy := by
  simp [State.flushed]
@[simp] theorem State.flushed_inFlight (s : State) (bytes : List Byte) : (s.flushed bytes).inFlight = true := by
  simp [State.flushed]
@[simp] theorem State.flushed_active (s : State) (bytes : List Byte) : (s.flushed bytes).active = s.active.other := rfl
@[simp] theorem State.flushed_trace (s : State) (bytes : List Byte) :
    (s.flushed bytes).trace = s.trace ++ [.block s.cfg.mode bytes] := by simp [State.flushed]

theorem State.flushed_xfer {s : State} (h : ActiveOk s) (bytes : List Byte) :
    (s.flushed bytes).xfer = some (s.active, s.cursor s.active) := by
  simp [State.flushed, h.flushIx]

theorem State.flushed_cursor {s : State} (haway : s.cursor s.active.other = 0) (bytes : List Byte) (i : BufIx) :
    (s.flushed bytes).cursor i = 0 := by
  show ((s.issueBlock bytes).setCursor s.active 0).cursor i = 0
  obtain rfl | rfl := BufIx.eq_or_other i s.active
  · exact State.cursor_setCursor_same ..
  · rw [State.cursor_setCursor_other]
    exact haway

theorem InStream.with_cont {s : State} {bytes : List Byte} (h : InStream s bytes) (k : List EStep) :
    InStream { s with cont := k } bytes := ⟨h.isOpen, h.activeOk, h.staged, h.away⟩

/-- The issue step hands over what is staged (R123, R124). -/
theorem solo_issue {s : State} {bytes : List Byte} {k : List EStep} (h : Solo s) (hi : InStream s bytes)
    (hc : s.cont = .issue :: k) : SoloRun s (State.issueBlock { s with cont := k } bytes) := by
  refine h.move hc ?_ h.busy
  have hb : Memory.readBlock (State.buf { s with cont := k } (State.flushIx { s with cont := k })) 0
      (State.cursor { s with cont := k } (State.flushIx { s with cont := k })) = some bytes := by
    have := hi.staged
    rwa [← hi.activeOk.flushIx] at this
  simp only [engineDo, issueStep, hb]

/-- `flush` in ASYNC mode with no block outstanding: it does not wait (R124, R129). -/
theorem solo_flush_async {s : State} {bytes : List Byte} {k : List EStep} (h : Solo s) (hi : InStream s bytes)
    (hf : s.inFlight = false) (hc : s.cont = flushSteps .async ++ k) :
    SoloRun s { s.flushed bytes with cont := k } := by
  have h1 : SoloRun s { s with cont := .issue :: .clearCursor :: .flipActive :: k } :=
    h.move hc (if_neg (by simp [hf])) h.busy
  have h2 := solo_issue h1.solo (hi.with_cont _) rfl
  have hclear : State.setCursor (State.issueBlock { s with cont := .flipActive :: k } bytes) s.flushIx 0 =
      { (s.issueBlock bytes).setCursor s.active 0 with cont := .flipActive :: k } := by
    rw [hi.activeOk.flushIx]
    exact State.setCursor_withCont (s.issueBlock bytes) s.active 0 _
  have h3 : SoloRun _ { (s.issueBlock bytes).setCursor s.active 0 with cont := .flipActive :: k } :=
    h2.solo.move rfl (congrArg Tick.moved hclear) (by simpa using h.busy)
  have h4 : SoloRun _ { s.flushed bytes with cont := k } :=
    h3.solo.move rfl (by simp [engineDo, State.flushed]) (by simpa using h.busy)
  exact h1.trans (h2.trans (h3.trans h4))

/-- The operation comes to a wait behind the block it has issued. -/
def Hangs (s : State) (es : List Event) : Prop :=
  ∃ t, SoloRun s t ∧ t.held = true ∧ t.trace = s.trace ++ es

theorem SoloRun.hangs {s t : State} {es fs : List Event} (h : SoloRun s t) (htr : t.trace = s.trace ++ es)
    (ht : Hangs t fs) : Hangs s (es ++ fs) := by
  obtain ⟨u, hu, hh, hut⟩ := ht
  exact ⟨u, h.trans hu, hh, by rw [hut, htr, List.append_assoc]⟩

/-- A flush that a wait follows, at once or behind the test of `finish`, comes to a wait: in BLOCKING mode to its own
(R123), in ASYNC mode to the one that follows (R124, R125). -/
theorem flush_hangs {s : State} {bytes : List Byte} {k k' : List EStep} (h : Solo s) (hi : InStream s bytes)
    (hf : s.inFlight = false) (hc : s.cont = flushSteps s.cfg.mode ++ k)
    (hk : k = .waitIdle :: k' ∨ k = .flushIfAny :: .waitIdle :: k') : Hangs s [.block s.cfg.mode bytes] := by
  cases hm : s.cfg.mode with
  | blocking =>
    rw [hm] at hc
    have h1 := solo_issue h hi hc
    exact ⟨_, h1, by simp [State.held, h.busy], by simp [hm]⟩
  | async =>
    rw [hm] at hc
    have h1 := solo_flush_async h hi hf hc
    have hw : ∀ r, State.held { s.flushed bytes with cont := .waitIdle :: r } = true := fun r => by
      simp [State.held, h.busy]
    have htr : (s.flushed bytes).trace = s.trace ++ [.block .async bytes] := by simp [hm]
    obtain rfl | rfl := hk
    · exact ⟨_, h1, hw _, htr⟩
    · have h2 : SoloRun _ { s.flushed bytes with cont := .waitIdle :: k' } := h1.solo.move rfl
        (congrArg Tick.moved (if_neg (Nat.not_lt.2 (State.flushed_cursor hi.away bytes _).le))) h1.solo.busy
      exact ⟨_, h1.trans h2, hw _, htr⟩

/-- The test of `push_pixel`, where another pixel would not fit (R121). -/
theorem solo_flushIfFull {s : State} {k : List EStep} (h : Solo s) (hc : s.cont = .flushIfFull :: k)
    (hfull : s.cfg.capacity < s.cursor s.active + 3) : SoloRun s { s with cont := flushSteps s.cfg.mode ++ k } :=
  h.move hc (congrArg Tick.moved (if_pos hfull)) h.busy

theorem solo_flushIfFull_room {s : State} {k : List EStep} (h : Solo s) (hc : s.cont = .flushIfFull :: k)
    (hroom : ¬ s.cfg.capacity < s.cursor s.active + 3) : SoloRun s { s with cont := k } :=
  h.move hc (congrArg Tick.moved (if_neg hroom)) h.busy

/-- Behind a push the stream's end comes to a wait: the push's flush, or else the one of `finish`, issues a block. -/
theorem finish_hangs {s : State} {bytes : List Byte} {k : List EStep} (h : Solo s) (hi : InStream s bytes)
    (hne : bytes ≠ []) (hf : s.inFlight = false) (hc : s.cont = .flushIfFull :: (finishSteps ++ k)) :
    Hangs s [.block s.cfg.mode bytes] := by
  by_cases hfull : s.cfg.capacity < s.cursor s.active + 3
  · have h1 := solo_flushIfFull h hc hfull
    exact h1.hangs (List.append_nil _).symm (flush_hangs h1.solo (hi.with_cont _) hf rfl (.inr rfl))
  · have h1 := solo_flushIfFull_room h hc hfull
    have hpos : 0 < s.cursor s.active := by rw [hi.length]; exact List.length_pos_iff.2 hne
    have h2 : SoloRun _ { s with
        cont := flushSteps s.cfg.mode ++ (.waitIdle :: .emit .scopeRelease :: .shutStream :: k) } :=
      h1.solo.move rfl (congrArg Tick.moved (if_pos hpos)) h.busy
    exact (h1.trans h2).hangs (List.append_nil _).symm (flush_hangs h2.solo (hi.with_cont _) hf rfl (.inl rfl))

/-- A window opens a stream with nothing staged (R110). -/
theorem Shut.opened {s : State} (h : Shut s) (w : Window) (es : List Event) (k : List EStep) :
    InStream { s with trace := s.trace ++ es, win := w, streamOpen := true, cont := k } [] where
  isOpen := rfl
  activeOk := h.activeOk
  staged := by
    show Memory.readBlock (s.buf s.active) 0 (s.cursor s.active) = some []
    rw [cursor_zero h.cursor0 h.cursor1]
    rfl
  away := cursor_zero h.cursor0 h.cursor1 _

/-- A stream of one pixel comes to a wait behind its block. -/
theorem stream_hangs {s : State} {w : Window} {c : Word} {k : List EStep} (h : Solo s) (hs : Shut s)
    (hcap : 3 ≤ s.cfg.capacity) (hf : s.inFlight = false)
    (hc : s.cont = windowSteps s.cfg w ++ (pushSteps (.color c) ++ (finishSteps ++ k))) :
    Hangs s (windowEvents s.cfg w ++ [.block s.cfg.mode (convertColor c).bytes]) := by
  have hin := hs.opened w (windowEvents s.cfg w) (pushSteps (.color c) ++ (finishSteps ++ k))
  have hwin := solo_window h hs.isOpen hc
  have hpush := solo_push hwin.solo hin (by simpa using hcap) rfl
  have hend := finish_hangs hpush.solo (hin.pushed _ _) (by simp [DeviceColor.bytes]) (by simp [State.pushed, hf]) rfl
  have hall := (hwin.trans hpush).hangs (es := windowEvents s.cfg w) (by simp [State.pushed]) hend
  simpa [State.pushed] using hall

/-! ## DRAW_PIXEL -/

/-- The window of DRAW_PIXEL (R151). -/
theorem normWindow_pixel (x y : Word) :
    normWindow x.toNat y.toNat (x.toNat + 1) (y.toNat + 1) = ⟨x, y, x + 1, y + 1⟩ := by
  have hlo : ∀ a : Word, bound (min a.toNat (a.toNat + 1)) = a := fun a => by simp [bound]
  have hhi : ∀ a : Word, bound (max a.toNat (a.toNat + 1)) = a + 1 := fun a => by
    apply BitVec.eq_of_toNat_eq
    simp [bound, BitVec.toNat_add]
  rw [normWindow, hlo, hlo, hhi, hhi]

theorem accept_shut {s : State} (h : s.Idle) (hcl : s.Closed) (i : Instr) (k : List EStep) : Shut (s.accept i k) := by
  obtain ⟨-, ho, -, h0, h1⟩ := hcl
  exact ⟨by simpa using ho, fun hm => by simpa using (h.rest.1.1.blockingActive (by simpa using hm)).1,
    by simpa using h0, by simpa using h1⟩

/-- DRAW_PIXEL on the panel passes its checks and comes to a wait behind its block. -/
theorem drawPixel_hangs {s : State} {x y : Word} (c : Word) (h : s.Idle) (hcl : s.Closed) (hun : Unattended s)
    (hx : x.toNat < s.cfg.panelW) (hy : y.toNat < s.cfg.panelH) :
    ∃ steps, exec (.drawPixel x y c) s = operate (.drawPixel x y c) steps s ∧
      Hangs (s.accept (.drawPixel x y c) steps)
        (windowEvents s.cfg ⟨x, y, x + 1, y + 1⟩ ++ [.block s.cfg.mode (convertColor c).bytes]) := by
  refine ⟨_, rfl, ?_⟩
  rw [offPanel_false hx hy, normWindow_pixel]
  generalize ha : s.accept _ _ = a
  have hcfg : a.cfg = s.cfg := by simp [← ha]
  have hsolo : Solo a := ha ▸ accept_solo hun ..
  obtain ⟨ho, hok, h0, h1⟩ : Shut a := ha ▸ accept_shut h hcl ..
  obtain ⟨hf, -, hfl, -, -⟩ := hcl
  let k := windowSteps s.cfg ⟨x, y, x + 1, y + 1⟩ ++ (pushSteps (.color c) ++ (finishSteps ++ [.finishOp .ok]))
  have hcheck : SoloRun a { a with cont := .raiseIf false .invalidWindow :: k } :=
    solo_faultCheck hsolo (by simp [← ha, hf]) (by rw [← ha]; rfl)
  have hpass : SoloRun _ { a with cont := k } := hcheck.solo.move rfl rfl hsolo.busy
  have hend := stream_hangs hpass.solo ⟨ho, hok, h0, h1⟩ (hcfg ▸ h.legal.1) (by simp [← ha, hfl])
    (by rw [hcfg])
  have hall := (hcheck.trans hpass).hangs (es := []) (List.append_nil _).symm hend
  rw [hcfg] at hall
  exact hall

/-! ## What the operation answers -/

/-- An operation that comes to a wait rests there, and the machine has no step (R212). -/
theorem operate_rests {i : Instr} {steps : List EStep} {s t : State} (h : s.Idle)
    (hrun : SoloRun (s.accept i steps) t) (hh : t.held = true) :
    operate i steps s = .next t ∧ step t = .fault .engineStuck := by
  have hcfg : t.cfg = s.cfg := by simpa [State.fixed] using congrArg (·.1) (reaches_fixed hrun.reaches)
  refine ⟨?_, hrun.solo.stuck (hcfg ▸ h.legal) hh⟩
  rw [operate_accepts h.legal h.2]
  exact runOp_reaches hrun.reaches (.inr (hrun.solo.blocked hh))

/-- One whose last step ends it has ended there. -/
theorem operate_finishes {i : Instr} {steps : List EStep} {s t : State} {st : Status} (h : s.Idle)
    (hrun : SoloRun (s.accept i steps) t) (hc : t.cont = [.finishOp st]) :
    operate i steps s = .next (State.endOp { t with cont := [] } st) := by
  rw [operate_accepts h.legal h.2]
  exact runOp_reaches (hrun.reaches.trans (hrun.solo.finish hc)) (.inl rfl)

/-! ## PUSH_PIXEL -/

/-- The engine of a PUSH_PIXEL, accepted in `s`, stands at the test of its push in `u`: the pixel is staged on top of
what was staged before, and nothing is said to the bus. -/
structure PixelStaged (s u : State) (c : Word) : Prop where
  cont : u.cont = [.flushIfFull, .finishOp .ok]
  stream : InStream u (s.staged ++ (convertColor c).bytes)
  cfg : u.cfg = s.cfg
  active : u.active = s.active
  inFlight : u.inFlight = s.inFlight
  xfer : u.xfer = s.xfer
  trace : u.trace = s.trace

theorem pushPixel_staged {s : State} (c : Word) (h : s.Idle) (hf : s.faulted = false) (ho : s.streamOpen = true)
    (hun : Unattended s) :
    ∃ steps u, exec (.pushPixel c) s = operate (.pushPixel c) steps s ∧
      SoloRun (s.accept (.pushPixel c) steps) u ∧ PixelStaged s u c := by
  let k : List EStep := pushSteps (.color c) ++ [.finishOp .ok]
  obtain ⟨ho', hok, hst, haway⟩ : InStream (accepted s (encode (.pushPixel c)) k).calm s.staged :=
    inStream_of_open h hf ho
  have hsolo := accept_solo hun (.pushPixel c) (.faultCheck :: .requireStream :: k)
  have hcheck := solo_faultCheck hsolo (by simpa using hf) rfl
  have hpass : SoloRun _ (s.accept (.pushPixel c) k) :=
    hcheck.solo.move rfl (congrArg Tick.moved (if_pos ho')) rfl
  have hin : InStream (s.accept (.pushPixel c) k) s.staged := ⟨ho', hok, hst, haway⟩
  have hpush := solo_push hpass.solo hin (by simpa using staged_room h hf ho) rfl
  refine ⟨_, _, rfl, hcheck.trans (hpass.trans hpush), rfl, hin.pushed _ _, ?_, ?_, ?_, ?_, ?_⟩
  all_goals simp [State.pushed]

end Sys2Proof.Machine
end

section
namespace Sys2Proof.Proofs
open Sys2Proof.Machine

/-- Settles O55: the engine alone gets to a wait behind the pixel's block, the flush's own in BLOCKING mode and that of
`finish` in ASYNC mode, and stays there. -/
theorem silentTransportHangs : Obligations.SilentTransportHangs := by
  intro s x y c h hf ho hm ht hto hx hy d
  obtain ⟨steps, hex, t, hrun, hheld, htr⟩ := drawPixel_hangs c h (idle_closed h hf ho) ⟨hm, ht, hto⟩ hx hy
  obtain ⟨hop, hstuck⟩ := operate_rests h hrun hheld
  obtain ⟨-, -, hst⟩ := (reaches_ticked hrun.reaches).1 hrun.solo.busy
  rw [State.accept_trace, ← List.append_assoc] at htr
  exact ⟨t, hex.trans hop, hrun.solo.busy, held_inFlight hheld, by simpa using hst, htr, hstuck⟩

/-- Settles O56: what the push's test finds decides. With room left the operation ends; a full buffer is handed over,
and the one place to wait is in front of that block, behind the one still outstanding. -/
theorem backpressure : Obligations.Backpressure := by
  intro s c h hf ho hasync hm ht hto d full
  obtain ⟨steps, u, hex, hrun, hc, hin, hcfg, hact, hfl, hx, htr⟩ := pushPixel_staged c h hf ho ⟨hm, ht, hto⟩
  have hmode : u.cfg.mode = .async := hcfg ▸ hasync
  have hcur : u.cursor u.active = s.cursor s.active + 3 := by
    rw [hin.length, (open_cursors h hf ho).1, List.length_append]
    rfl
  have hiff : full ↔ u.cfg.capacity < u.cursor u.active + 3 := by rw [hcfg, hcur]
  have hcall : full → SoloRun u { u with cont := flushSteps .async ++ [.finishOp .ok] } := fun hfull =>
    hmode ▸ solo_flushIfFull hrun.solo hc (hiff.1 hfull)
  refine ⟨fun hroom => ?_, fun hfull hfree => ?_, fun hfull hbusy => ?_⟩
  · have hpass := solo_flushIfFull_room hrun.solo hc (mt hiff.2 hroom)
    exact ⟨_, hex.trans (operate_finishes h (hrun.trans hpass) rfl), rfl, rfl, hfl, hx, htr, hact⟩
  · have hin' := hin.with_cont (flushSteps .async ++ [.finishOp .ok])
    have hflush := solo_flush_async (hcall hfull).solo hin' (hfl.trans hfree) rfl
    have hend := operate_finishes h (hrun.trans ((hcall hfull).trans hflush)) rfl
    have hlen := (push_fills_iff h hf ho).2 hfull
    refine ⟨_, hex.trans hend, rfl, rfl, by simp, ?_, by simp [hact], ?_, State.flushed_cursor hin'.away _ _⟩
    · rw [← hlen, ← hcur, ← hact]
      exact State.flushed_xfer hin'.activeOk _
    · simp [hmode, htr, d, DeviceColor.bytes]
  · have hheld : State.held { u with cont := flushSteps .async ++ [.finishOp .ok] } = true := by
      simp [State.held, flushSteps, hrun.solo.busy, hfl, hbusy]
    obtain ⟨hop, hstuck⟩ := operate_rests h (hrun.trans (hcall hfull)) hheld
    obtain ⟨-, -, -, -, -, haway⟩ := (rest_inFlight h.rest.1 hbusy).resolve_right fun hx => by simp [hx.1] at hf
    obtain ⟨-, len, hlen, -⟩ := haway hbusy
    exact ⟨_, hex.trans hop, hrun.solo.busy, hheld, htr, ⟨len, by rw [hx, hact, hlen]⟩, hact, hstuck⟩

end Sys2Proof.Proofs
end

section
/-! PROOF. The rasterizers (43_rasterizers.md): which streams each drawing operation puts on the bus once its checks have
passed, where its checks end it, and how many windows and pixels its streams have. -/

namespace Sys2Proof.Machine

/-! ## What a drawing operation answers -/

/-- Operation `i`, accepted in `s`, draws the streams `sts` and ends with `st`, ready for the next one; it writes no buffer
byte from address `m` on. -/
def Draws (s : State) (i : Instr) (sts : List Stream) (st : Status) (m : Nat) : Prop :=
  ∃ t, exec i s = .next t ∧ t.Ready ∧ s.Drawn t sts st m

/-- The steps behind the fault check let the operation pass to the streams `sts` and its end with `st`. -/
structure DrawsBehind (s : State) (sts : List Plan) (st : Status) (rest : List EStep) : Prop where
  passes : Passes s.streamOpen s.cfg s.bmem (drawSteps s.cfg sts st) rest
  wellFormed : Phase.after s.cfg.mode .live rest = some .ended

namespace DrawsBehind

variable {s : State} {sts : List Plan} {st : Status} {rest : List EStep}

theorem streams : DrawsBehind s sts st (drawSteps s.cfg sts st) := ⟨.refl, after_drawSteps ..⟩

theorem behind_check {bad : Bool} {code : Status} (h : DrawsBehind s sts st rest) (hb : bad = false) :
    DrawsBehind s sts st (checked bad code rest) :=
  ⟨passes_checked hb h.passes, after_checked fun _ => h.wellFormed⟩

/-- The header of a bitmap puts the rest of DRAW_BITMAP in line (R172). -/
theorem behind_header {x y sc : Word} {base : BitVec 32}
    (h : DrawsBehind s sts st
      (bitmapSteps s.cfg x y sc base (memRead s.bmem base.toNat) (memRead s.bmem (base.toNat + 1)))) :
    DrawsBehind s sts st [.readHeader x y sc base] :=
  ⟨.header (by rw [List.append_nil]; exact h.passes), rfl⟩

/-- An operation that passes its checks draws its streams, here of `n` pixels each. -/
theorem drawn {i : Instr} {n : Nat} (hd : DrawsBehind s sts st rest) (h : s.Ready)
    (hex : exec i s = operate i (.faultCheck :: rest) s) (hne : sts ≠ [])
    (hn : ∀ p ∈ sts, p.pixels.length = n) :
    Draws s i (sts.map s.stream) st (min (3 * n) s.cfg.capacity) := by
  obtain ⟨t, ht, hdrawn, hready⟩ := operate_draws (i := i) h hne (after_faultCheck hd.wellFormed) (.pass hd.passes)
    fun p hp => (by rw [hn p hp] : min (3 * p.pixels.length) s.cfg.capacity ≤ min (3 * n) s.cfg.capacity)
  exact ⟨t, hex.trans ht, hready, hdrawn⟩

end DrawsBehind

theorem scale_check {sc : Word} (h : sc ≠ 0) : (sc.toNat == 0) = false := by simpa using toNat_ne_zero h

/-! ## Windows -/

/-- The window of a cell whose far corner lies `a` columns and `b` rows beyond `(x, y)`. -/
theorem normWindow_add (x y : Word) (a b : Nat) : normWindow x.toNat y.toNat (x.toNat + a) (y.toNat + b) =
    ⟨x, y, x + BitVec.ofNat 16 a, y + BitVec.ofNat 16 b⟩ := by
  have hlo : ∀ (v : Word) (n : Nat), bound (min v.toNat (v.toNat + n)) = v := fun v n => by simp [bound]
  have hhi : ∀ (v : Word) (n : Nat), bound (max v.toNat (v.toNat + n)) = v + BitVec.ofNat 16 n := fun v n => by
    rw [Nat.max_eq_right (Nat.le_add_right ..), bound, BitVec.ofNat_add, BitVec.ofNat_toNat]
    simp
  rw [normWindow, hlo, hlo, hhi, hhi]

theorem bound_toNat {n : Nat} (h : n < 65536) : (bound n).toNat = n :=
  (BitVec.toNat_ofNat ..).trans (Nat.mod_eq_of_lt h)

/-! ## DRAW_PIXEL, FILL_RECT -/

theorem drawPixel_draws {s : State} {x y : Word} (c : Word) (h : s.Ready) (hx : x.toNat < s.cfg.panelW)
    (hy : y.toNat < s.cfg.panelH) :
    Draws s (.drawPixel x y c) [⟨⟨x, y, x + 1, y + 1⟩, [convertColor c]⟩] .ok 3 := by
  have hd := (DrawsBehind.streams.behind_check (offPanel_false hx hy)).drawn (n := 1) h
    (show exec (.drawPixel x y c) s = _ from rfl) (by simp) (by simp)
  rwa [normWindow_pixel, Nat.min_eq_left h.1.legal.1] at hd

theorem fillRect_draws {s : State} {x1 y1 x2 y2 : Word} (c : Word) (h : s.Ready)
    (hx : max x1.toNat x2.toNat < s.cfg.panelW) (hy : max y1.toNat y2.toNat < s.cfg.panelH) :
    let n := (max x1.toNat x2.toNat - min x1.toNat x2.toNat + 1) * (max y1.toNat y2.toNat - min y1.toNat y2.toNat + 1)
    Draws s (.fillRect x1 y1 x2 y2 c) [fillStream x1.toNat y1.toNat x2.toNat y2.toNat c] .ok
      (min (3 * n) s.cfg.capacity) := by
  intro n
  have hd := (DrawsBehind.streams.behind_check (offPanel_false hx hy)).drawn (n := n) h
    (show exec (.fillRect x1 y1 x2 y2 c) s = _ from rfl) (by simp) (by simp [fillOf_eq, n])
  rwa [List.map_singleton, stream_fill] at hd

/-! ## The blocks of a fill and of a pixel -/

section
variable (x1 y1 x2 y2 : Nat) (c : Word)

theorem fillStream_pixels : (fillStream x1 y1 x2 y2 c).pixels =
    List.replicate ((max x1 x2 - min x1 x2 + 1) * (max y1 y2 - min y1 y2 + 1)) (convertColor c) := by
  rw [fillStream, fillOf_eq]

/-- A fill's blocks carry three bytes for each cell (R154). -/
theorem fillStream_bytes (cfg : Config) : ((payloads (streamEvents cfg (fillStream x1 y1 x2 y2 c))).flatten).length =
    3 * ((max x1 x2 - min x1 x2 + 1) * (max y1 y2 - min y1 y2 + 1)) := by
  rw [payloads_stream_flatten, length_flatMap_bytes, fillStream_pixels, List.length_replicate]

/-- And there are as many as any stream of so many pixels has (R126, R154). -/
theorem fillStream_blocks {cfg : Config} (hc : 3 ≤ cfg.capacity) :
    (payloads (streamEvents cfg (fillStream x1 y1 x2 y2 c))).length =
      ((max x1 x2 - min x1 x2 + 1) * (max y1 y2 - min y1 y2 + 1) + cfg.capacity / 3 - 1) / (cfg.capacity / 3) := by
  rw [(stream_blocksOf hc _).count, fillStream_pixels, List.length_replicate]

end

/-- One pixel is one block, whether its push fills the buffer or not (R126). -/
theorem streamEvents_pixel (c : Config) (w : Window) (d : DeviceColor) : streamEvents c ⟨w, [d]⟩ =
    windowEvents c w ++ [.block c.mode d.bytes, .done, .scopeRelease] := by
  have hne : d.bytes ≠ [] := List.cons_ne_nil _ _
  by_cases hfull : c.capacity < d.bytes.length + 3
  · simp [streamEvents, pushAllEvents, pushEvents, finishEvents, hfull]
  · simp [streamEvents, pushAllEvents, pushEvents, finishEvents, hfull, hne]

/-! ## Glyphs and strings -/

/-- The fill of the block of one source bit at scale `z` has `z * z` pixels (R161). -/
theorem fillOf_block {α : Type} (x y : Nat) {z : Nat} (hz : z ≠ 0) (a : α) :
    fillOf x y (x + z - 1) (y + z - 1) a = ⟨normWindow x y (x + z - 1) (y + z - 1), List.replicate (z * z) a⟩ := by
  rw [fillOf_eq]
  congr 3 <;> omega

theorem fastGlyphOf_pixels {α : Type} (x y : Nat) (f : Nat → Nat → α) : (fastGlyphOf x y f).pixels.length = 104 :=
  glyphCells_length f

theorem glyphOf_length {α : Type} (x y z : Nat) (f : Nat → Nat → α) : (glyphOf x y z f).length = 104 :=
  glyphCells_length _

theorem glyphOf_ne_nil {α : Type} (x y z : Nat) (f : Nat → Nat → α) : glyphOf x y z f ≠ [] :=
  List.ne_nil_of_length_pos (by rw [glyphOf_length]; decide)

section
variable {α : Type} (x y z : Nat) (f : Byte → Nat → Nat → α)

theorem stringOf_length (chs : List Byte) : (stringOf x y z f 0 chs).length = 104 * chs.length := by
  rw [stringOf_eq, flatMap_range_length _ fun k => glyphOf_length .., Nat.mul_comm]

theorem stringOf_ne_nil {chs : List Byte} (h : chs ≠ []) : stringOf x y z f 0 chs ≠ [] := by
  have := List.length_pos_iff.2 h
  exact List.ne_nil_of_length_pos (by rw [stringOf_length]; omega)

theorem stringOf_pixels {z : Nat} (hz : z ≠ 0) (chs : List Byte) :
    ∀ p ∈ stringOf x y z f 0 chs, p.pixels.length = z * z := by
  intro p hp
  rw [stringOf_eq] at hp
  obtain ⟨k, -, hk⟩ := List.mem_flatMap.1 hp
  exact glyphOf_pixels hz p hk

theorem fastStringOf_length (chs : List Byte) : (fastStringOf x y f 0 chs).length = chs.length := by
  rw [fastStringOf_eq, List.length_map, List.length_range]

theorem fastStringOf_ne_nil {chs : List Byte} (h : chs ≠ []) : fastStringOf x y f 0 chs ≠ [] :=
  List.ne_nil_of_length_pos (by rw [fastStringOf_length]; exact List.length_pos_iff.2 h)

theorem fastStringOf_pixels (chs : List Byte) : ∀ p ∈ fastStringOf x y f 0 chs, p.pixels.length = 104 := by
  intro p hp
  rw [fastStringOf_eq] at hp
  obtain ⟨k, -, rfl⟩ := List.mem_map.1 hp
  exact fastGlyphOf_pixels ..

end

section
variable {s : State} {x y : Word} (fg bg : Word) (h : s.Ready)
include h

theorem drawFastGlyph_draws (ch : Byte) (hx : x.toNat + 7 < s.cfg.panelW) (hy : y.toNat + 12 < s.cfg.panelH) :
    Draws s (.drawFastGlyph x y ch fg bg) [fastGlyphStream s.cfg s.glyphs x.toNat y.toNat ch fg bg]
      (glyphStatus s.cfg [ch]) (min 312 s.cfg.capacity) := by
  have hd := (DrawsBehind.streams.behind_check (offPanel_false hx hy)).drawn (n := 104) h
    (show exec (.drawFastGlyph x y ch fg bg) s = _ from rfl) (by simp) (by simp [fastGlyphOf_pixels])
  rwa [List.map_singleton, stream_fastGlyph] at hd

theorem drawGlyph_draws {sc : Word} (ch : Byte) (hsc : sc ≠ 0) (hx : x.toNat + 8 * sc.toNat - 1 < s.cfg.panelW)
    (hy : y.toNat + 13 * sc.toNat - 1 < s.cfg.panelH) :
    Draws s (.drawGlyph x y ch fg bg sc) (glyphStreams s.cfg s.glyphs x.toNat y.toNat ch fg bg sc.toNat)
      (glyphStatus s.cfg [ch]) (min (3 * (sc.toNat * sc.toNat)) s.cfg.capacity) := by
  have hd := ((DrawsBehind.streams.behind_check (offPanel_false hx hy)).behind_check (scale_check hsc)).drawn h
    (show exec (.drawGlyph x y ch fg bg sc) s = _ from rfl) (glyphOf_ne_nil _ _ _ _) (glyphOf_pixels (toNat_ne_zero hsc))
  rwa [streams_glyph] at hd

theorem drawString_draws {sc : Word} {chs : List Byte} (hsc : sc ≠ 0) (hne : chs ≠ [])
    (hx : x.toNat + 9 * sc.toNat * (chs.length - 1) + 8 * sc.toNat - 1 < s.cfg.panelW)
    (hy : y.toNat + 13 * sc.toNat - 1 < s.cfg.panelH) :
    Draws s (.drawString x y fg bg sc chs) (stringStreams s.cfg s.glyphs x.toNat y.toNat fg bg sc.toNat 0 chs)
      (glyphStatus s.cfg chs) (min (3 * (sc.toNat * sc.toNat)) s.cfg.capacity) := by
  have hex : exec (.drawString x y fg bg sc chs) s = operate _ (.faultCheck :: checked _ _ (ite _ _ _)) s := rfl
  rw [if_neg (mt List.length_eq_zero_iff.1 hne)] at hex
  have hd := ((DrawsBehind.streams.behind_check (offPanel_false hx hy)).behind_check (scale_check hsc)).drawn h hex
    (stringOf_ne_nil _ _ _ _ hne) (stringOf_pixels _ _ _ (toNat_ne_zero hsc) chs)
  rwa [streams_string] at hd

theorem drawFastString_draws {chs : List Byte} (hne : chs ≠ [])
    (hx : x.toNat + 9 * (chs.length - 1) + 7 < s.cfg.panelW) (hy : y.toNat + 12 < s.cfg.panelH) :
    Draws s (.drawFastString x y fg bg chs) (fastStringStreams s.cfg s.glyphs x.toNat y.toNat fg bg 0 chs)
      (glyphStatus s.cfg chs) (min 312 s.cfg.capacity) := by
  have hex : exec (.drawFastString x y fg bg chs) s = operate _ (.faultCheck :: ite _ _ _) s := rfl
  rw [if_neg (mt List.length_eq_zero_iff.1 hne)] at hex
  have hd := (DrawsBehind.streams.behind_check (offPanel_false hx hy)).drawn h hex
    (fastStringOf_ne_nil _ _ _ hne) (fastStringOf_pixels _ _ _ chs)
  rwa [streams_fastString] at hd

end

/-- The streams of DRAW_STRING, character by character (R164). -/
theorem stringStreams_eq (c : Config) (g : Memory) (x y : Nat) (fg bg : Word) (z : Nat) (chs : List Byte) :
    stringStreams c g x y fg bg z 0 chs = (List.range chs.length).flatMap fun k =>
      glyphStreams c g (x + 9 * z * k) y (chs.getD k 0) fg bg z := by
  rw [stringStreams, stringOf_eq]
  simp only [Nat.zero_add]
  rfl

/-- The streams of DRAW_FAST_STRING, character by character (R165). -/
theorem fastStringStreams_eq (c : Config) (g : Memory) (x y : Nat) (fg bg : Word) (chs : List Byte) :
    fastStringStreams c g x y fg bg 0 chs = (List.range chs.length).map fun k =>
      fastGlyphStream c g (x + 9 * k) y (chs.getD k 0) fg bg := by
  rw [fastStringStreams, fastStringOf_eq]
  simp only [Nat.zero_add]
  rfl

theorem glyphStatus_single (c : Config) (ch : Byte) : glyphStatus c [ch] =
    if 32 ≤ ch.toNat ∧ ch.toNat ≤ c.glyphLast then .ok else .unsupportedGlyph := by
  simp only [glyphStatus_eq, List.mem_singleton, forall_eq]

theorem glyphStatus_unsupported {c : Config} {ch : Byte} (h : ch.toNat < 32 ∨ c.glyphLast < ch.toNat) :
    glyphStatus c [ch] = .unsupportedGlyph := by
  rw [glyphStatus_single, if_neg (by omega)]

theorem glyphColor_set {c : Config} {g : Memory} {ch : Byte} {fg bg : Word} {i j : Nat} (h : glyphBit c g ch i j = true) :
    glyphColor c g ch fg bg i j = fg := if_pos h

theorem glyphColor_clear {c : Config} {g : Memory} {ch : Byte} {fg bg : Word} {i j : Nat}
    (h : ¬ glyphBit c g ch i j = true) : glyphColor c g ch fg bg i j = bg := if_neg h

/-- Every pixel of a code outside the range is background (R158). -/
theorem glyphPixel_unsupported {c : Config} {ch : Byte} (h : ch.toNat < 32 ∨ c.glyphLast < ch.toNat) (g : Memory)
    (fg bg : Word) : glyphPixel c g fg bg ch = fun _ _ => convertColor bg := by
  funext i j
  exact congrArg convertColor (glyphColor_clear (mt (glyphBit_iff ..).1 (by omega)))

theorem glyphCells_const {α : Type} (a : α) : glyphCells (fun _ _ => a) = List.replicate 104 a := by
  refine List.eq_replicate_iff.2 ⟨glyphCells_length _, fun b hb => ?_⟩
  simp only [glyphCells, List.mem_flatMap, List.mem_map] at hb
  obtain ⟨_, _, _, _, hb⟩ := hb
  exact hb.symm

/-- The blank cell of DRAW_GLYPH: 104 blocks of background (R158, R161). -/
theorem glyphOf_const {α : Type} (x y : Nat) {z : Nat} (hz : z ≠ 0) (a : α) : glyphOf x y z (fun _ _ => a) =
    (List.range 13).flatMap fun j => (List.range 8).map fun i =>
      ⟨normWindow (x + i * z) (y + j * z) (x + i * z + z - 1) (y + j * z + z - 1), List.replicate (z * z) a⟩ := by
  simp only [glyphOf, fillOf_block _ _ hz]
  rfl

/-! ## Bitmaps -/

theorem bitmapSteps_empty {c : Config} {x y sc wd ht : Word} {base : BitVec 32} (h : wd = 0 ∨ ht = 0) :
    bitmapSteps c x y sc base wd ht = [.finishOp .ok] := by
  refine if_pos (h.imp ?_ ?_) <;> rintro rfl <;> rfl

theorem bitmapSteps_nonempty {c : Config} {x y sc wd ht : Word} {base : BitVec 32} (hw : wd.toNat ≠ 0)
    (hh : ht.toNat ≠ 0) : bitmapSteps c x y sc base wd ht =
      checked (offPanel c (x.toNat + wd.toNat * sc.toNat - 1) (y.toNat + ht.toNat * sc.toNat - 1)) .invalidWindow
        (checked (c.bmemWords < base.toNat + 2 + wd.toNat * ht.toNat) .memoryFault
          (drawSteps c [bitmapOf x.toNat y.toNat base.toNat wd.toNat ht.toNat sc.toNat .word] .ok)) :=
  if_neg (not_or.2 ⟨hw, hh⟩)

/-- DRAW_BITMAP of a `w × h` bitmap in the bitmap memory and on the panel draws one stream (R172). -/
theorem drawBitmap_draws {s : State} {x y sc : Word} {base : BitVec 32} (h : s.Ready) (hsc : sc ≠ 0)
    (hb : base.toNat + 1 < s.cfg.bmemWords) :
    let wd := (memRead s.bmem base.toNat).toNat
    let ht := (memRead s.bmem (base.toNat + 1)).toNat
    wd ≠ 0 → ht ≠ 0 → x.toNat + wd * sc.toNat - 1 < s.cfg.panelW → y.toNat + ht * sc.toNat - 1 < s.cfg.panelH →
    base.toNat + 2 + wd * ht ≤ s.cfg.bmemWords →
    Draws s (.drawBitmap x y sc base) [bitmapStream s.bmem x.toNat y.toNat base.toNat wd ht sc.toNat] .ok
      (min (3 * (wd * sc.toNat * (ht * sc.toNat))) s.cfg.capacity) := by
  intro wd ht hw hh hx hy hm
  have hsteps : DrawsBehind s [bitmapOf x.toNat y.toNat base.toNat wd ht sc.toNat .word] .ok
      (bitmapSteps s.cfg x y sc base (memRead s.bmem base.toNat) (memRead s.bmem (base.toNat + 1))) := by
    rw [bitmapSteps_nonempty hw hh]
    exact (DrawsBehind.streams.behind_check (decide_eq_false (Nat.not_lt.2 hm))).behind_check (offPanel_false hx hy)
  have hd := ((hsteps.behind_header.behind_check (decide_eq_false (Nat.not_le.2 hb))).behind_check
    (scale_check hsc)).drawn (n := wd * sc.toNat * (ht * sc.toNat)) h
    (show exec (.drawBitmap x y sc base) s = _ from rfl) (by simp)
    (by simp only [List.mem_singleton, forall_eq, bitmapOf_length]; ring)
  rwa [List.map_singleton, stream_bitmap] at hd

section
variable (bmem : Cells 16) (x y base wd ht z : Nat)

theorem bitmapStream_length : (bitmapStream bmem x y base wd ht z).pixels.length = wd * z * (ht * z) := by
  rw [bitmapStream, bitmapOf_length]
  ring

/-- The pixel at row `row`, column `col` of the output (R173). -/
theorem bitmapStream_get {row col : Nat} (hr : row < ht * z) (hc : col < wd * z) :
    (bitmapStream bmem x y base wd ht z).pixels[row * (wd * z) + col]? =
      some (convertColor (memRead bmem (base + 2 + row / z * wd + col / z))) := bitmapOf_get _ _ _ _ _ _ _ hr hc

end

/-! ## Ends before any stream -/

/-- An operation whose steps behind the fault check end it at once ends precisely (R205). -/
theorem operate_endsBehind {i : Instr} {rest : List EStep} {s : State} {st : Status} (h : s.Idle) (hst : s.Steady)
    (hf : s.faulted = false) (hty : Phase.after s.cfg.mode .live rest = some .ended)
    (he : EndsAt s.faulted s.streamOpen s.cfg s.bmem st rest) :
    ∃ t, operate i (.faultCheck :: rest) s = .next t ∧ s.EndsPrecisely t st := by
  obtain ⟨t, ht, hcalm, -⟩ := operate_ends (i := i) h hst (after_faultCheck hty) (.pass hf he)
  exact ⟨t, ht, endsPrecisely_of_calm h hcalm⟩

section
variable {s : State} {x y sc : Word} {base : BitVec 32} {st : Status} (h : s.Idle) (hst : s.Steady)
  (hf : s.faulted = false) (hsc : sc ≠ 0)
include h hst hf hsc

/-- DRAW_BITMAP of an empty or bad bitmap ends behind the check of its scale. -/
theorem drawBitmap_ends (he : EndsAt s.faulted s.streamOpen s.cfg s.bmem st
      (checked (s.cfg.bmemWords ≤ base.toNat + 1) .memoryFault [.readHeader x y sc base])) :
    ∃ t, exec (.drawBitmap x y sc base) s = .next t ∧ s.EndsPrecisely t st :=
  operate_endsBehind h hst hf (after_checked fun _ => after_checked fun _ => rfl)
    (ends_checked (scale_check hsc) he)

/-- A header within the bitmap memory decides the rest (R172). -/
theorem drawBitmap_endsBehindHeader {rest : List EStep} (hb : base.toNat + 1 < s.cfg.bmemWords)
    (hrest : bitmapSteps s.cfg x y sc base (memRead s.bmem base.toNat) (memRead s.bmem (base.toNat + 1)) = rest)
    (he : EndsAt s.faulted s.streamOpen s.cfg s.bmem st rest) :
    ∃ t, exec (.drawBitmap x y sc base) s = .next t ∧ s.EndsPrecisely t st :=
  drawBitmap_ends h hst hf hsc
    (ends_checked (decide_eq_false (Nat.not_le.2 hb)) (.header (by rwa [List.append_nil, hrest])))

end

/-! ## What the streams have on the bus -/

/-- What a drawing operation puts on the bus, behind what closes the stream before. -/
theorem Draws.events {s : State} {i : Instr} {sts : List Stream} {st : Status} {m : Nat} (h : Draws s i sts st m) :
    ∃ t, exec i s = .next t ∧ t.trace = s.settled ++ s.closeEvents ++ sts.flatMap (streamEvents s.cfg) := by
  obtain ⟨t, ht, -, hd⟩ := h
  exact ⟨t, ht, hd.trace⟩

/-- A stream opens one scope. -/
theorem streamEvents_acquires (c : Config) (st : Stream) : (streamEvents c st).count .scopeAcquire = 1 := by
  have hwindow : (windowEvents c st.win).count .scopeAcquire = 1 := by simp [windowEvents]
  have hpush : (pushAllEvents c [] st.pixels).1.count .scopeAcquire = 0 := by
    refine List.count_eq_zero.2 fun hmem => ?_
    obtain he | ⟨p, he⟩ := pushAll_only c st.pixels [] _ hmem <;> cases he
  have hfinish : ∀ bs, (finishEvents c bs).count .scopeAcquire = 0 := fun bs => by
    unfold finishEvents
    split <;> simp
  rw [streamEvents, List.count_append, List.count_append, hwindow, hpush, hfinish]

theorem streams_acquire (c : Config) (sts : List Stream) :
    (sts.flatMap (streamEvents c)).count .scopeAcquire = sts.length := by
  induction sts with
  | nil => rfl
  | cons st sts ih => rw [List.flatMap_cons, List.count_append, streamEvents_acquires, ih, List.length_cons, Nat.add_comm]

/-- Streams of `n` pixels each carry three bytes for each of them. -/
theorem streams_bytes (c : Config) {n : Nat} (sts : List Stream) (hn : ∀ st ∈ sts, st.pixels.length = n) :
    ((payloads (sts.flatMap (streamEvents c))).flatten).length = 3 * (n * sts.length) := by
  induction sts with
  | nil => rfl
  | cons st sts ih =>
    rw [List.flatMap_cons, payloads_append, List.flatten_append, List.length_append, payloads_stream_flatten,
      length_flatMap_bytes, hn st List.mem_cons_self, ih fun p hp => hn p (List.mem_cons_of_mem _ hp), List.length_cons]
    ring

/-- How many windows and bytes a drawing operation of streams of `n` pixels each sends. -/
theorem Draws.counts {s : State} {i : Instr} {sts : List Stream} {st : Status} {m n : Nat} (h : Draws s i sts st m)
    (hn : ∀ st ∈ sts, st.pixels.length = n) :
    ∃ t es, exec i s = .next t ∧ t.trace = s.settled ++ s.closeEvents ++ es ∧
      es.count .scopeAcquire = sts.length ∧ ((payloads es).flatten).length = 3 * (n * sts.length) := by
  obtain ⟨t, ht, htr⟩ := h.events
  exact ⟨t, _, ht, htr, streams_acquire .., streams_bytes _ _ hn⟩

/-! ## Where the pixels land -/

/-- The window is the `w × h` cells from `(x, y)` on. -/
structure Window.Covers (win : Window) (x y w h : Nat) : Prop where
  left : win.x1.toNat = x
  right : win.x2.toNat + 1 = x + w
  top : win.y1.toNat = y
  bottom : win.y2.toNat + 1 = y + h

theorem normWindow_covers {x y w h : Nat} (hw : 0 < w) (hh : 0 < h) (hx : x + w ≤ 65536) (hy : y + h ≤ 65536) :
    (normWindow x y (x + w - 1) (y + h - 1)).Covers x y w h := by
  constructor <;> rw [normWindow, bound_toNat] <;> omega

/-- What the reference receiver makes of a drawing operation's one stream, whose window is inside the panel: pixel number
`k` lands at cell number `k` (R60). -/
theorem Draws.lands {s : State} {i : Instr} {st : Stream} {code : Status} {m x y w h : Nat} (hd : Draws s i [st] code m)
    (hs : s.Ready) (hc : CommandsDistinct s.cfg) (hwin : st.win.Covers x y w h) (hw : 0 < w) (hh : 0 < h)
    (hpx : x + w ≤ s.cfg.panelW) (hpy : y + h ≤ s.cfg.panelH) (hn : st.pixels.length ≤ w * h) :
    ∃ t es, exec i s = .next t ∧ t.trace = s.settled ++ s.closeEvents ++ es ∧
      ∀ r : Receiver, (r.run s.cfg es).meaningless = r.meaningless ∧ ∀ a b, (r.run s.cfg es).at a b =
        if x ≤ a ∧ a < x + w ∧ y ≤ b ∧ (b - y) * w + (a - x) < st.pixels.length then
          st.pixels[(b - y) * w + (a - x)]?
        else r.at a b := by
  obtain ⟨t, ht, htr⟩ := hd.events
  obtain ⟨rfl, hright, rfl, hbottom⟩ := hwin
  rw [List.flatMap_singleton] at htr
  refine ⟨t, _, ht, htr, fun r => ?_⟩
  have hwide : st.win.x2.toNat - st.win.x1.toNat + 1 = w := by omega
  have hhigh : st.win.y2.toNat - st.win.y1.toNat + 1 = h := by omega
  obtain ⟨hflag, hat⟩ := Proofs.streamLands s.cfg r st hs.1.legal.1 hc (by omega) (by omega) (by omega) (by omega)
    (by rwa [hwide, hhigh])
  refine ⟨hflag, fun a b => ?_⟩
  have hin : a ≤ st.win.x2.toNat ↔ a < st.win.x1.toNat + w := by omega
  rw [hat a b, hwide]
  simp only [hin]

/-- The first `rows` rows of a window are its first `w * rows` cells. -/
theorem cell_in_rows {w rows p q : Nat} (hp : p < w) : q * w + p < w * rows ↔ q < rows := by
  refine ⟨fun h => ?_, fun h => ?_⟩
  · exact Nat.lt_of_mul_lt_mul_left (a := w) (by rw [Nat.mul_comm w q]; omega)
  · calc q * w + p < (q + 1) * w := by rw [Nat.succ_mul]; omega
      _ ≤ rows * w := Nat.mul_le_mul_right w h
      _ = w * rows := Nat.mul_comm ..

end Sys2Proof.Machine
end

section
namespace Sys2Proof.Proofs
open Sys2Proof.Machine

/-- Settles O22: the one stream of a single pixel, whose bytes are one block in a buffer of any capacity. -/
theorem drawPixelCompletes : Obligations.DrawPixelCompletes := by
  intro s x y c h hx hy d w
  obtain ⟨t, ht, hr, hd⟩ := drawPixel_draws c h hx hy
  refine ⟨t, ht, hr, hd, ?_⟩
  rw [hd.trace, List.flatMap_singleton, streamEvents_pixel, ← List.append_assoc]
  rfl

/-- Settles O23: the pixels of a fill are all the same. -/
theorem fillRectCompletes : Obligations.FillRectCompletes := by
  intro s x1 y1 x2 y2 c h hx hy n
  have hd := fillRect_draws c h hx hy
  rwa [fillStream, fillOf_eq] at hd

/-- Settles O24: the stream's pixels are the glyph's source bits, row by row. -/
theorem drawFastGlyphCompletes : Obligations.DrawFastGlyphCompletes := by
  intro s x y ch fg bg h hx hy bit st
  obtain ⟨t, ht, hr, hd⟩ := drawFastGlyph_draws fg bg h ch hx hy
  rw [glyphStatus_single, fastGlyphStream, fastGlyphOf, normWindow_add] at hd
  refine ⟨t, _, ht, hr, glyphCells_length _, fun i j hi hj => ?_, hd⟩
  rw [glyphCells_get _ hi hj, glyphPixel]
  exact ⟨fun hb => by rw [glyphColor_set ((glyphBit_iff ..).2 hb)],
    fun hb => by rw [glyphColor_clear (mt (glyphBit_iff ..).1 hb)]⟩

/-- Settles O25: the streams are the fills of the glyph's source bits, row by row. -/
theorem drawGlyphCompletes : Obligations.DrawGlyphCompletes := by
  intro s x y ch fg bg sc h hsc hx hy bit st block
  obtain ⟨t, ht, hr, hd⟩ := drawGlyph_draws fg bg h ch hsc hx hy
  rw [glyphStatus_single] at hd
  refine ⟨t, _, ht, hr, ?_, fun i j hi hj => ?_, hd⟩
  · exact glyphOf_length ..
  rw [glyphStreams_get _ _ _ _ _ _ _ (toNat_ne_zero hsc) hi hj]
  exact ⟨fun hb => by rw [glyphColor_set ((glyphBit_iff ..).2 hb)],
    fun hb => by rw [glyphColor_clear (mt (glyphBit_iff ..).1 hb)]⟩

/-- Settles O26: a string's streams are its glyphs', character by character. -/
theorem drawStringCompletes : Obligations.DrawStringCompletes := by
  intro s x y fg bg sc chs h hsc hne hx hy st
  have hd := drawString_draws fg bg h hsc hne hx hy
  rwa [glyphStatus_eq, stringStreams_eq] at hd

/-- Settles O27: a fast string's streams are its fast glyphs', character by character. -/
theorem drawFastStringCompletes : Obligations.DrawFastStringCompletes := by
  intro s x y fg bg chs h hne hx hy st
  have hd := drawFastString_draws fg bg h hne hx hy
  rwa [glyphStatus_eq, fastStringStreams_eq] at hd

/-- Settles O28: row `row` of the output repeats source row `row / z`, and column `col` source column `col / z`. -/
theorem drawBitmapCompletes : Obligations.DrawBitmapCompletes := by
  intro s x y sc base h hsc hb wd ht z hw hh hx hy hm
  obtain ⟨t, hex, hr, hd⟩ := drawBitmap_draws h hsc hb hw hh hx hy hm
  exact ⟨t, (bitmapStream s.bmem x.toNat y.toNat base.toNat wd ht z).pixels, hex, hr, bitmapStream_length ..,
    fun row col hrow hcol => bitmapStream_get _ _ _ _ _ _ _ hrow hcol, hd⟩

/-- Settles O29: an empty string ends OK behind the check of the scale, an empty bitmap behind its header. -/
theorem emptySources : Obligations.EmptySources := by
  intro s h hst hf
  refine ⟨fun x y fg bg sc hsc => ?_, fun x y fg bg => ?_, fun x y sc base hsc hb hempty => ?_⟩
  · exact operate_endsBehind h hst hf (after_checked fun _ => rfl) (ends_checked (scale_check hsc) (.finish _))
  · exact operate_endsBehind h hst hf rfl (.finish _)
  · exact drawBitmap_endsBehindHeader h hst hf hsc hb (bitmapSteps_empty hempty) (.finish _)

/-- Settles O30: a fill's stream is `n` equal pixels, and the blocks are those of any stream of `n` pixels. -/
theorem fillCount : Obligations.FillCount := by
  refine ⟨fun cfg x1 y1 x2 y2 c hc => ?_, fun s x1 y1 x2 y2 c h hx hy => ?_⟩
  · intro n k ps
    exact ⟨fillStream_pixels .., fillStream_bytes .., fillStream_blocks _ _ _ _ _ hc⟩
  · intro n k d
    obtain ⟨t, ht, htr⟩ := (fillRect_draws c h hx hy).events
    rw [List.flatMap_singleton] at htr
    refine ⟨t, _, ht, htr, ?_, fillStream_bytes .., ?_⟩
    · rw [payloads_stream_flatten, fillStream_pixels, List.flatMap_def, List.map_replicate]
      rfl
    · rw [blockCount_eq, fillStream_blocks _ _ _ _ _ h.1.legal.1]

/-- Settles O31: each stream opens one window, and the operation's streams have the same number of pixels. -/
theorem glyphCounts : Obligations.GlyphCounts := by
  intro s x y fg bg h
  refine ⟨fun ch hx hy => ?_, fun ch sc hsc hx hy => ?_, fun chs sc hsc hne hx hy => ?_, fun chs hne hx hy => ?_⟩
  · exact (drawFastGlyph_draws fg bg h ch hx hy).counts (n := 104) (by simp [fastGlyphStream, fastGlyphOf_pixels])
  · have hc := (drawGlyph_draws fg bg h ch hsc hx hy).counts (glyphOf_pixels (toNat_ne_zero hsc))
    rwa [glyphStreams, glyphOf_length, Nat.mul_comm _ 104, ← Nat.pow_two] at hc
  · have hc := (drawString_draws fg bg h hsc hne hx hy).counts (stringOf_pixels _ _ _ (toNat_ne_zero hsc) chs)
    rwa [stringStreams, stringOf_length, ← Nat.mul_assoc _ 104, Nat.mul_comm _ 104, ← Nat.pow_two] at hc
  · have hc := (drawFastString_draws fg bg h hne hx hy).counts (fastStringOf_pixels _ _ _ chs)
    rwa [fastStringStreams, fastStringOf_length] at hc

/-- Settles O32: no source bit of a code outside the range is set, whatever the glyph resource holds. -/
theorem unsupportedGlyphBlank : Obligations.UnsupportedGlyphBlank := by
  intro s x y ch fg bg h hout
  refine ⟨fun hx hy => ?_, fun sc hsc hx hy => ?_⟩
  · obtain ⟨t, ht, -, hd⟩ := drawFastGlyph_draws fg bg h ch hx hy
    rw [glyphStatus_unsupported hout, fastGlyphStream, glyphPixel_unsupported hout, fastGlyphOf, glyphCells_const] at hd
    exact ⟨t, ht, hd⟩
  · obtain ⟨t, ht, -, hd⟩ := drawGlyph_draws fg bg h ch hsc hx hy
    rw [glyphStatus_unsupported hout, glyphStreams, glyphPixel_unsupported hout,
      glyphOf_const _ _ (toNat_ne_zero hsc)] at hd
    exact ⟨t, ht, hd⟩

/-- Settles O36: the first check stands before the header is read, the second behind it and the check of the footprint. -/
theorem memoryFaultEnds : Obligations.MemoryFaultEnds := by
  intro s x y sc base h hst hf hsc
  refine ⟨fun hb => ?_, fun hb => ?_⟩
  · exact drawBitmap_ends h hst hf hsc (ends_checked_bad (decide_eq_true hb))
  · intro w ht hw hh hx hy hm
    refine drawBitmap_endsBehindHeader h hst hf hsc hb (bitmapSteps_nonempty hw hh) ?_
    exact ends_checked (offPanel_false hx hy) (ends_checked_bad (decide_eq_true hm))

/-- Settles O59: the window has two columns and two rows, and its first cell is the pixel's. -/
theorem pixelLands : Obligations.PixelLands := by
  intro s x y c h hc hx hy
  obtain ⟨-, -, -, hpw, -, hph, -⟩ := h.1.legal
  have hd := drawPixel_draws c h (Nat.lt_of_succ_lt hx) (Nat.lt_of_succ_lt hy)
  rw [← normWindow_pixel] at hd
  obtain ⟨t, es, ht, htr, hlands⟩ := hd.lands h hc
    (normWindow_covers (w := 2) (h := 2) (by decide) (by decide) (by omega) (by omega)) (by decide) (by decide) hx hy
    (by simp)
  refine ⟨t, es, ht, htr, fun r => ⟨(hlands r).1, fun a b => ?_⟩⟩
  rw [(hlands r).2 a b]
  by_cases hcell : a = x.toNat ∧ b = y.toNat
  · obtain ⟨rfl, rfl⟩ := hcell
    simp
  · rw [if_neg hcell, if_neg]
    rw [List.length_singleton]
    omega

/-- Settles O60: the pixels fill all rows of the window but the last, and are those of O28. -/
theorem bitmapLands : Obligations.BitmapLands := by
  intro s x y sc base h hc hsc hb wd ht z hw hh hx hy hm
  obtain ⟨-, -, -, hpw, -, hph, -⟩ := h.1.legal
  have hwz : 0 < wd * z := Nat.mul_pos (Nat.pos_of_ne_zero hw) (Nat.pos_of_ne_zero (toNat_ne_zero hsc))
  have hd : Draws s (.drawBitmap x y sc base) [bitmapStream s.bmem x.toNat y.toNat base.toNat wd ht z] .ok _ :=
    drawBitmap_draws h hsc hb hw hh hx (Nat.lt_of_le_of_lt (Nat.sub_le ..) hy) hm
  obtain ⟨t, es, hex, htr, hlands⟩ := hd.lands h hc
    (normWindow_covers (w := wd * z) (h := ht * z + 1) hwz (Nat.succ_pos _) (by omega) (by omega)) hwz (Nat.succ_pos _)
    (by omega) hy (by rw [bitmapStream_length]; exact Nat.mul_le_mul_left _ (Nat.le_succ _))
  refine ⟨t, es, hex, htr, fun r => ⟨(hlands r).1, fun a b => ?_⟩⟩
  rw [(hlands r).2 a b, bitmapStream_length]
  by_cases hcell : x.toNat ≤ a ∧ a < x.toNat + wd * z ∧ y.toNat ≤ b ∧ b < y.toNat + ht * z
  · obtain ⟨hxa, hax, hyb, hby⟩ := hcell
    have hcol : a - x.toNat < wd * z := by omega
    have hrow : b - y.toNat < ht * z := by omega
    rw [if_pos ⟨hxa, hax, hyb, (cell_in_rows hcol).2 hrow⟩, if_pos ⟨hxa, hax, hyb, hby⟩]
    exact bitmapStream_get _ _ _ _ _ _ _ hrow hcol
  · rw [if_neg hcell, if_neg]
    rintro ⟨hxa, hax, hyb, hk⟩
    have hrow := (cell_in_rows (show a - x.toNat < wd * z by omega)).1 hk
    exact hcell ⟨hxa, hax, hyb, by omega⟩

end Sys2Proof.Proofs
end

section
/-! PROOF. Precise errors (60_exceptions.md): which status codes an operation can end with, whatever the other agents do,
and where a failed check ends it; the stops of the machine; the timeout's abort. -/

namespace Sys2Proof.Machine

/-! ## Which status codes an operation can end with -/

/-- Every end that step `e` can bring, the timeout at its waits and at those it calls among them, has a code that `ok`
allows (R203). -/
def EStep.within (ok : Status → Bool) (e : EStep) : Bool :=
  match e with
  | .raiseIf _ code | .finishOp code => ok code
  | .requireStream => ok .illegalOperation
  | .readHeader _ _ _ _ => ok .ok && ok .invalidWindow && ok .memoryFault && ok .busTimeout
  | .faultCheck | .waitIdle | .closeStream | .flushIfFull | .flushIfAny => ok .busTimeout
  | .emit _ | .writeWin _ | .openStream | .store _ | .advance | .issue | .clearCursor | .flipActive | .shutStream
  | .writeResult _ => true

/-- An operation under way has only steps left that `ok` allows, and one that has ended has a code that it allows. -/
structure State.Within (s : State) (ok : Status → Bool) : Prop where
  left : s.busy = true → ∀ e ∈ s.cont, e.within ok = true
  ended : s.busy = false → ok s.status = true

section
variable {ok : Status → Bool}

theorem State.Within.endOp {s : State} {st : Status} (h : ok st = true) : (s.endOp st).Within ok :=
  ⟨fun hb => (by cases hb), fun _ => h⟩

theorem State.Within.keep {s t : State} (h : s.Within ok) (hb : t.busy = s.busy) (hc : t.cont = s.cont)
    (hst : t.status = s.status) : t.Within ok :=
  ⟨fun hbusy => hc ▸ h.left (hb ▸ hbusy), fun hidle => hst ▸ h.ended (hb ▸ hidle)⟩

/-- Steps put in line before the ones that are left. -/
theorem State.Within.call {s : State} {k : List EStep} (h : s.Within ok) (hb : s.busy = true)
    (hk : ∀ e ∈ k, e.within ok = true) : State.Within { s with cont := k ++ s.cont } ok :=
  ⟨fun _ => List.forall_mem_append.2 ⟨hk, h.left hb⟩, fun hidle => by cases hb.symm.trans hidle⟩

theorem inline_within (hto : ok .busTimeout = true) : Inline fun e => e.within ok = true :=
  ⟨hto, rfl, rfl, rfl, hto, rfl, rfl⟩

theorem drawSteps_within (hto : ok .busTimeout = true) (c : Config) (sts : List Plan) {st : Status} (hst : ok st = true) :
    ∀ e ∈ drawSteps c sts st, e.within ok = true :=
  all_draw (inline_within hto) hto (fun _ => rfl) (fun _ => rfl) rfl (fun _ => rfl) rfl hto c sts st hst

theorem bitmapSteps_within (hto : ok .busTimeout = true) (hok : ok .ok = true) (hw : ok .invalidWindow = true)
    (hm : ok .memoryFault = true) (c : Config) (x y sc : Word) (base : BitVec 32) (wd ht : Word) :
    ∀ e ∈ bitmapSteps c x y sc base wd ht, e.within ok = true := by
  unfold bitmapSteps
  split
  · exact List.forall_mem_singleton.2 hok
  · exact all_checked hw (all_checked hm (drawSteps_within hto _ _ hok))

theorem engineDo_within {s t : State} {e : EStep} (hb : s.busy = true) (he : e.within ok = true) (hs : s.Within ok)
    (h : engineDo e s = .moved t) : t.Within ok := by
  cases e with
  | faultCheck | raiseIf =>
    cases h
    split
    · exact .endOp he
    · exact hs
  | requireStream =>
    cases h
    split
    · exact hs
    · exact .endOp he
  | finishOp => cases h; exact .endOp he
  | closeStream =>
    cases h
    split
    · exact hs.call hb (inline_within he).ofFinish
    · exact hs
  | flushIfFull | flushIfAny =>
    cases h
    split
    · exact hs.call hb ((inline_within he).ofFlush _)
    · exact hs
  | readHeader x y sc base =>
    cases h
    simp only [EStep.within, Bool.and_eq_true] at he
    obtain ⟨⟨⟨hok, hw⟩, hm⟩, hto⟩ := he
    have hread : State.Within { s with draws := (s.readHeader x y sc base).draws } ok := hs.keep rfl rfl rfl
    exact hread.call hb (bitmapSteps_within hto hok hw hm _ _ _ _ _ _ _)
  | waitIdle =>
    simp only [engineDo] at h
    split at h <;> cases h
    exact hs
  | store =>
    simp only [engineDo, storePixel] at h
    split at h <;> cases h
    exact hs.keep (by simp) (by simp) (by simp)
  | issue =>
    simp only [engineDo, issueStep] at h
    split at h <;> cases h
    exact hs.keep rfl rfl rfl
  | emit | writeWin | openStream | flipActive | shutStream | writeResult => cases h; exact hs.keep rfl rfl rfl
  | advance | clearCursor => cases h; exact hs.keep (by simp) (by simp) (by simp)

/-- Another agent ends an operation only by the timeout at a wait (R213). -/
theorem envMove_within {s t : State} (hs : s.Within ok) (h : s.envMove = some t) : t.Within ok := by
  obtain ⟨ms, -, rfl | ⟨-, rfl⟩ | ⟨hh, rfl⟩ | ⟨n, rfl⟩ | ⟨a, w, -, rfl⟩ | ⟨code, j, v, -, rfl⟩⟩ := envMove_cases h
  · exact hs.keep rfl rfl rfl
  · exact hs.keep rfl rfl rfl
  · obtain ⟨hb, -, k, hc⟩ := held_iff.1 hh
    exact .endOp (hs.left hb .waitIdle (by simp [hc]))
  · exact hs.keep rfl rfl rfl
  · exact hs.keep rfl rfl rfl
  · exact hs.keep rfl rfl rfl

theorem tick_within {s t : State} (hb : s.busy = true) (h : tick s = .moved t) (hs : s.Within ok) : t.Within ok := by
  obtain henv | ⟨e, k, hc, he⟩ := tick_cases h
  · exact envMove_within hs henv
  · have hall := hs.left hb
    rw [hc, List.forall_mem_cons] at hall
    refine engineDo_within (by simpa using hb) hall.1 ⟨fun _ => hall.2, fun hidle => ?_⟩ he
    cases hb.symm.trans (by simpa using hidle)

end

/-! ## The steps of each operation -/

/-- The steps behind an operation's fault check are well formed, and end it only with a code that `ok` allows. -/
structure BehindFaultCheck (m : Mode) (ok : Status → Bool) (rest : List EStep) : Prop where
  wellFormed : Phase.after m .live rest = some .ended
  within : ∀ e ∈ rest, e.within ok = true

namespace BehindFaultCheck

variable {m : Mode} {ok : Status → Bool} {rest : List EStep} {st code : Status}

theorem finish (h : ok st = true) : BehindFaultCheck m ok [.finishOp st] := ⟨rfl, List.forall_mem_singleton.2 h⟩

theorem draw (hto : ok .busTimeout = true) (c : Config) (sts : List Plan) (hst : ok st = true) :
    BehindFaultCheck m ok (drawSteps c sts st) := ⟨after_drawSteps .., drawSteps_within hto c sts hst⟩

theorem check (bad : Bool) (hcode : ok code = true) (h : BehindFaultCheck m ok rest) :
    BehindFaultCheck m ok (checked bad code rest) :=
  ⟨after_checked fun _ => h.wellFormed, all_checked hcode h.within⟩

theorem ite {p : Prop} [Decidable p] {other : List EStep} (h : BehindFaultCheck m ok rest)
    (h' : BehindFaultCheck m ok other) :
    BehindFaultCheck m ok (if p then rest else other) := by
  split
  · exact h
  · exact h'

end BehindFaultCheck

/-- A code that an operation with glyphs can end with (R163, R203). -/
theorem mayEnd_glyphStatus {i : Instr} (h : mayEndWith i .unsupportedGlyph = true) (c : Config) (chs : List Byte) :
    mayEndWith i (glyphStatus c chs) = true := by
  unfold glyphStatus
  split
  · rfl
  · exact h

/-- Only CONVERT has no fault check and no wait (R203, R214). -/
theorem mayEnd_busTimeout {i : Instr} (hi : ∀ c, i ≠ .convert c) : mayEndWith i .busTimeout = true := by
  cases i with
  | convert c => exact absurd rfl (hi c)
  | _ => rfl

/-- Every operation but CONVERT is a fault check (R214) and, behind it, steps that only the configuration decides. -/
theorem exec_faultCheck {i : Instr} (hi : ∀ c, i ≠ .convert c) {s u : State} (hcfg : u.cfg = s.cfg) :
    ∃ rest, exec i s = operate i (.faultCheck :: rest) s ∧ exec i u = operate i (.faultCheck :: rest) u ∧
      BehindFaultCheck s.cfg.mode (mayEndWith i) rest := by
  rw [show u = { u with cfg := s.cfg } by rw [← hcfg]]
  cases i with
  | drawPixel | fillRect => exact ⟨_, rfl, rfl, .check _ rfl (.draw rfl _ _ rfl)⟩
  | drawFastGlyph => exact ⟨_, rfl, rfl, .check _ rfl (.draw rfl _ _ (mayEnd_glyphStatus rfl ..))⟩
  | drawGlyph => exact ⟨_, rfl, rfl, .check _ rfl (.check _ rfl (.draw rfl _ _ (mayEnd_glyphStatus rfl ..)))⟩
  | drawString =>
    exact ⟨_, rfl, rfl, .check _ rfl (.ite (.finish rfl) (.check _ rfl (.draw rfl _ _ (mayEnd_glyphStatus rfl ..))))⟩
  | drawFastString =>
    exact ⟨_, rfl, rfl, .ite (.finish rfl) (.check _ rfl (.draw rfl _ _ (mayEnd_glyphStatus rfl ..)))⟩
  | drawBitmap => exact ⟨_, rfl, rfl, .check _ rfl (.check _ rfl ⟨rfl, List.forall_mem_singleton.2 rfl⟩)⟩
  | convert c => exact absurd rfl (hi c)
  | setWindow => exact ⟨_, rfl, rfl, .check _ rfl ⟨rfl, by simp [windowSteps, EStep.within, mayEndWith, Instr.op]⟩⟩
  | pushPixel => exact ⟨_, rfl, rfl, rfl, by simp [pushSteps, EStep.within, mayEndWith, Instr.op]⟩
  | finish => exact ⟨_, rfl, rfl, rfl, by simp [EStep.within, mayEndWith, Instr.op]⟩

/-- The steps of every operation: the configuration decides them, they are well formed, and they end it only with the
codes of R203. -/
theorem exec_steps (i : Instr) {s u : State} (hcfg : u.cfg = s.cfg) :
    ∃ steps, exec i s = operate i steps s ∧ exec i u = operate i steps u ∧
      Phase.after s.cfg.mode .start steps = some .ended ∧ ∀ e ∈ steps, e.within (mayEndWith i) = true := by
  by_cases hi : ∀ c, i ≠ .convert c
  · obtain ⟨rest, hs, hu, hb⟩ := exec_faultCheck hi hcfg
    exact ⟨_, hs, hu, hb.wellFormed, List.forall_mem_cons.2 ⟨mayEnd_busTimeout hi, hb.within⟩⟩
  · obtain ⟨c, rfl⟩ := not_forall_not.1 hi
    exact ⟨_, rfl, rfl, rfl, by simp [EStep.within, mayEndWith]⟩

/-! ## An operation and the schedule -/

theorem accepted_quiet {s : State} (h : s.Quiet) (ws : List Word) (k : List EStep) : (accepted s ws k).Quiet := by
  cases ws <;> exact h

/-- Acceptance has nothing to do with what `calm` leaves out. -/
theorem accepted_calm (s : State) (ws : List Word) (k : List EStep) :
    (accepted s ws k).calm = accepted s.calm ws k := by cases ws <;> rfl

/-! ## The stops of the machine -/

/-- The only faults of a step of a busy machine: those of the two engine steps that use a buffer. -/
theorem tick_fault {s : State} {r : Fault} (h : tick s = .fault r) :
    r = .stagingOverflow ∨ r = .unwrittenStagingByte := by
  unfold tick engineStep at h
  split at h
  · cases h
  · split at h
    · cases h
    next e k hc =>
      cases e with
      | store =>
        simp only [engineDo, storePixel] at h
        split at h <;> cases h
        exact .inl rfl
      | issue =>
        simp only [engineDo, issueStep] at h
        split at h <;> cases h
        exact .inr rfl
      | waitIdle =>
        simp only [engineDo] at h
        split at h <;> cases h
      | _ => cases h

theorem runOp_fault {s : State} {r : Fault} (h : runOp s = .fault r) :
    r = .stagingOverflow ∨ r = .unwrittenStagingByte := by
  obtain ⟨t, hn, -⟩ | ⟨t, r', hf, -, -, ht⟩ := runFor_cases (s.measure + 1) s (Nat.lt_succ_self _)
  · cases hn.symm.trans h
  · cases hf.symm.trans h
    exact tick_fault ht

/-- Neither an operation nor going on with one ends the run. -/
theorem exec_not_runEnded (i : Instr) (s : State) : exec i s ≠ .fault .runEnded := by
  intro h
  obtain ⟨steps, hex, -⟩ := exec_operate i s
  rw [hex, operate] at h
  split at h
  · split at h
    · cases h
    · rcases runOp_fault h with hr | hr <;> cases hr
  · cases h

theorem resume_not_runEnded (s : State) : resume s ≠ .fault .runEnded := by
  intro h
  unfold resume at h
  split at h
  · rcases runOp_fault h with hr | hr <;> cases hr
  · cases h
  next r hr =>
    cases h
    rcases tick_fault hr with hr | hr <;> cases hr

theorem step_busy {s : State} (hl : s.cfg.Legal) (hb : s.busy = true) : step s = resume s := by
  rw [step, if_pos hl, if_pos hb]

/-- What an idle machine does: it answers a next state, or submits a descriptor that decodes, or has nothing left to do. -/
theorem step_idle_cases {s : State} (hl : s.cfg.Legal) (hb : s.busy = false) :
    (∃ t, step s = .next t) ∨
    (∃ i ms rest, step s = exec i { s with moves := ms, host := rest }) ∨
    (s.envMove = none ∧ s.host = [] ∧ s.moves = []) := by
  cases henv : s.envMove with
  | some t => exact .inl ⟨t, step_of_envMove hl hb henv⟩
  | none =>
    have hstep : step s = idleStep s := by rw [step, if_pos hl, if_neg (by simp [hb])]
    rw [hstep]
    unfold idleStep
    rw [henv]
    cases hh : s.host with
    | nil =>
      cases hm : s.moves with
      | nil => exact .inr (.inr ⟨rfl, rfl, rfl⟩)
      | cons m ms => exact .inl ⟨_, rfl⟩
    | cons ws rest =>
      obtain ⟨ms, -, hd⟩ := dropStay_eq s
      rw [hd]
      cases hdec : decode ws with
      | ok i => exact .inr (.inl ⟨i, ms, rest, by simp only [submit, hdec]⟩)
      | error e => exact .inl ⟨rejectDescriptor ws { s with moves := ms, host := rest }, by simp only [submit, hdec]⟩

/-- Beside an idle core with nothing to submit and no move listed, only a lazy transport can step (R127). -/
theorem envMove_atRest {s : State} (hb : s.busy = false) (hh : s.host = []) (hm : s.moves = []) :
    s.envMove = none ↔ s.inFlight = false ∨ s.tail = .silent := by
  have hheld : s.held = false := by simp [State.held, hb]
  have hblk : s.coreBlocked = true := by simp [State.coreBlocked, hb, hh]
  unfold State.envMove
  rw [hm]
  cases s.tail <;> simp [hheld, hblk]

/-- R248's four conditions. -/
theorem ended_iff (s : State) : s.ended = true ↔
    s.host = [] ∧ s.busy = false ∧ (s.inFlight = false ∨ s.faulted = true ∧ s.tail = .silent) ∧ s.moves = [] := by
  simp [State.ended, and_assoc]

/-- An idle machine in which no agent has a step: the run has ended, unless the transport still owes a `Done` (R248). -/
theorem step_atRest {s : State} (hl : s.cfg.Legal) (hb : s.busy = false) (henv : s.envMove = none) (hh : s.host = [])
    (hm : s.moves = []) :
    (s.ended = true ∧ step s = .fault .runEnded) ∨
    (s.tail = .silent ∧ s.inFlight = true ∧ s.faulted = false ∧ step s = .fault .transportSilent) := by
  have hstep : step s = if s.inFlight && !s.faulted then .fault .transportSilent else .fault .runEnded := by
    rw [step, if_pos hl, if_neg (by simp [hb])]
    simp only [idleStep, henv, hh, hm]
  rw [hstep, ended_iff]
  cases hf : s.inFlight with
  | false => exact .inl ⟨⟨hh, hb, .inl rfl, hm⟩, rfl⟩
  | true =>
    have ht := ((envMove_atRest hb hh hm).1 henv).resolve_left (by simp [hf])
    cases hx : s.faulted with
    | false => exact .inr ⟨ht, rfl, rfl, rfl⟩
    | true => exact .inl ⟨⟨hh, hb, .inr ⟨rfl, ht⟩, hm⟩, rfl⟩

/-- The run has ended exactly where R248's conditions hold. -/
theorem step_runEnded_iff {s : State} (hl : s.cfg.Legal) : step s = .fault .runEnded ↔ s.ended = true := by
  refine ⟨fun h => ?_, fun h => ?_⟩
  · cases hb : s.busy with
    | true => exact absurd ((step_busy hl hb).symm.trans h) (resume_not_runEnded s)
    | false =>
      obtain ⟨t, ht⟩ | ⟨i, ms, rest, hex⟩ | ⟨henv, hh, hm⟩ := step_idle_cases hl hb
      · cases ht.symm.trans h
      · exact absurd (hex.symm.trans h) (exec_not_runEnded i _)
      · obtain ⟨hend, -⟩ | ⟨-, -, -, hsilent⟩ := step_atRest hl hb henv hh hm
        · exact hend
        · cases hsilent.symm.trans h
  · obtain ⟨hh, hb, hfree, hm⟩ := (ended_iff s).1 h
    have henv := (envMove_atRest hb hh hm).2 (hfree.imp_right (·.2))
    obtain ⟨-, hstep⟩ | ⟨-, hfl, hf, -⟩ := step_atRest hl hb henv hh hm
    · exact hstep
    · simp [hfl, hf] at hfree

theorem inv_legal {s : State} (h : s.Inv) : s.cfg.Legal := by
  obtain ⟨-, p, hp, -⟩ | ⟨-, hr, -⟩ := (inv_iff s).1 h
  · obtain ⟨o, hbase⟩ := hp.base
    exact hbase.legal
  · exact hr.1.legal

/-- A busy machine in the invariant goes on, or its engine is stuck. -/
theorem step_busy_outcome {s : State} (h : s.Inv) (hl : s.cfg.Legal) (hb : s.busy = true) :
    (∃ t, step s = .next t) ∨
    (s.held = true ∧ s.cfg.timeoutEnabled = false ∧ s.envMove = none ∧ step s = .fault .engineStuck) := by
  rw [step_busy hl hb, resume]
  cases ht : tick s with
  | moved t =>
    obtain ⟨u, hu, -⟩ := runOp_inv (tick_inv h hb ht)
    exact .inl ⟨u, hu⟩
  | blocked =>
    have hh := held_of_blocked h hb ht
    have henv : s.envMove = none := by
      cases henv : s.envMove with
      | none => rfl
      | some t => cases (tick_of_envMove henv).symm.trans ht
    obtain ⟨-, -, hto⟩ := held_envMove_none hh henv
    exact .inr ⟨hh, hto, henv, rfl⟩
  | fault r =>
    have hg := tick_good h hb
    rw [ht] at hg
    exact hg.elim

/-! ## Failed checks -/

section
variable {i : Instr} {s : State} {bad passing : Bool} {code code' : Status} {rest : List EStep} (h : s.Idle)
  (hst : s.Steady) (hf : s.faulted = false)
include h hst hf

/-- A failed check right behind the fault check ends the operation precisely, whatever stands behind it (R205). -/
theorem failedCheck_ends (hb : bad = true) :
    ∃ t, operate i (.faultCheck :: checked bad code rest) s = .next t ∧ s.EndsPrecisely t code := by
  subst hb
  exact operate_endsBehind h hst hf rfl (.bad _)

/-- So does one behind a check that passed (R208). -/
theorem failedCheck_endsBehind (hp : passing = false) (hb : bad = true) :
    ∃ t, operate i (.faultCheck :: checked passing code' (checked bad code rest)) s = .next t ∧
      s.EndsPrecisely t code := by
  subst hp hb
  exact operate_endsBehind h hst hf rfl (.good _ (.bad _))

end

/-! ## The timeout event -/

/-- How the timeout comes to be next: it stands first in the list, or it is the only step left beside a silent transport
(log entry 6). It is enabled exactly at a wait behind a block (R213). -/
theorem envMove_timeout {s : State} {ms : List Move} (hto : s.cfg.timeoutEnabled = true)
    (hnext : s.moves = .timeout :: ms ∨ s.moves = [] ∧ ms = [] ∧ s.tail = .silent) :
    s.envMove = if s.held then some (State.timeoutEvent { s with moves := ms }) else none := by
  obtain hm | ⟨hm, rfl, ht⟩ := hnext
  · simp only [State.envMove, hm, hto, if_true]
  · rw [show { s with moves := [] } = s by rw [← hm]]
    simp only [State.envMove, hm, ht, hto, Bool.true_and]

/-- Where the configuration has no timeout event, one in the list is passed over. -/
theorem envMove_noTimeout {s : State} {ms : List Move} (hto : s.cfg.timeoutEnabled = false)
    (hm : s.moves = .timeout :: ms) : s.envMove = some { s with moves := ms } := by
  simp [State.envMove, hm, hto]

/-- A move that ends the operation under way is a step of the machine. -/
theorem step_of_endingMove {s t : State} (hl : s.cfg.Legal) (hb : s.busy = true) (h : s.envMove = some t)
    (ht : t.busy = false) : step s = .next t := by
  rw [step_busy hl hb, resume, tick_of_envMove h]
  exact runOp_reaches (.refl t) (.inl ht)

/-- The abort releases the scope of an open stream (R207). -/
theorem abort_trace (s : State) :
    s.abort.trace = s.trace ++ if s.streamOpen = true then [.scopeRelease] else [] := by
  unfold State.abort
  split <;> simp

/-! ## The stuck engine -/

theorem Unattended.envMove_none {s : State} (h : Unattended s) : s.envMove = none := by
  simp [State.envMove, h.moves, h.tail, h.noTimeout]


/-- ENGINE.BUSY and ENGINE.IN_FLIGHT (R36). -/
theorem readReg_engine (s : State) :
    (s.readReg 3).getLsbD 0 = s.busy ∧ (s.readReg 3).getLsbD 1 = s.inFlight := by
  simp only [State.readReg, State.regEngine, BitVec.getLsbD_setWidth, BitVec.getLsbD_append]
  simp

end Sys2Proof.Machine
end

section
namespace Sys2Proof.Proofs
open Sys2Proof.Machine

/-- Settles O38: the codes of R203 allow every step an operation starts with and every step put in line later, so they
allow the one that ends it. A rejected descriptor ends by its rejection. -/
theorem statusTable : Obligations.StatusTable := by
  refine ⟨fun i s t _ hex hb => ?_, fun ws e s t _ he ht => ?_⟩
  · obtain ⟨steps, hs, -, -, hw⟩ := exec_steps i (s := s) rfl
    obtain ⟨hr, -⟩ := operate_next (hs.symm.trans hex)
    have hstart : (s.accept i steps).Within (mayEndWith i) := ⟨fun _ => hw, fun hidle => by cases hidle⟩
    exact (reaches_keeps (fun _ _ => tick_within) hr hstart).ended hb
  · rw [submit, he] at ht
    cases ht
    rfl

/-- Settles O40: a busy machine goes on or is held, and an idle one moves, submits or has nothing left to do. -/
theorem stepOutcomes : Obligations.StepOutcomes := by
  refine ⟨fun s hl => (step_runEnded_iff hl).trans (ended_iff s), fun s h => ?_⟩
  have hl := inv_legal h
  cases hb : s.busy with
  | true =>
    exact (step_busy_outcome h hl hb).imp_right fun hstuck => .inl ⟨rfl, hstuck⟩
  | false =>
    obtain hnext | ⟨i, ms, rest, hex⟩ | ⟨henv, hh, hm⟩ := step_idle_cases hl hb
    · exact .inl hnext
    · obtain ⟨steps, hop, hty⟩ := exec_operate i { s with moves := ms, host := rest }
      obtain ⟨t, ht, -⟩ := operate_inv (i := i) (submit_idle h hb ms rest) hty
      exact .inl ⟨t, hex.trans (hop.trans ht)⟩
    · refine .inr (.inr ((step_atRest hl hb henv hh hm).imp_right ?_))
      exact fun hsilent => ⟨rfl, hh, hm, hsilent⟩

/-- Settles O57: to the engine alone the two operations start in the same state, take the same steps and so come to the
same end. -/
theorem scheduleIndependence : Obligations.ScheduleIndependence := by
  intro i s s' h h' hq hq' hcalm
  have hcfg : s'.cfg = s.cfg := (congrArg State.cfg hcalm).symm
  obtain ⟨steps, hs, hs', hty, -⟩ := exec_steps i hcfg
  have hinv := accepted_inv (ws := encode i) h hty
  have hquiet := accepted_quiet hq (encode i) steps
  obtain ⟨t, ht, hr, hb, htinv⟩ := runOp_ends hinv hquiet
  have hcr := reaches_calm hr hinv (.inl hquiet)
  rw [accepted_calm, hcalm, ← accepted_calm] at hcr
  obtain ⟨t', ht', heq, -⟩ := operate_calm h' (hcfg ▸ hty) hq'.2.2 (.inl hq') hcr (State.Idle.rest ⟨htinv, hb⟩).2
  exact ⟨t, t', hs.trans ((operate_idle h).trans ht), hs'.trans ht', heq.symm⟩

/-- Settles O33: the fault check ends the operation before anything else. -/
theorem faultedEnds : Obligations.FaultedEnds := by
  intro s i h hst hf hi
  obtain ⟨rest, hex, -, hb⟩ := exec_faultCheck hi (s := s) rfl
  obtain ⟨t, ht, hcalm, -⟩ := operate_ends (i := i) h hst (after_faultCheck hb.wellFormed) (.fault rest hf rfl)
  exact ⟨t, hex.trans ht, endsPrecisely_of_calm h hcalm⟩

/-- Settles O34: behind the fault check, and the checks that the premises let pass, the check of the footprint ends the
operation. -/
theorem offPanelEnds : Obligations.OffPanelEnds := by
  intro s h hst hf
  refine ⟨fun x y c hoff => ?_, fun x1 y1 x2 y2 c hoff => ?_, fun x1 y1 x2 y2 hoff => ?_,
    fun x y ch fg bg hoff => ?_, fun x y ch fg bg sc hsc hoff => ?_, fun x y fg bg sc chs hsc hne hoff => ?_,
    fun x y fg bg chs hne hoff => ?_, fun x y sc base hsc hb => ?_⟩
  · exact failedCheck_ends h hst hf (offPanel_true hoff)
  · exact failedCheck_ends h hst hf (offPanel_true hoff)
  · exact failedCheck_ends h hst hf (offPanel_true hoff)
  · exact failedCheck_ends h hst hf (offPanel_true hoff)
  · exact failedCheck_endsBehind h hst hf (scale_check hsc) (offPanel_true hoff)
  · have hex : exec (.drawString x y fg bg sc chs) s = operate _ (.faultCheck :: checked _ _ (ite _ _ _)) s := rfl
    rw [hex, if_neg (mt List.length_eq_zero_iff.1 hne)]
    exact failedCheck_endsBehind h hst hf (scale_check hsc) (offPanel_true hoff)
  · have hex : exec (.drawFastString x y fg bg chs) s = operate _ (.faultCheck :: ite _ _ _) s := rfl
    rw [hex, if_neg (mt List.length_eq_zero_iff.1 hne)]
    exact failedCheck_ends h hst hf (offPanel_true hoff)
  · intro w ht hw hh hoff
    exact drawBitmap_endsBehindHeader h hst hf hsc hb (bitmapSteps_nonempty hw hh)
      (ends_checked_bad (offPanel_true hoff))

/-- Settles O35: the check of the scale stands right behind the fault check. -/
theorem scaleZeroEnds : Obligations.ScaleZeroEnds := by
  intro s h hst hf
  refine ⟨fun x y ch fg bg => ?_, fun x y fg bg chs => ?_, fun x y base => ?_⟩
  · exact failedCheck_ends h hst hf rfl
  · exact failedCheck_ends h hst hf rfl
  · exact failedCheck_ends h hst hf rfl

/-- Settles O52: the event is next exactly at a wait, and there the operation ends with it. -/
theorem timeoutAborts : Obligations.TimeoutAborts := by
  refine ⟨fun s ms hto hm => envMove_noTimeout hto hm, fun s ms hto hnext => ⟨fun hh => ?_, fun hh hl => ?_⟩⟩
  · rw [envMove_timeout hto hnext, hh]
    rfl
  · have henv := envMove_timeout hto hnext
    rw [if_pos hh] at henv
    refine ⟨_, step_of_endingMove hl (held_busy hh) henv rfl, ?_⟩
    simp [abort_trace, held_inFlight hh]

/-- Settles O54: no agent attends to the machine, and its engine is held. -/
theorem hangIsStuck : Obligations.HangIsStuck := by
  intro s hl hh hm ht hto
  have hsolo : Solo s := ⟨⟨hm, ht, hto⟩, held_busy hh⟩
  obtain ⟨hbusy, hflight⟩ := readReg_engine s
  exact ⟨hsolo.stuck hl hh, by simp [State.stuck, hh, hsolo.envMove_none], hbusy.trans hsolo.busy,
    hflight.trans (held_inFlight hh)⟩

end Sys2Proof.Proofs
end

section
/-! PROOF. What a reset leaves (70_reset_and_hazards.md R230, R231), and an operation's blocks and their completions on
the bus (R241; 20_memory.md R56, R57). -/

namespace Sys2Proof.Machine

/-! ## Reset -/

/-- A reset in a legal configuration, taken in any state, leaves an idle core in the invariant (R230): no stream is open and
the trace is empty. Of the old state only the resources have to be in canonical form. -/
theorem takeReset_idle {c : Config} {s : State} (hl : c.Legal) (hb : Memory.wfZero s.bmem) (hg : Memory.wfZero s.glyphs) :
    (State.takeReset c s).Idle := by
  have hbase : (State.takeReset c s).Base false :=
    { legal := hl
      bmemWf := hb
      glyphsWf := hg
      buf0Wf := .nil
      buf1Wf := .nil
      buf0In := List.forall_mem_nil _
      buf1In := List.forall_mem_nil _
      cursorLe := Nat.zero_le _
      cursorMod := rfl
      blockingActive := fun _ => ⟨rfl, rfl⟩
      xferIff := rfl
      bus := rfl
      blocks := List.forall_mem_nil _ }
  exact ⟨(inv_iff _).2 (.inr ⟨rfl, ⟨hbase, .inl ⟨rfl, rfl, rfl, rfl, rfl⟩⟩, rfl, rfl⟩), rfl⟩

/-- The machine right after reset is ready: nothing is loaded, and no move is listed (log entry 6). -/
theorem resetWith_ready {c : Config} (hl : c.Legal) : (State.resetWith c).Ready :=
  ⟨takeReset_idle (s := State.resetWith c) hl ⟨.nil, List.forall_mem_nil _⟩ ⟨.nil, List.forall_mem_nil _⟩, rfl, rfl,
    fun _ => List.not_mem_nil, List.forall_mem_nil _⟩

/-! ## Bus events in which every block is completed at once -/

/-- Each block has its `Done` right behind it, and there is no other `Done`. -/
inductive Completed : List Event → Prop
  | nil : Completed []
  | other {e : Event} {es : List Event} (hb : e.isBlock = false) (hd : e ≠ .done) (h : Completed es) : Completed (e :: es)
  | block (m : Mode) (bytes : List Byte) {es : List Event} (h : Completed es) : Completed (.block m bytes :: .done :: es)

namespace Completed

variable {es fs : List Event}

theorem append (h : Completed es) (h' : Completed fs) : Completed (es ++ fs) := by
  induction h with
  | nil => exact h'
  | other hb hd _ ih => exact .other hb hd ih
  | block m bytes _ ih => exact .block m bytes ih

theorem done_behind_block (h : Completed es) : ∀ {pre post : List Event} {m : Mode} {bytes : List Byte},
    es = pre ++ .block m bytes :: post → ∃ rest, post = .done :: rest := by
  induction h with
  | nil => simp
  | other hb _ _ ih =>
    intro pre post m bytes heq
    rcases List.cons_eq_append_iff.1 heq with ⟨-, hcons⟩ | ⟨pre', -, htail⟩
    · cases hcons
      cases hb
    · exact ih htail
  | block m' bytes' _ ih =>
    intro pre post m bytes heq
    rcases List.cons_eq_append_iff.1 heq with ⟨-, hcons⟩ | ⟨pre', -, htail⟩
    · cases hcons
      exact ⟨_, rfl⟩
    · rcases List.cons_eq_append_iff.1 htail with ⟨-, hcons⟩ | ⟨pre'', -, htail'⟩
      · cases hcons
      · exact ih htail'

theorem count_done (h : Completed es) : es.count .done = blockCount es := by
  unfold blockCount
  induction h with
  | nil => rfl
  | other hb hd _ ih => rw [List.count_cons_of_ne hd, ih, List.countP_cons_of_neg (by simp [hb])]
  | block m bytes _ ih =>
    rw [List.count_cons_of_ne (by simp), List.count_cons_self, ih, List.countP_cons_of_pos rfl,
      List.countP_cons_of_neg (by simp [Event.isBlock])]

end Completed

/-! ## What an operation puts on the bus -/

/-- What an engine step puts on the bus: nothing, the event it emits, or the block it issues (R12, R123, R124). -/
theorem engineDo_events {s t : State} {e : EStep} (h : engineDo e s = .moved t) :
    (t.trace = s.trace ∧ t.inFlight = s.inFlight) ∨ (∃ ev, e = .emit ev ∧ t = s.emit ev) ∨
      (e = .issue ∧ ∃ bytes, t = s.issueBlock bytes) := by
  cases e with
  | emit ev =>
    cases h
    exact .inr (.inl ⟨ev, rfl, rfl⟩)
  | issue =>
    simp only [engineDo, issueStep] at h
    split at h
    · cases h
      exact .inr (.inr ⟨rfl, _, rfl⟩)
    · cases h
  | store p =>
    simp only [engineDo, storePixel] at h
    split at h
    · cases h
      exact .inl (by simp)
    · cases h
  | waitIdle =>
    simp only [engineDo] at h
    split at h
    · cases h
    · cases h
      exact .inl ⟨rfl, rfl⟩
  | faultCheck | raiseIf | requireStream | closeStream | flushIfFull | flushIfAny =>
    cases h
    split <;> exact .inl ⟨rfl, rfl⟩
  | advance | clearCursor =>
    cases h
    exact .inl (by simp)
  | writeWin | openStream | readHeader | flipActive | shutStream | writeResult | finishOp =>
    cases h
    exact .inl ⟨rfl, rfl⟩

/-- The events that the engine emits one by one are neither blocks nor completions: those are the issue step's and the
transport's. -/
theorem Phase.next_emit {m : Mode} {p q : Phase} {ev : Event} (h : p.next m (.emit ev) = some q) :
    ev.isBlock = false ∧ ev ≠ .done := by
  cases ev with
  | block | done => cases p <;> cases h
  | cmd | data | scopeAcquire | scopeRelease => exact ⟨rfl, by simp⟩

/-- A step of a busy machine, the other agents being quiet, adds to the settled trace nothing, one event that is neither a
block nor a completion, or a block with its completion: the engine emits and issues only where no block is outstanding. -/
theorem tick_settled {s t : State} (hs : s.Inv) (hb : s.busy = true) (hq : s.Quiet) (h : tick s = .moved t) :
    ∃ es, t.settled = s.settled ++ es ∧ Completed es := by
  rcases tick_cases h with henv | ⟨e, k, hc, heng⟩
  · have hcalm := envMove_calm (.inl hq) hq.2.2 henv
    exact ⟨[], by simpa using congrArg State.trace hcalm, .nil⟩
  · obtain ⟨p, q, hp, hn⟩ := inv_next hs hb hc
    rcases engineDo_events heng with ⟨htr, hfl⟩ | ⟨ev, rfl, rfl⟩ | ⟨rfl, bytes, rfl⟩
    · exact ⟨[], by simp [State.settled, htr, hfl], .nil⟩
    · have hfree : s.inFlight = false := usesBus_free hp hn rfl
      obtain ⟨hblock, hdone⟩ := Phase.next_emit hn
      exact ⟨[ev], by simp [State.settled, hfree], .other hblock hdone .nil⟩
    · have hfree : s.inFlight = false := usesBus_free hp hn rfl
      exact ⟨[.block s.cfg.mode bytes, .done], by simp [State.settled, hfree], .block _ _ .nil⟩

theorem reaches_settled {s t : State} (h : Reaches s t) (hs : s.Inv) (hq : s.Quiet) :
    ∃ es, t.settled = s.settled ++ es ∧ Completed es := by
  induction h with
  | refl => exact ⟨[], by simp, .nil⟩
  | step hb ht _ ih =>
    obtain ⟨es, hes, hce⟩ := tick_settled hs hb hq ht
    obtain ⟨fs, hfs, hcf⟩ := ih (tick_inv hs hb ht) (tick_quiet hq ht)
    exact ⟨es ++ fs, by rw [hfs, hes, List.append_assoc], hce.append hcf⟩

/-- An operation from a ready state ends, and puts completed blocks on the bus (R241). -/
theorem exec_settled {i : Instr} {s t : State} (h : s.Ready) (hex : exec i s = .next t) :
    t.Idle ∧ ∃ es, t.settled = s.settled ++ es ∧ Completed es := by
  obtain ⟨hidle, -, hq⟩ := h
  obtain ⟨steps, hop, hty⟩ := exec_operate i s
  have hinv := accepted_inv (ws := encode i) hidle hty
  have hquiet := accepted_quiet hq (encode i) steps
  obtain ⟨t', ht', hr, hb, htinv⟩ := runOp_ends hinv hquiet
  obtain rfl : t' = t := by simpa [hop, operate_idle hidle, ht'] using hex
  obtain ⟨es, hes, hce⟩ := reaches_settled hr hinv hquiet
  have hacc : (accepted s (encode i) steps).settled = s.settled := accepted_trace s _ _
  exact ⟨⟨htinv, hb⟩, es, hacc ▸ hes, hce⟩

/-! ## The bus grammar of the settled trace -/

theorem BusPhase.scan_append_scan (es fs : List Event) : ∀ p : BusPhase,
    BusPhase.scan p (es ++ fs) = (BusPhase.scan p es).bind fun q => BusPhase.scan q fs := by
  induction es with
  | nil => exact fun _ => rfl
  | cons e es ih =>
    intro p
    cases h : p.next e with
    | none => simp [BusPhase.scan, h]
    | some q => simp [BusPhase.scan, h, ih q]

/-- With the outstanding block completed, the trace of an idle core stands in a scope exactly if a stream is open. -/
theorem State.Idle.scan_settled {s : State} (h : s.Idle) :
    BusPhase.scan .framed s.settled = some (BusPhase.of s.streamOpen false) := by
  obtain ⟨⟨hbase, -⟩, -⟩ := h.rest
  have hbus := hbase.bus
  unfold State.settled
  cases hf : s.inFlight with
  | false => simpa [hf] using hbus
  | true =>
    rw [hf] at hbus
    simp only [cond_true, BusPhase.scan_append, hbus, Option.bind_some]
    cases s.streamOpen <;> rfl

end Sys2Proof.Machine
end

section
namespace Sys2Proof.Proofs
open Sys2Proof.Machine

/-- Settles O45: step by step, the engine puts each block on the bus where none is outstanding; and both settled traces keep
the grammar of the bus. -/
theorem completionsMatchBlocks : Obligations.CompletionsMatchBlocks := by
  intro i s t h hex
  obtain ⟨ht, es, hes, hce⟩ := exec_settled h hex
  refine ⟨es, hes, fun _ _ _ _ => hce.done_behind_block, hce.count_done, ?_⟩
  have hscan := ht.scan_settled
  rwa [hes, BusPhase.scan_append_scan, h.1.scan_settled] at hscan

/-- Settles O11: reset leaves the core in the invariant, and the model's `reset` is one of a legal configuration. -/
theorem resetInvariant : Obligations.ResetInvariant :=
  ⟨fun _ => resetWith_ready, resetWith_ready (by decide)⟩

/-- Settles O12: the values are those of `resetWith`, and a `Done` still listed finds no block outstanding. -/
theorem resetMidRun : Obligations.ResetMidRun := by
  intro c s t
  have hcursor : ∀ i, t.cursor i = 0 := fun i => by cases i <;> rfl
  have hdone : ∀ ms, s.moves = .done :: ms → t.envMove = none := fun ms hm => envMove_done (s := t) hm
  exact ⟨rfl, hcursor, rfl, rfl, rfl, rfl, rfl, rfl, rfl, rfl, rfl, rfl, rfl, rfl, rfl, rfl, hdone, takeReset_idle⟩

end Sys2Proof.Proofs
end
